-- ==== Sys2Proof/Word.lean ====
section
/-!
DEFINITION. The word types of the block: bytes, the 32-bit and 64-bit registers of rule R31, and the
names of the three memory spaces of rule R70.
-/

namespace Sys2Proof

/-- One byte of a memory space, or one channel of a texel (R17). -/
abbrev Byte := BitVec 8

/-- A 32-bit register or a command word (R31, R101). -/
abbrev Word32 := BitVec 32

/-- A 64-bit register (R31). -/
abbrev Word64 := BitVec 64

/-- The three byte-addressed memory spaces (R70): they are separate and none aliases another. -/
inductive Space where
  /-- The encoded input stream, read by DECT and DECI. -/
  | raw
  /-- The linear BGRA pixel buffer. -/
  | pix
  /-- The encoded output stream. -/
  | out
deriving DecidableEq, Repr

end Sys2Proof
end

