-- ==== Sys2Proof/Syntax.lean ====
section
/-!
DEFINITION. The formats of rule R18 and the instructions of the opcode table (R113): one constructor
of `Instr` per row.
-/

namespace Sys2Proof

/-- The thirteen formats, in the order of R18: the constructor's place is the format index FMT. -/
inductive Fmt where
  | rgba4444 | rgba5551 | rgba8888 | rgb565 | rgb888 | etc1 | etc1a4
  | a8 | a4 | l8 | l4 | la88 | la44
deriving DecidableEq, Repr

/-- The commands of the block. Operands are counts and indexes, so they are natural numbers;
`Instr.wellFormed` says which fit their fields. -/
inductive Instr where
  /-- Resolve (DTYPE, PFMT) to a format (R171). -/
  | lookup
  /-- Resample RS_VAL from `sbits` to `tbits` bits (R135). -/
  | rsmp (sbits tbits : Nat)
  /-- Address of texel `t` of the tile, `bpt` bytes per texel (R153). -/
  | taddr (t bpt : Nat)
  /-- Decompress the block in BD_DESC; `af`: an alpha mask is present (R270). -/
  | bdec (af : Bool)
  | dectRgba4444 | dectRgba5551 | dectRgba8888 | dectRgb565 | dectRgb888 | dectEtc1 | dectEtc1a4
  | dectA8 | dectA4 | dectL8 | dectL4 | dectLa88 | dectLa44
  | enctRgba4444 | enctRgba5551 | enctRgba8888 | enctRgb565 | enctRgb888 | enctEtc1 | enctEtc1a4
  | enctA8 | enctA4 | enctL8 | enctL4 | enctLa88 | enctLa44
  /-- Decode a whole image (R172). -/
  | deci
  /-- Encode a whole image (R173). -/
  | enci
deriving DecidableEq, Repr

/-- DECT of a format (R176), one instruction per format. -/
def Instr.dect : Fmt → Instr
  | .rgba4444 => .dectRgba4444 | .rgba5551 => .dectRgba5551 | .rgba8888 => .dectRgba8888
  | .rgb565 => .dectRgb565 | .rgb888 => .dectRgb888 | .etc1 => .dectEtc1 | .etc1a4 => .dectEtc1a4
  | .a8 => .dectA8 | .a4 => .dectA4 | .l8 => .dectL8 | .l4 => .dectL4
  | .la88 => .dectLa88 | .la44 => .dectLa44

/-- ENCT of a format (R177), one instruction per format. -/
def Instr.enct : Fmt → Instr
  | .rgba4444 => .enctRgba4444 | .rgba5551 => .enctRgba5551 | .rgba8888 => .enctRgba8888
  | .rgb565 => .enctRgb565 | .rgb888 => .enctRgb888 | .etc1 => .enctEtc1 | .etc1a4 => .enctEtc1a4
  | .a8 => .enctA8 | .a4 => .enctA4 | .l8 => .enctL8 | .l4 => .enctL4
  | .la88 => .enctLa88 | .la44 => .enctLa44

end Sys2Proof
end

