-- ==== Sys2Proof/WellFormed.lean ====
section
/-!
DEFINITION. Which instructions fit their command word: every operand within its field (R103, R104).
A well-formed instruction may still raise IllegalOperand when it runs (R105).
-/

namespace Sys2Proof

/-- SBITS, TBITS and BPT are four-bit fields (R103). -/
def fitsNibble (n : Nat) : Bool := decide (n < 16)

/-- T is the six-bit field A[5:0], 0..63 (R103, R104). -/
def fitsTileIndex (t : Nat) : Bool := decide (t < 64)

/-- Every operand of the instruction fits its field. -/
def Instr.wellFormed : Instr → Bool
  | .rsmp sbits tbits => fitsNibble sbits && fitsNibble tbits
  | .taddr t bpt => fitsTileIndex t && fitsNibble bpt
  | .bdec _ => true
  | .lookup | .deci | .enci => true
  | .dectRgba4444 | .dectRgba5551 | .dectRgba8888 | .dectRgb565 | .dectRgb888 | .dectEtc1
  | .dectEtc1a4 | .dectA8 | .dectA4 | .dectL8 | .dectL4 | .dectLa88 | .dectLa44 => true
  | .enctRgba4444 | .enctRgba5551 | .enctRgba8888 | .enctRgb565 | .enctRgb888 | .enctEtc1
  | .enctEtc1a4 | .enctA8 | .enctA4 | .enctL8 | .enctL4 | .enctLa88 | .enctLa44 => true

end Sys2Proof
end

