-- ==== Sys2Proof/Decode.lean ====
section
/-!
DEFINITION. The command word (30_encoding.md): the decoder of R107, total on every 32-bit word and
rejecting by name, and after it the encoder, from the tables of R101 to R103 and R111. A command is
exactly one 32-bit word (R108); it is handed to the block as a word and not fetched from bytes (R86).
-/

namespace Sys2Proof

/-- `v[hi:lo]` as an unsigned integer (R12, R104). -/
def bits {n : Nat} (v : BitVec n) (hi lo : Nat) : Nat := (v.extractLsb hi lo).toNat

/-- FMT, the index of a format: its row in R18. -/
def Fmt.index : Fmt → Nat
  | .rgba4444 => 0 | .rgba5551 => 1 | .rgba8888 => 2 | .rgb565 => 3 | .rgb888 => 4
  | .etc1 => 5 | .etc1a4 => 6 | .a8 => 7 | .a4 => 8 | .l8 => 9 | .l4 => 10
  | .la88 => 11 | .la44 => 12

/-- All formats, in the order of R18. -/
def Fmt.all : List Fmt :=
  [.rgba4444, .rgba5551, .rgba8888, .rgb565, .rgb888, .etc1, .etc1a4, .a8, .a4, .l8, .l4, .la88, .la44]

/-- The format of an index; 13 and above name none (R105). -/
def Fmt.ofIndex : Nat → Option Fmt
  | 0 => some .rgba4444 | 1 => some .rgba5551 | 2 => some .rgba8888 | 3 => some .rgb565
  | 4 => some .rgb888 | 5 => some .etc1 | 6 => some .etc1a4 | 7 => some .a8 | 8 => some .a4
  | 9 => some .l8 | 10 => some .l4 | 11 => some .la88 | 12 => some .la44
  | _ => none

/-- Why a word is no instruction of the table. -/
inductive Reject where
  /-- OP is 8 to 15 (R106). -/
  | reservedOp
  /-- RSV or a field R103 marks "0" is not zero (R106). -/
  | reservedField
  /-- DECT with FMT 13 to 15: well formed, but it names no codec (R113, R176). -/
  | dectNoCodec
  /-- ENCT with FMT 13 to 15: well formed, but it names no codec (R113, R177). -/
  | enctNoCodec
deriving DecidableEq, Repr

/-- The decode procedure of R107. -/
def decode (c : Word32) : Except Reject Instr :=
  let fmt := bits c 7 4
  let a := bits c 15 8
  let b := bits c 23 16
  if bits c 31 24 ≠ 0 then .error .reservedField else
  match bits c 3 0 with
  | 0 => if fmt = 0 ∧ a = 0 ∧ b = 0 then .ok .lookup else .error .reservedField
  | 1 =>
    if fmt = 0 ∧ bits c 15 12 = 0 ∧ bits c 23 20 = 0 then .ok (.rsmp (bits c 11 8) (bits c 19 16))
    else .error .reservedField
  | 2 =>
    if fmt = 0 ∧ bits c 15 14 = 0 ∧ bits c 23 20 = 0 then .ok (.taddr (bits c 13 8) (bits c 19 16))
    else .error .reservedField
  | 3 =>
    if fmt = 0 ∧ bits c 15 9 = 0 ∧ b = 0 then .ok (.bdec (bits c 8 8 == 1)) else .error .reservedField
  | 4 =>
    if a = 0 ∧ b = 0 then
      match Fmt.ofIndex fmt with
      | some f => .ok (.dect f)
      | none => .error .dectNoCodec
    else .error .reservedField
  | 5 =>
    if a = 0 ∧ b = 0 then
      match Fmt.ofIndex fmt with
      | some f => .ok (.enct f)
      | none => .error .enctNoCodec
    else .error .reservedField
  | 6 => if fmt = 0 ∧ a = 0 ∧ b = 0 then .ok .deci else .error .reservedField
  | 7 => if fmt = 0 ∧ a = 0 ∧ b = 0 then .ok .enci else .error .reservedField
  | _ => .error .reservedOp

/-- A command word from its fields (R101), RSV zero. -/
def commandWord (op fmt a b : Nat) : Word32 := BitVec.ofNat 32 (op + fmt * 2^4 + a * 2^8 + b * 2^16)

/-- The command word of an instruction (R102, R103, R111). An operand that does not fit keeps its low
bits, so the words of ill-formed instructions mean nothing (`Instr.wellFormed`). -/
def encode : Instr → Word32
  | .lookup => commandWord 0 0 0 0
  | .rsmp sbits tbits => commandWord 1 0 (sbits % 16) (tbits % 16)
  | .taddr t bpt => commandWord 2 0 (t % 64) (bpt % 16)
  | .bdec af => commandWord 3 0 (if af then 1 else 0) 0
  | .dectRgba4444 => commandWord 4 0 0 0
  | .dectRgba5551 => commandWord 4 1 0 0
  | .dectRgba8888 => commandWord 4 2 0 0
  | .dectRgb565 => commandWord 4 3 0 0
  | .dectRgb888 => commandWord 4 4 0 0
  | .dectEtc1 => commandWord 4 5 0 0
  | .dectEtc1a4 => commandWord 4 6 0 0
  | .dectA8 => commandWord 4 7 0 0
  | .dectA4 => commandWord 4 8 0 0
  | .dectL8 => commandWord 4 9 0 0
  | .dectL4 => commandWord 4 10 0 0
  | .dectLa88 => commandWord 4 11 0 0
  | .dectLa44 => commandWord 4 12 0 0
  | .enctRgba4444 => commandWord 5 0 0 0
  | .enctRgba5551 => commandWord 5 1 0 0
  | .enctRgba8888 => commandWord 5 2 0 0
  | .enctRgb565 => commandWord 5 3 0 0
  | .enctRgb888 => commandWord 5 4 0 0
  | .enctEtc1 => commandWord 5 5 0 0
  | .enctEtc1a4 => commandWord 5 6 0 0
  | .enctA8 => commandWord 5 7 0 0
  | .enctA4 => commandWord 5 8 0 0
  | .enctL8 => commandWord 5 9 0 0
  | .enctL4 => commandWord 5 10 0 0
  | .enctLa88 => commandWord 5 11 0 0
  | .enctLa44 => commandWord 5 12 0 0
  | .deci => commandWord 6 0 0 0
  | .enci => commandWord 7 0 0 0

/-- The word of an opcode-table row as the host numbers it: `nbits` bits of `w`, the bits above zero. -/
def tableWord (nbits w : Nat) : Word32 := BitVec.ofNat 32 (w % 2 ^ nbits)

/-- What the decoder reads from an instruction whose bits are `w`. -/
def decodeTableWord (nbits w : Nat) : Option Instr :=
  match decode (tableWord nbits w) with
  | .ok i => some i
  | .error _ => none

end Sys2Proof
end

