-- ==== Sys2Proof/Config.lean ====
section
/-!
DEFINITION. What an implementation fixes and the spec leaves open (R9), and the free values. Every
constant here that has no body is opaque: no proof can see what it is.
-/

namespace Sys2Proof.Config

/-- RAW_CAP, the capacity in bytes of the RAW space: OPEN, below 2^64 (R9, R10). -/
opaque rawCap : Word64

/-- PIX_CAP, the capacity in bytes of the PIX space: OPEN, below 2^64 (R9, R10). -/
opaque pixCap : Word64

/-- OUT_CAP, the capacity in bytes of the OUT space: OPEN, below 2^64 (R9, R10). -/
opaque outCap : Word64

/-- The freedom left in CODE_TABLE (R9, R109): any rearrangement of the code pairs. -/
opaque codePerm : Equiv.Perm (Word32 × Word32)

/-- The one pair the source fixes, (0x1401 "unsigned byte", 0x6754 "RGB"), for RGB888 (R109). -/
def rgb888Pair : Word32 × Word32 := (0x1401#32, 0x6754#32)

/-- Thirteen different pairs from which `codePair` starts, one per format index. -/
def seedPair (n : Nat) : Word32 × Word32 := (BitVec.ofNat 32 n, 0#32)

/-- The code pair of format index `n`: the open rearrangement of the seeds, followed by the one swap
that puts the fixed pair at index 4. Every table R109 allows is one of these, and each of these is a
table R109 allows (notes/assumptions/3.md). -/
def codePair (n : Nat) : Word32 × Word32 :=
  Equiv.swap (codePerm (seedPair 4)) rgb888Pair (codePerm (seedPair n))

/-- The bytes of the three spaces at power-up: "a draw of any bytes" (R341). -/
opaque powerUpByte : Space → Nat → Byte

/-- The draws of the spec, one 32-bit texel each: ENC_OOB (R9, R203) and the texels of a tile that
raised RawUnderrun (R313). Applied to State's counter of draws. -/
opaque freeTexel : Nat → Word32

/-- The 4-byte length field of a written STEX file whose data has this many bytes, 2^32 or more: the spec
does not say what the writer puts there (R295, notes/assumptions/20.md). -/
opaque stexLongLength : Nat → Word32

end Sys2Proof.Config
end

