-- ==== Sys2Proof/Machine/State.lean ====
section
/-!
DEFINITION. The state of the block as plain data (10_state.md, 20_memory.md), the state after reset,
and the reasons a step can stop.
-/

namespace Sys2Proof.Machine

/-- The contents of one memory space: (address, byte) pairs, addresses strictly rising
(`Memory.wf`). An address that is not listed holds no value of its own: it reads as the power-up
byte, which is free (notes/assumptions/4.md). -/
abbrev Memory := List Host.Cell

/-- The implementation parameters of R9. No step changes them (notes/assumptions/2.md). -/
structure Params where
  /-- RAW_CAP, below 2^64 (R10). -/
  rawCap : Word64
  /-- PIX_CAP, below 2^64 (R10). -/
  pixCap : Word64
  /-- OUT_CAP, below 2^64 (R10). -/
  outCap : Word64
  /-- CODE_TABLE: the (data type, pixel format) code pair of each format index (R109). -/
  codes : Vector (Word32 × Word32) 13
deriving DecidableEq, Repr

/-- A texel in pixel-buffer order: byte 0 blue, 1 green, 2 red, 3 alpha (R17). -/
structure Texel where
  b : Byte
  g : Byte
  r : Byte
  a : Byte
deriving DecidableEq, Repr

/-- The faults of the block (R310). They are recorded in STATUS by a next state (R311, R319); they
are no stop of the model. -/
inductive BlockFault where
  | codecNotFound | unsupportedOperation | illegalCommand | illegalOperand | rawUnderrun | outOverflow
deriving DecidableEq, Repr

/-- One action of the host (R100). A memory access is any number of bytes at any address: R100 gives the
host's accesses no width, and R14 and R79 name 4-byte accesses of PIX (DESIGN CHOICE,
notes/assumptions/21.md). -/
inductive HostAction where
  /-- Hand the block a command word. -/
  | issue (c : Word32)
  /-- `wr N, v` (R32). -/
  | wr (n : BitVec 8) (v : Word64)
  /-- `rd N` (R32). -/
  | rd (n : BitVec 8)
  /-- Write bytes to a memory space from address `a` up. -/
  | memWrite (sp : Space) (a : Nat) (bs : List Byte)
  /-- Read `n` bytes of a memory space from address `a` up. -/
  | memRead (sp : Space) (a n : Nat)
  /-- Reset the block (R340). -/
  | reset
deriving DecidableEq, Repr

/-- What the host last read. -/
inductive Reply where
  | none
  /-- The value of a register, zero-extended to 64 bits (R32). -/
  | word (v : Word64)
  /-- Bytes of a memory space. -/
  | bytes (bs : List Byte)
deriving DecidableEq, Repr

/-- The state of the machine: the registers of R31, the three spaces of R70, the parameters of R9,
and the model's own three fields `pending`, `reply` and `draws`. -/
structure State where
  /-- STATUS, register 0 (R33). -/
  status : Word32
  /-- FMTSEL, register 1 (R36). -/
  fmtsel : Word32
  /-- FAULT_CMD, register 2 (R37). -/
  faultCmd : Word32
  /-- FAULT_INFO, register 3 (R37). -/
  faultInfo : Word64
  /-- WIDTH, register 4 (R38). -/
  width : Word32
  /-- HEIGHT, register 5 (R38). -/
  height : Word32
  /-- DTYPE, register 6 (R39). -/
  dtype : Word32
  /-- PFMT, register 7 (R39). -/
  pfmt : Word32
  /-- RAW_LEN, register 8 (R40). -/
  rawLen : Word64
  /-- CUR, register 9 (R41). -/
  cur : Word64
  /-- OUT_LEN, register 10 (R42). -/
  outLen : Word64
  /-- TILE_X, register 11 (R43). -/
  tileX : Word32
  /-- TILE_Y, register 12 (R43). -/
  tileY : Word32
  /-- RS_VAL, register 13 (R44). -/
  rsVal : Word32
  /-- RS_RES, register 14 (R44). -/
  rsRes : Word32
  /-- TA_PIX, register 15 (R45). -/
  taPix : Word64
  /-- TA_OFF, register 16 (R45). -/
  taOff : Word64
  /-- BD_DESC, register 17 (R46). -/
  bdDesc : Word64
  /-- BD_ALPHA, register 18 (R46). -/
  bdAlpha : Word64
  /-- BD_TEX0 to BD_TEX15, registers 19 to 34 (R47). -/
  bdTex : Vector Word32 16
  /-- The RAW space (R70). -/
  raw : Memory
  /-- The PIX space (R70). -/
  pix : Memory
  /-- The OUT space (R70). -/
  out : Memory
  /-- The implementation parameters (R9). -/
  params : Params
  /-- MODEL'S OWN: the host's actions still to come, oldest first (R48: the host's own position in its
  command sequence is host state). -/
  pending : List HostAction
  /-- MODEL'S OWN: what the host last read. -/
  reply : Reply
  /-- MODEL'S OWN: how many free texels have been drawn. -/
  draws : Nat
deriving DecidableEq, Repr

/-- What a command body comes to before the command ends: done, or a fault raised with its detail in
the state it had reached (R311). -/
inductive Res where
  | ok (s : State)
  | raised (f : BlockFault) (info : Word64) (s : State)
deriving DecidableEq, Repr

/-- Why the machine stops. No instruction raises one; only a host access does. -/
inductive Fault where
  /-- A host memory access reaches an address at or past the capacity of its space, which R70 says does
  not exist. Raised by `memWrite` and `memRead`. SAFE: the model stops where the spec says nothing. -/
  | outsideSpace
deriving DecidableEq, Repr

/-- Why an instruction has no meaning. -/
inductive Refusal where
  /-- The instruction is not modelled. Raised by an arm of `exec` that rejects by name; none is left.
  SAFE: the model stops. -/
  | notModelled (mnemonic : String)
deriving DecidableEq, Repr

/-- The parameters of the machine at hand: opaque, as Config has them. -/
def Params.ofConfig : Params where
  rawCap := Config.rawCap
  pixCap := Config.pixCap
  outCap := Config.outCap
  codes := Vector.ofFn fun i => Config.codePair i.val

/-- The machine right after reset: every register 0 (R340), the memories with nothing listed (R341). -/
def State.reset : State where
  status := 0#32
  fmtsel := 0#32
  faultCmd := 0#32
  faultInfo := 0#64
  width := 0#32
  height := 0#32
  dtype := 0#32
  pfmt := 0#32
  rawLen := 0#64
  cur := 0#64
  outLen := 0#64
  tileX := 0#32
  tileY := 0#32
  rsVal := 0#32
  rsRes := 0#32
  taPix := 0#64
  taOff := 0#64
  bdDesc := 0#64
  bdAlpha := 0#64
  bdTex := Vector.replicate 16 0#32
  raw := []
  pix := []
  out := []
  params := Params.ofConfig
  pending := []
  reply := .none
  draws := 0

end Sys2Proof.Machine
end

