-- ==== Sys2Proof/Machine/Flags.lean ====
section
/-!
DEFINITION. The status registers: the fields of STATUS (R33) and FMTSEL (R36), the fault codes of R310
and the in-bounds flag of R35. STATUS.ERR and STATUS.INB are the block's only flags (R34).
-/

namespace Sys2Proof.Machine

/-- The fault codes of R310. -/
def BlockFault.code : BlockFault → BitVec 4
  | .codecNotFound => 1#4
  | .unsupportedOperation => 2#4
  | .illegalCommand => 3#4
  | .illegalOperand => 4#4
  | .rawUnderrun => 5#4
  | .outOverflow => 6#4

/-- STATUS.ERR, bits 3:0 (R33). -/
def State.err (s : State) : BitVec 4 := s.status.extractLsb 3 0

/-- STATUS.INB, bit 4 (R33). -/
def State.inb (s : State) : Bool := s.status.getLsbD 4

/-- STATUS with ERR replaced and every other bit kept (R311). -/
def statusWithErr (status : Word32) (e : BitVec 4) : Word32 := status.extractLsb 31 4 ++ e

/-- STATUS with INB replaced and every other bit kept (R153). -/
def statusWithInb (status : Word32) (b : Bool) : Word32 :=
  status.extractLsb 31 5 ++ (BitVec.ofBool b ++ status.extractLsb 3 0)

/-- FMTSEL.FMT, bits 3:0 (R36). -/
def State.fmtselFmt (s : State) : BitVec 4 := s.fmtsel.extractLsb 3 0

/-- FMTSEL.VALID, bit 4 (R36). -/
def State.fmtselValid (s : State) : Bool := s.fmtsel.getLsbD 4

/-- The FMTSEL a found format leaves: VALID = 1, FMT its index, the reserved bits 0 (R36, R171). -/
def fmtselOf (f : Fmt) : Word32 := 0#27 ++ (1#1 ++ BitVec.ofNat 4 f.index)

/-- The in-bounds flag: the pixel index lies in a buffer of `width * height` texels (R35). -/
def inBounds (pix width height : Nat) : Bool := decide (pix < width * height)

end Sys2Proof.Machine
end

