-- ==== Sys2Proof/Machine/Ops.lean ====
section
/-!
DEFINITION. The named operations over the memory spaces (20_memory.md, R14, R76), taking a fault and
returning from one (R311, R312, R340), and how a command ends.
-/

namespace Sys2Proof.Machine

/-- The canonical form of a memory: addresses strictly rising. -/
abbrev Memory.wf (m : Memory) : Prop := m.Pairwise fun c d => c.1 < d.1

/-- The byte written at an address, if any has been. -/
def Memory.find : Memory → Nat → Option Byte
  | [], _ => none
  | (k, v) :: m, a => if k = a then some v else Memory.find m a

/-- The byte a space holds at an address. What an unlisted address reads as: the power-up byte of that
address, which is free (R341). -/
def Memory.read (sp : Space) (m : Memory) (a : Nat) : Byte :=
  (Memory.find m a).getD (Config.powerUpByte sp a)

/-- Store one byte, keeping the canonical form. -/
def Memory.write : Memory → Nat → Byte → Memory
  | [], a, v => [(a, v)]
  | (k, w) :: m, a, v =>
    if a < k then (a, v) :: (k, w) :: m
    else if a = k then (a, v) :: m
    else (k, w) :: Memory.write m a v

/-- Store bytes at consecutive addresses, the first at `a`. -/
def Memory.writeBytes (m : Memory) (a : Nat) : List Byte → Memory
  | [] => m
  | v :: vs => Memory.writeBytes (Memory.write m a v) (a + 1) vs

/-- The `n` bytes from address `a` up. -/
def Memory.readBytes (sp : Space) (m : Memory) (a n : Nat) : List Byte :=
  (List.range n).map fun i => Memory.read sp m (a + i)

/-- Bytes as a little-endian integer: the sum of byte i shifted left by 8*i (R76). -/
def littleEndian : List Byte → Nat
  | [] => 0
  | v :: vs => v.toNat + 256 * littleEndian vs

/-- `RawRead(a, n)` (R14, R76). -/
def rawRead (raw : Memory) (a n : Nat) : Nat := littleEndian (Memory.readBytes .raw raw a n)

/-- One byte of RAW. -/
def rawByte (raw : Memory) (a : Nat) : Byte := Memory.read .raw raw a

/-- The four bytes of a texel in pixel-buffer order: B, G, R, A (R17). -/
def Texel.bytes (x : Texel) : List Byte := [x.b, x.g, x.r, x.a]

/-- A texel as a word, `B | G<<8 | R<<16 | A<<24` (R47). -/
def Texel.word (x : Texel) : Word32 := x.a ++ x.r ++ x.g ++ x.b

/-- The texel a 32-bit word packs (R47): a draw of any 32-bit value is a draw of any texel. -/
def Texel.ofWord (w : Word32) : Texel where
  b := w.extractLsb 7 0
  g := w.extractLsb 15 8
  r := w.extractLsb 23 16
  a := w.extractLsb 31 24

/-- `PixWrite(4*p, 4, texel)` (R14, R202). -/
def pixWrite (pix : Memory) (p : Nat) (x : Texel) : Memory := Memory.writeBytes pix (4 * p) x.bytes

/-- `PixRead(4*p, 4)` (R14, R203). -/
def pixRead (pix : Memory) (p : Nat) : Texel where
  b := Memory.read .pix pix (4 * p)
  g := Memory.read .pix pix (4 * p + 1)
  r := Memory.read .pix pix (4 * p + 2)
  a := Memory.read .pix pix (4 * p + 3)

/-- The memory of a space. -/
def State.memory (s : State) : Space → Memory
  | .raw => s.raw
  | .pix => s.pix
  | .out => s.out

/-- The state with one space's memory replaced. -/
def State.withMemory (s : State) (sp : Space) (m : Memory) : State :=
  match sp with
  | .raw => { s with raw := m }
  | .pix => { s with pix := m }
  | .out => { s with out := m }

/-- The capacity in bytes of a space (R70). -/
def Params.cap (p : Params) : Space → Nat
  | .raw => p.rawCap.toNat
  | .pix => p.pixCap.toNat
  | .out => p.outCap.toNat

/-- `raise F(info)` within command `c` (R311): ERR gets the code, FAULT_CMD the command word and
FAULT_INFO the detail. It is the whole of trap entry (R319). -/
def State.raise (s : State) (f : BlockFault) (c : Word32) (info : Word64) : State :=
  { s with status := statusWithErr s.status f.code, faultCmd := c, faultInfo := info }

/-- Reset, the return from a fault (R319): every register of R31 to 0; RAW, PIX and OUT and the
parameters are not touched (R340, R341), nor are the host's own fields. -/
def State.resetRegisters (s : State) : State :=
  { State.reset with
    raw := s.raw, pix := s.pix, out := s.out, params := s.params
    pending := s.pending, reply := s.reply, draws := s.draws }

/-- How command `c` ends: with what its body came to, the fault recorded if it raised one (R311). -/
def Res.finish (c : Word32) : Res → State
  | .ok s => s
  | .raised f info s => s.raise f c info

/-- Run the body of command `i` and end the command. A command always comes to a next state: its
faults are recorded in the state (R319). The word of `i` is `encode i`: it is the word that was issued
(notes/assumptions/17.md). -/
def command (i : Instr) (r : Res) : Host.Outcome State Fault Refusal := .next (r.finish (encode i))

/-- The sticky gate (R312): while ERR is not 0 a command is dropped and changes nothing. -/
def gate (s : State) (run : Host.Outcome State Fault Refusal) : Host.Outcome State Fault Refusal :=
  if s.err = 0#4 then run else .next s

end Sys2Proof.Machine
end

