-- ==== Sys2Proof/Machine/Operands.lean ====
section
/-!
DEFINITION. What a command computes its accesses from: the checks made before any state change (R74,
R175), CODE_TABLE (R109), the tile order and the address formula (41_tile_address.md), the tile sizes
(R79), the tile traversal (R174) and the stores and loads of one tile with clipping (R202, R203).
-/

namespace Sys2Proof.Machine

/-! ## Checks -/

/-- WIDTH[31] and HEIGHT[31] are 0 (R38). -/
def dimsLegal (s : State) : Bool := !(s.width.getLsbD 31 || s.height.getLsbD 31)

/-- TILE_X[31] and TILE_Y[31] are 0 (R43). -/
def originLegal (s : State) : Bool := !(s.tileX.getLsbD 31 || s.tileY.getLsbD 31)

/-- The image fits the PIX space: WIDTH*HEIGHT*4 ≤ PIX_CAP (R74). -/
def pixFits (s : State) : Bool :=
  decide (s.width.toNat * s.height.toNat * 4 ≤ s.params.pixCap.toNat)

/-- The valid bytes fit the RAW space: RAW_LEN ≤ RAW_CAP (R74). -/
def rawFits (s : State) : Bool := decide (s.rawLen.toNat ≤ s.params.rawCap.toNat)

/-- `static_checks(decode)` of DECI and ENCI (R175). All of them raise the same fault. -/
def imageChecks (decoding : Bool) (s : State) : Bool :=
  dimsLegal s && pixFits s && (!decoding || rawFits s)

/-- `static_checks(decode)` of DECT and ENCT, which also read the tile origin (R175). -/
def tileChecks (decoding : Bool) (s : State) : Bool := imageChecks decoding s && originLegal s

/-- `CODE_TABLE(dtype, pfmt)`: the format whose code pair this is (R109). In a legal table at most one
is; in any other the first in format order. -/
def codeTable (p : Params) (dtype pfmt : Word32) : Option Fmt :=
  Fmt.all.find? fun f => decide (p.codes.toList[f.index]? = some (dtype, pfmt))

/-- The tables R109 allows: injective, with the pair the source fixes at RGB888. -/
abbrev Params.legal (p : Params) : Prop :=
  p.codes.toList.Nodup ∧ p.codes.toList[4]? = some (0x1401#32, 0x6754#32)

/-! ## Tile addresses -/

/-- TILE_ORDER (R151): the raster position `row*8 + col` of tile texel t. -/
def tileOrderTable : List Nat :=
  [ 0,  1,  8,  9,  2,  3, 10, 11, 16, 17, 24, 25, 18, 19, 26, 27] ++
  [ 4,  5, 12, 13,  6,  7, 14, 15, 20, 21, 28, 29, 22, 23, 30, 31] ++
  [32, 33, 40, 41, 34, 35, 42, 43, 48, 49, 56, 57, 50, 51, 58, 59] ++
  [36, 37, 44, 45, 38, 39, 46, 47, 52, 53, 60, 61, 54, 55, 62, 63]

/-- `TILE_ORDER[t]`; t is at most 63 wherever the spec reads it. -/
def tileOrder (t : Nat) : Nat := tileOrderTable.getD t 0

/-- The row of texel t in the tile (R152). -/
def tileRow (t : Nat) : Nat := tileOrder t / 8

/-- The column of texel t in the tile (R152). -/
def tileCol (t : Nat) : Nat := tileOrder t % 8

/-- The pixel index of a tile position (R152): `(row + y) * width + (col + x)`, exact. -/
def pixelIndex (width x y row col : Nat) : Nat := (row + y) * width + (col + x)

/-- TILE_BYTES (R79). -/
def tileBytes : Fmt → Nat
  | .rgba4444 => 128 | .rgba5551 => 128 | .rgba8888 => 256 | .rgb565 => 128 | .rgb888 => 192
  | .etc1 => 32 | .etc1a4 => 64 | .a8 => 64 | .a4 => 32 | .l8 => 64 | .l4 => 32
  | .la88 => 128 | .la44 => 64

/-- The number of tiles that cover `n` texels: `ceil(n/8)` (R174). -/
def tilesAcross (n : Nat) : Nat := (n + 7) / 8

/-- `tiles(W, H)`: the tile origins in row-major order, empty for a zero dimension (R174). -/
def tiles (w h : Nat) : List (Nat × Nat) :=
  (List.range (tilesAcross h)).flatMap fun ty =>
    (List.range (tilesAcross w)).map fun tx => (8 * tx, 8 * ty)

/-! ## The texels of one tile -/

/-- The image and the tile a command works on: WIDTH, HEIGHT, TILE_X and TILE_Y as integers. -/
structure Frame where
  w : Nat
  h : Nat
  x : Nat
  y : Nat
deriving DecidableEq, Repr

/-- The frame the registers give. -/
def State.frame (s : State) : Frame where
  w := s.width.toNat
  h := s.height.toNat
  x := s.tileX.toNat
  y := s.tileY.toNat

/-- The pixel index of a tile position in a frame (R152). -/
def Frame.pixel (fr : Frame) (row col : Nat) : Nat := pixelIndex fr.w fr.x fr.y row col

/-- A texel for a position of the tile. -/
structure Placed where
  row : Nat
  col : Nat
  texel : Texel
deriving DecidableEq, Repr

/-- Store with clipping: a texel outside the buffer is dropped (R202, R154). -/
def placeTexel (fr : Frame) (pix : Memory) (q : Placed) : Memory :=
  if inBounds (fr.pixel q.row q.col) fr.w fr.h then pixWrite pix (fr.pixel q.row q.col) q.texel else pix

/-- Store the texels of a tile, in the order of the list (R202, R275). -/
def placeTexels (fr : Frame) (pix : Memory) (qs : List Placed) : Memory := qs.foldl (placeTexel fr) pix

/-- The t-th texel a tile encoder reads: from PIX, or outside the buffer the draw ENC_OOB (R203). -/
def loadTexel (fr : Frame) (pix : Memory) (draws t : Nat) : Texel :=
  let p := fr.pixel (tileRow t) (tileCol t)
  if inBounds p fr.w fr.h then pixRead pix p else Texel.ofWord (Config.freeTexel (draws + t))

/-- What the tile that raised RawUnderrun may have left in its texels: 64 draws (R313). -/
def underrunTexels (draws : Nat) : List Placed :=
  (List.range 64).map fun t =>
    { row := tileRow t, col := tileCol t, texel := Texel.ofWord (Config.freeTexel (draws + t)) }

end Sys2Proof.Machine
end

