-- ==== Sys2Proof/Machine/BlockDecoder.lean ====
section
/-!
DEFINITION. The block decompressor (44_block_decompressor.md): the descriptor's fields, the modifier
table, the texel of a block, and BDEC (R270).
-/

namespace Sys2Proof.Machine

/-- MOD_TABLE (R263): eight rows of four signed offsets. -/
def modTable : List (List Int) :=
  [[2, 8, -2, -8], [5, 17, -5, -17], [9, 29, -9, -29], [13, 42, -13, -42],
   [18, 60, -18, -60], [24, 80, -24, -80], [33, 106, -33, -106], [47, 183, -47, -183]]

/-- `MOD_TABLE[row][col]`; row is at most 7 and col at most 3 wherever the spec reads it. -/
def modifier (row col : Nat) : Int := (modTable.getD row []).getD col 0

/-- `dup4(n) = (n << 4) | n` for a four-bit n (R204, R264). -/
def dup4 (n : Nat) : Nat := (n <<< 4) ||| n

/-- `exp5(v) = (v << 3) | (v >> 2)` on unbounded signed integers, not truncated (R265, R13). -/
def exp5 (v : Int) : Int := Int.lor (v * 8) (v >>> 2)

/-- `clamp8(v)` (R13). -/
def clamp8 (v : Int) : Int := if v < 0 then 0 else if v > 255 then 255 else v

/-- `sext_3(v)` of a three-bit field (R13). -/
def sext3 (v : Nat) : Int := if v ≥ 4 then (v : Int) - 8 else v

/-- A base colour, unclamped. -/
structure Colour where
  r : Int
  g : Int
  b : Int
deriving DecidableEq, Repr

/-- TBL1, bits 39:37 (R260). -/
def tableA (d : Word64) : Nat := bits d 39 37

/-- TBL2, bits 36:34 (R260). -/
def tableB (d : Word64) : Nat := bits d 36 34

/-- DIFF, bit 33 (R260). -/
def diffMode (d : Word64) : Bool := d.getLsbD 33

/-- FLIP, bit 32 (R260). -/
def flipMode (d : Word64) : Bool := d.getLsbD 32

/-- The base colour of sub-block A (R261, R266). -/
def baseA (d : Word64) : Colour :=
  if diffMode d then
    { r := exp5 (bits d 63 59), g := exp5 (bits d 55 51), b := exp5 (bits d 47 43) }
  else { r := dup4 (bits d 63 60), g := dup4 (bits d 55 52), b := dup4 (bits d 47 44) }

/-- The base colour of sub-block B (R261, R266): in differential mode the sum of a five-bit value and
its delta, not clamped before the expansion. -/
def baseB (d : Word64) : Colour :=
  if diffMode d then
    { r := exp5 (bits d 63 59 + sext3 (bits d 58 56))
      g := exp5 (bits d 55 51 + sext3 (bits d 50 48))
      b := exp5 (bits d 47 43 + sext3 (bits d 42 40)) }
  else { r := dup4 (bits d 59 56), g := dup4 (bits d 51 48), b := dup4 (bits d 43 40) }

/-- The texel is in sub-block A: the left half, or with FLIP the top half (R267). -/
def inSubBlockA (d : Word64) (px py : Nat) : Bool := if flipMode d then decide (py < 2) else decide (px < 2)

/-- The modifier column index: `D[j] | D[j+16] << 1` with `j = px*4 + py` (R268). -/
def columnIndex (d : Word64) (px py : Nat) : Nat :=
  (d.getLsbD (px * 4 + py)).toNat ||| ((d.getLsbD (px * 4 + py + 16)).toNat <<< 1)

/-- The alpha of texel (px, py): nibble j of the mask, duplicated, or opaque without one (R271). -/
def blockAlpha (mask : Option Word64) (px py : Nat) : Byte :=
  match mask with
  | some m => BitVec.ofNat 8 (dup4 ((m.toNat >>> ((px * 4 + py) * 4)) &&& 0xF))
  | none => 255#8

/-- A channel of the decoded texel: the base plus the modifier, clamped (R269). -/
def blockChannel (base m : Int) : Byte := BitVec.ofInt 8 (clamp8 (base + m))

/-- The texel (px, py) of a block (R269, R270). -/
def blockTexel (d : Word64) (mask : Option Word64) (px py : Nat) : Texel :=
  let base := if inSubBlockA d px py then baseA d else baseB d
  let m := modifier (if inSubBlockA d px py then tableA d else tableB d) (columnIndex d px py)
  { b := blockChannel base.b m, g := blockChannel base.g m, r := blockChannel base.r m
    a := blockAlpha mask px py }

/-- BD_TEXk for k = py*4 + px (R47, R270). -/
def blockRegisters (d : Word64) (mask : Option Word64) : Vector Word32 16 :=
  Vector.ofFn fun k => (blockTexel d mask (k.val % 4) (k.val / 4)).word

/-- The body of BDEC (R270): it raises nothing. -/
def bdecBody (af : Bool) (s : State) : Res :=
  .ok { s with bdTex := blockRegisters s.bdDesc (if af then some s.bdAlpha else none) }

/-- BDEC: decompress the block in BD_DESC (R270). -/
def execBdec (af : Bool) (s : State) : Host.Outcome State Fault Refusal :=
  command (.bdec af) (bdecBody af s)

end Sys2Proof.Machine
end

