-- ==== Sys2Proof/Machine/Resample.lean ====
section
/-!
DEFINITION. The channel resampler (40_resampler.md): the resample function of R130 and RSMP (R135).
-/

namespace Sys2Proof.Machine

/-- `resample(value, sourceBits, targetBits)` (R130), exact integer arithmetic. It is defined for
1 ≤ sourceBits ≤ 8 and targetBits ≤ 8; `value & sourceMask` is the remainder by 2^sourceBits. -/
def resample (value sourceBits targetBits : Nat) : Nat :=
  let sourceMask := 2 ^ sourceBits - 1
  let targetMask := 2 ^ targetBits - 1
  ((value &&& sourceMask) * targetMask + (sourceMask >>> 1)) / sourceMask

/-- `rs(v, s, t)`, the resampler applied to one channel (R136, R204), as a byte: the result is at most
255 (R131). -/
def rs (value sourceBits targetBits : Nat) : Byte := BitVec.ofNat 8 (resample value sourceBits targetBits)

/-- The bit counts RSMP admits (R105, R135). -/
def rsmpLegal (sbits tbits : Nat) : Bool := decide (1 ≤ sbits) && decide (sbits ≤ 8) && decide (tbits ≤ 8)

/-- The body of RSMP (R135). -/
def rsmpBody (sbits tbits : Nat) (s : State) : Res :=
  if rsmpLegal sbits tbits then
    .ok { s with rsRes := BitVec.ofNat 32 (resample s.rsVal.toNat sbits tbits) }
  else .raised .illegalOperand 0#64 s

/-- RSMP: resample the value in RS_VAL (R135). -/
def execRsmp (sbits tbits : Nat) (s : State) : Host.Outcome State Fault Refusal :=
  command (.rsmp sbits tbits) (rsmpBody sbits tbits s)

end Sys2Proof.Machine
end

