-- ==== Sys2Proof/Machine/Codecs.lean ====
section
/-!
DEFINITION. The per-format codecs (43_format_codecs.md, R275): the texel of a raw unit, the bytes of a
texel, the registry that binds them to the formats (R170), and the decode and the encode of one tile
(R176, R177).
-/

namespace Sys2Proof.Machine

/-! ## Texel units of the raw stream -/

/-- `word16(c, t) = RawRead(c + 2t, 2)` (R204). -/
def word16 (raw : Memory) (c t : Nat) : BitVec 16 := BitVec.ofNat 16 (rawRead raw (c + 2 * t) 2)

/-- `bytes(c, t, n, i) = RAW[c + t*n + i]` (R204). -/
def unitByte (raw : Memory) (c t n i : Nat) : Byte := rawByte raw (c + t * n + i)

/-- `nib(c, t)`: even t the low nibble, odd t the high one (R204). -/
def nib (raw : Memory) (c t : Nat) : Nat := ((rawByte raw (c + t / 2)).toNat >>> (4 * (t % 2))) &&& 0xF

/-- A nibble duplicated into a byte (R204). -/
def dupByte (n : Nat) : Byte := BitVec.ofNat 8 (dup4 n)

/-- `avg(R, G, B) = (R + G + B) / 3`, rounded toward zero (R204). -/
def avg (r g b : Byte) : Nat := (r.toNat + g.toNat + b.toNat) / 3

/-! ## Decode: a unit to a texel -/

/-- R210. -/
def decRgba4444 (w : BitVec 16) : Texel where
  b := rs (bits w 7 4) 4 8
  g := rs (bits w 11 8) 4 8
  r := rs (bits w 15 12) 4 8
  a := rs (bits w 3 0) 4 8

/-- R215. -/
def decRgba5551 (w : BitVec 16) : Texel where
  b := rs (bits w 5 1) 5 8
  g := rs (bits w 10 6) 5 8
  r := rs (bits w 15 11) 5 8
  a := rs (bits w 0 0) 1 8

/-- R220: the stream order is A, B, G, R. -/
def decRgba8888 (b0 b1 b2 b3 : Byte) : Texel where
  b := b1
  g := b2
  r := b3
  a := b0

/-- R225: alpha forced opaque. -/
def decRgb565 (w : BitVec 16) : Texel where
  b := rs (bits w 4 0) 5 8
  g := rs (bits w 10 5) 6 8
  r := rs (bits w 15 11) 5 8
  a := 255#8

/-- R230: the stream order is B, G, R; alpha forced opaque. -/
def decRgb888 (b0 b1 b2 : Byte) : Texel where
  b := b0
  g := b1
  r := b2
  a := 255#8

/-- R235: RGB forced white. -/
def decA8 (v : Byte) : Texel where
  b := 255#8
  g := 255#8
  r := 255#8
  a := v

/-- R238: RGB forced white. -/
def decA4 (n : Nat) : Texel where
  b := 255#8
  g := 255#8
  r := 255#8
  a := dupByte n

/-- R240: alpha forced opaque. -/
def decL8 (v : Byte) : Texel where
  b := v
  g := v
  r := v
  a := 255#8

/-- R243: alpha forced opaque. -/
def decL4 (n : Nat) : Texel where
  b := dupByte n
  g := dupByte n
  r := dupByte n
  a := 255#8

/-- R245: alpha, then luminance. -/
def decLa88 (b0 b1 : Byte) : Texel where
  b := b1
  g := b1
  r := b1
  a := b0

/-- R250: the low nibble is alpha, the high nibble luminance. -/
def decLa44 (v : Byte) : Texel where
  b := dupByte (v.toNat >>> 4)
  g := dupByte (v.toNat >>> 4)
  r := dupByte (v.toNat >>> 4)
  a := dupByte (v.toNat &&& 0xF)

/-! ## Encode: a texel to the bytes of its unit -/

/-- The two bytes of a 16-bit word, low byte first (R211). -/
def wordBytes (w : Nat) : List Byte := [BitVec.ofNat 8 w, BitVec.ofNat 8 (w >>> 8)]

/-- R211. -/
def encRgba4444 (x : Texel) : List Byte :=
  wordBytes (resample x.r.toNat 8 4 <<< 12 ||| resample x.g.toNat 8 4 <<< 8 |||
    resample x.b.toNat 8 4 <<< 4 ||| resample x.a.toNat 8 4)

/-- R216. -/
def encRgba5551 (x : Texel) : List Byte :=
  wordBytes (resample x.r.toNat 8 5 <<< 11 ||| resample x.g.toNat 8 5 <<< 6 |||
    resample x.b.toNat 8 5 <<< 1 ||| resample x.a.toNat 8 1)

/-- R221. -/
def encRgba8888 (x : Texel) : List Byte := [x.a, x.b, x.g, x.r]

/-- R226: alpha is not encoded. -/
def encRgb565 (x : Texel) : List Byte :=
  wordBytes (resample x.r.toNat 8 5 <<< 11 ||| resample x.g.toNat 8 6 <<< 5 ||| resample x.b.toNat 8 5)

/-- R231: alpha is not encoded. -/
def encRgb888 (x : Texel) : List Byte := [x.b, x.g, x.r]

/-- R236: R, G and B are not encoded. -/
def encA8 (x : Texel) : List Byte := [x.a]

/-- R241: alpha is not encoded. -/
def encL8 (x : Texel) : List Byte := [BitVec.ofNat 8 (avg x.r x.g x.b)]

/-- R246. -/
def encLa88 (x : Texel) : List Byte := [x.a, BitVec.ofNat 8 (avg x.r x.g x.b)]

/-- R251. -/
def encLa44 (x : Texel) : List Byte :=
  [BitVec.ofNat 8 (resample (avg x.r x.g x.b) 8 4 <<< 4 ||| resample x.a.toNat 8 4)]

/-! ## The registry (R170) -/

/-- The t-th texel of a tile of an uncompressed format (R201). -/
def placeAt (t : Nat) (x : Texel) : Placed := { row := tileRow t, col := tileCol t, texel := x }

/-- The 64 texels of an uncompressed tile, in increasing t (R201, R202). -/
def tileInOrder (texel : Nat → Texel) : List Placed := (List.range 64).map fun t => placeAt t (texel t)

/-- The texels of a tile of four blocks, in (b, px, py) order: the block's descriptor and mask by block
number (R275). -/
def tileOfBlocks (desc : Nat → Word64) (mask : Nat → Option Word64) : List Placed :=
  (List.range 4).flatMap fun b => (List.range 4).flatMap fun px => (List.range 4).map fun py =>
    { row := 4 * (b >>> 1) + py, col := 4 * (b &&& 1) + px, texel := blockTexel (desc b) (mask b) px py }

/-- A 64-bit block word, little-endian (R77, R275). -/
def word64 (raw : Memory) (a : Nat) : Word64 := BitVec.ofNat 64 (rawRead raw a 8)

/-- DECODE[f] (R170): the texels of the tile at raw base c, in the order they are stored. -/
def decodeTexels (raw : Memory) (c : Nat) : Fmt → List Placed
  | .rgba4444 => tileInOrder fun t => decRgba4444 (word16 raw c t)
  | .rgba5551 => tileInOrder fun t => decRgba5551 (word16 raw c t)
  | .rgba8888 => tileInOrder fun t =>
      decRgba8888 (unitByte raw c t 4 0) (unitByte raw c t 4 1) (unitByte raw c t 4 2) (unitByte raw c t 4 3)
  | .rgb565 => tileInOrder fun t => decRgb565 (word16 raw c t)
  | .rgb888 => tileInOrder fun t =>
      decRgb888 (unitByte raw c t 3 0) (unitByte raw c t 3 1) (unitByte raw c t 3 2)
  | .etc1 => tileOfBlocks (fun b => word64 raw (c + 8 * b)) fun _ => none
  | .etc1a4 =>
      tileOfBlocks (fun b => word64 raw (c + 16 * b + 8)) fun b => some (word64 raw (c + 16 * b))
  | .a8 => tileInOrder fun t => decA8 (unitByte raw c t 1 0)
  | .a4 => tileInOrder fun t => decA4 (nib raw c t)
  | .l8 => tileInOrder fun t => decL8 (unitByte raw c t 1 0)
  | .l4 => tileInOrder fun t => decL4 (nib raw c t)
  | .la88 => tileInOrder fun t => decLa88 (unitByte raw c t 2 0) (unitByte raw c t 2 1)
  | .la44 => tileInOrder fun t => decLa44 (unitByte raw c t 1 0)

/-- ENCODE[f], or none: four formats have no encode routine, a legitimate state (R170, R178). -/
def encodeRoutine : Fmt → Option (Texel → List Byte)
  | .rgba4444 => some encRgba4444
  | .rgba5551 => some encRgba5551
  | .rgba8888 => some encRgba8888
  | .rgb565 => some encRgb565
  | .rgb888 => some encRgb888
  | .etc1 => none
  | .etc1a4 => none
  | .a8 => some encA8
  | .a4 => none
  | .l8 => some encL8
  | .l4 => none
  | .la88 => some encLa88
  | .la44 => some encLa44

/-! ## One tile -/

/-- `decode_tile(f)` (R176). A short stream raises RawUnderrun before it reads, CUR unchanged, the
tile's texels a draw (R313). -/
def decodeTile (f : Fmt) (s : State) : Res :=
  if s.cur.toNat + tileBytes f > s.rawLen.toNat then
    .raised .rawUnderrun s.cur
      { s with pix := placeTexels s.frame s.pix (underrunTexels s.draws), draws := s.draws + 64 }
  else
    .ok { s with
      pix := placeTexels s.frame s.pix (decodeTexels s.raw s.cur.toNat f)
      cur := BitVec.ofNat 64 (s.cur.toNat + tileBytes f) }

/-- The bytes of an encoded tile: the units of the 64 texels in increasing t (R203). -/
def encodedBytes (enc : Texel → List Byte) (s : State) : List Byte :=
  (List.range 64).flatMap fun t => enc (loadTexel s.frame s.pix s.draws t)

/-- `encode_tile(f)` with the format's routine (R177). A tile that does not fit raises OutOverflow and
writes nothing. The counter of draws passes the tile's 64 texels. -/
def encodeTile (f : Fmt) (enc : Texel → List Byte) (s : State) : Res :=
  if s.outLen.toNat + tileBytes f > s.params.outCap.toNat then .raised .outOverflow s.outLen s
  else
    .ok { s with
      out := Memory.writeBytes s.out s.outLen.toNat (encodedBytes enc s)
      outLen := BitVec.ofNat 64 (s.outLen.toNat + tileBytes f)
      draws := s.draws + 64 }

/-- The body of DECT (R176). -/
def dectBody (f : Fmt) (s : State) : Res :=
  if tileChecks true s then decodeTile f s else .raised .illegalOperand 0#64 s

/-- The body of ENCT (R177). -/
def enctBody (f : Fmt) (s : State) : Res :=
  if tileChecks false s then
    match encodeRoutine f with
    | some enc => encodeTile f enc s
    | none => .raised .unsupportedOperation 0#64 s
  else .raised .illegalOperand 0#64 s

/-- DECT or ENCT with FMT 13 to 15: the static checks, then CodecNotFound (R176, R177, R314). The word
is no instruction of the table (R113). -/
def noCodecBody (decoding : Bool) (s : State) : Res :=
  if tileChecks decoding s then .raised .codecNotFound 0#64 s else .raised .illegalOperand 0#64 s

end Sys2Proof.Machine
end

