-- ==== Sys2Proof/Machine/DecodeTile.lean ====
section
/-!
DEFINITION. DECT, one instruction per format (R176): decode one tile at (TILE_X, TILE_Y) from RAW at CUR.
-/

namespace Sys2Proof.Machine

/-- DECT.RGBA4444 (R210). -/
def execDectRgba4444 (s : State) : Host.Outcome State Fault Refusal := command .dectRgba4444 (dectBody .rgba4444 s)

/-- DECT.RGBA5551 (R215). -/
def execDectRgba5551 (s : State) : Host.Outcome State Fault Refusal := command .dectRgba5551 (dectBody .rgba5551 s)

/-- DECT.RGBA8888 (R220). -/
def execDectRgba8888 (s : State) : Host.Outcome State Fault Refusal := command .dectRgba8888 (dectBody .rgba8888 s)

/-- DECT.RGB565 (R225). -/
def execDectRgb565 (s : State) : Host.Outcome State Fault Refusal := command .dectRgb565 (dectBody .rgb565 s)

/-- DECT.RGB888 (R230). -/
def execDectRgb888 (s : State) : Host.Outcome State Fault Refusal := command .dectRgb888 (dectBody .rgb888 s)

/-- DECT.ETC1 (R275). -/
def execDectEtc1 (s : State) : Host.Outcome State Fault Refusal := command .dectEtc1 (dectBody .etc1 s)

/-- DECT.ETC1A4 (R275). -/
def execDectEtc1a4 (s : State) : Host.Outcome State Fault Refusal := command .dectEtc1a4 (dectBody .etc1a4 s)

/-- DECT.A8 (R235). -/
def execDectA8 (s : State) : Host.Outcome State Fault Refusal := command .dectA8 (dectBody .a8 s)

/-- DECT.A4 (R238). -/
def execDectA4 (s : State) : Host.Outcome State Fault Refusal := command .dectA4 (dectBody .a4 s)

/-- DECT.L8 (R240). -/
def execDectL8 (s : State) : Host.Outcome State Fault Refusal := command .dectL8 (dectBody .l8 s)

/-- DECT.L4 (R243). -/
def execDectL4 (s : State) : Host.Outcome State Fault Refusal := command .dectL4 (dectBody .l4 s)

/-- DECT.LA88 (R245). -/
def execDectLa88 (s : State) : Host.Outcome State Fault Refusal := command .dectLa88 (dectBody .la88 s)

/-- DECT.LA44 (R250). -/
def execDectLa44 (s : State) : Host.Outcome State Fault Refusal := command .dectLa44 (dectBody .la44 s)

end Sys2Proof.Machine
end

