-- ==== Sys2Proof/Machine/EncodeTile.lean ====
section
/-!
DEFINITION. ENCT, one instruction per format (R177): encode one tile at (TILE_X, TILE_Y) and append it
to OUT. Four formats have no encode routine and raise UnsupportedOperation.
-/

namespace Sys2Proof.Machine

/-- ENCT.RGBA4444 (R211). -/
def execEnctRgba4444 (s : State) : Host.Outcome State Fault Refusal := command .enctRgba4444 (enctBody .rgba4444 s)

/-- ENCT.RGBA5551 (R216). -/
def execEnctRgba5551 (s : State) : Host.Outcome State Fault Refusal := command .enctRgba5551 (enctBody .rgba5551 s)

/-- ENCT.RGBA8888 (R221). -/
def execEnctRgba8888 (s : State) : Host.Outcome State Fault Refusal := command .enctRgba8888 (enctBody .rgba8888 s)

/-- ENCT.RGB565 (R226). -/
def execEnctRgb565 (s : State) : Host.Outcome State Fault Refusal := command .enctRgb565 (enctBody .rgb565 s)

/-- ENCT.RGB888 (R231). -/
def execEnctRgb888 (s : State) : Host.Outcome State Fault Refusal := command .enctRgb888 (enctBody .rgb888 s)

/-- ENCT.ETC1 (R277). It has no encode routine. -/
def execEnctEtc1 (s : State) : Host.Outcome State Fault Refusal := command .enctEtc1 (enctBody .etc1 s)

/-- ENCT.ETC1A4 (R277). It has no encode routine. -/
def execEnctEtc1a4 (s : State) : Host.Outcome State Fault Refusal := command .enctEtc1a4 (enctBody .etc1a4 s)

/-- ENCT.A8 (R236). -/
def execEnctA8 (s : State) : Host.Outcome State Fault Refusal := command .enctA8 (enctBody .a8 s)

/-- ENCT.A4 (R239). It has no encode routine. -/
def execEnctA4 (s : State) : Host.Outcome State Fault Refusal := command .enctA4 (enctBody .a4 s)

/-- ENCT.L8 (R241). -/
def execEnctL8 (s : State) : Host.Outcome State Fault Refusal := command .enctL8 (enctBody .l8 s)

/-- ENCT.L4 (R244). It has no encode routine. -/
def execEnctL4 (s : State) : Host.Outcome State Fault Refusal := command .enctL4 (enctBody .l4 s)

/-- ENCT.LA88 (R246). -/
def execEnctLa88 (s : State) : Host.Outcome State Fault Refusal := command .enctLa88 (enctBody .la88 s)

/-- ENCT.LA44 (R251). -/
def execEnctLa44 (s : State) : Host.Outcome State Fault Refusal := command .enctLa44 (enctBody .la44 s)

end Sys2Proof.Machine
end

