-- ==== Sys2Proof/Machine/TileAddr.lean ====
section
/-!
DEFINITION. The tile-address generator: TADDR (R153).
-/

namespace Sys2Proof.Machine

/-- The pixel index TADDR computes (R153). -/
def taddrPixel (t : Nat) (s : State) : Nat := s.frame.pixel (tileRow t) (tileCol t)

/-- The conditions under which TADDR does not raise IllegalOperand (R153). -/
def taddrLegal (t bpt : Nat) (s : State) : Bool :=
  dimsLegal s && originLegal s && pixFits s && decide (bpt ≠ 0) && decide (taddrPixel t s * bpt < 2 ^ 64)

/-- The body of TADDR (R153). -/
def taddrBody (t bpt : Nat) (s : State) : Res :=
  if taddrLegal t bpt s then
    .ok { s with
      taPix := BitVec.ofNat 64 (taddrPixel t s)
      taOff := BitVec.ofNat 64 (taddrPixel t s * bpt)
      status := statusWithInb s.status (inBounds (taddrPixel t s) s.width.toNat s.height.toNat) }
  else .raised .illegalOperand 0#64 s

/-- TADDR: compute the address of texel t of the current tile (R153). -/
def execTaddr (t bpt : Nat) (s : State) : Host.Outcome State Fault Refusal :=
  command (.taddr t bpt) (taddrBody t bpt s)

end Sys2Proof.Machine
end

