-- ==== Sys2Proof/Machine/Registry.lean ====
section
/-!
DEFINITION. The registry commands (42_registry_sequencer.md): LOOKUP (R171), and DECI and ENCI, which
walk the tiles of the image (R172, R173, R174).
-/

namespace Sys2Proof.Machine

/-- Resolve (DTYPE, PFMT) and go on with the format: FMTSEL gets the format, or 0 before
CodecNotFound (R171, R36). -/
def resolve (s : State) (go : Fmt → State → Res) : Res :=
  match codeTable s.params s.dtype s.pfmt with
  | some f => go f { s with fmtsel := fmtselOf f }
  | none => .raised .codecNotFound 0#64 { s with fmtsel := 0#32 }

/-- The body of LOOKUP (R171). -/
def lookupBody (s : State) : Res := resolve s fun _ s => .ok s

/-- LOOKUP: resolve the descriptor (DTYPE, PFMT) (R171). -/
def execLookup (s : State) : Host.Outcome State Fault Refusal := command .lookup (lookupBody s)

/-- Take the tiles one after the other: TILE_X and TILE_Y get each origin, and the first tile that
raises ends the walk (R174, R313). -/
def walkTiles (tile : State → Res) : List (Nat × Nat) → State → Res
  | [], s => .ok s
  | (x, y) :: rest, s =>
    match tile { s with tileX := BitVec.ofNat 32 x, tileY := BitVec.ofNat 32 y } with
    | .ok s' => walkTiles tile rest s'
    | .raised f info s' => .raised f info s'

/-- The tile origins of the image the registers describe (R174). -/
def imageTiles (s : State) : List (Nat × Nat) := tiles s.width.toNat s.height.toNat

/-- The body of DECI (R172). Every format has a decode routine, so its UnsupportedOperation arm is
left out, as R179 allows. -/
def deciBody (s : State) : Res :=
  if imageChecks true s then
    resolve s fun f s => walkTiles (decodeTile f) (imageTiles s) { s with cur := 0#64 }
  else .raised .illegalOperand 0#64 s

/-- DECI: decode a whole image (R172). -/
def execDeci (s : State) : Host.Outcome State Fault Refusal := command .deci (deciBody s)

/-- The body of ENCI (R173). FMTSEL is written before UnsupportedOperation, as R173's pseudocode, R311 and R36
state; the general sentence of R313 reads otherwise (DEDUCED, notes/assumptions/18.md). -/
def enciBody (s : State) : Res :=
  if imageChecks false s then
    resolve s fun f s =>
      match encodeRoutine f with
      | some enc => walkTiles (encodeTile f enc) (imageTiles s) { s with outLen := 0#64 }
      | none => .raised .unsupportedOperation 0#64 s
  else .raised .illegalOperand 0#64 s

/-- ENCI: encode a whole image (R173). -/
def execEnci (s : State) : Host.Outcome State Fault Refusal := command .enci (enciBody s)

end Sys2Proof.Machine
end

