-- ==== Sys2Proof/Machine/Dispatch.lean ====
section
/-!
DEFINITION. The dispatch of an instruction to its meaning.
-/

namespace Sys2Proof.Machine

def exec (i : Instr) (s : State) : Host.Outcome State Fault Refusal :=
  match i with
  | .lookup => Sys2Proof.Machine.execLookup s
  | .rsmp sbits tbits => Sys2Proof.Machine.execRsmp sbits tbits s
  | .taddr t bpt => Sys2Proof.Machine.execTaddr t bpt s
  | .bdec af => Sys2Proof.Machine.execBdec af s
  | .dectRgba4444 => Sys2Proof.Machine.execDectRgba4444 s
  | .dectRgba5551 => Sys2Proof.Machine.execDectRgba5551 s
  | .dectRgba8888 => Sys2Proof.Machine.execDectRgba8888 s
  | .dectRgb565 => Sys2Proof.Machine.execDectRgb565 s
  | .dectRgb888 => Sys2Proof.Machine.execDectRgb888 s
  | .dectEtc1 => Sys2Proof.Machine.execDectEtc1 s
  | .dectEtc1a4 => Sys2Proof.Machine.execDectEtc1a4 s
  | .dectA8 => Sys2Proof.Machine.execDectA8 s
  | .dectA4 => Sys2Proof.Machine.execDectA4 s
  | .dectL8 => Sys2Proof.Machine.execDectL8 s
  | .dectL4 => Sys2Proof.Machine.execDectL4 s
  | .dectLa88 => Sys2Proof.Machine.execDectLa88 s
  | .dectLa44 => Sys2Proof.Machine.execDectLa44 s
  | .enctRgba4444 => Sys2Proof.Machine.execEnctRgba4444 s
  | .enctRgba5551 => Sys2Proof.Machine.execEnctRgba5551 s
  | .enctRgba8888 => Sys2Proof.Machine.execEnctRgba8888 s
  | .enctRgb565 => Sys2Proof.Machine.execEnctRgb565 s
  | .enctRgb888 => Sys2Proof.Machine.execEnctRgb888 s
  | .enctEtc1 => Sys2Proof.Machine.execEnctEtc1 s
  | .enctEtc1a4 => Sys2Proof.Machine.execEnctEtc1a4 s
  | .enctA8 => Sys2Proof.Machine.execEnctA8 s
  | .enctA4 => Sys2Proof.Machine.execEnctA4 s
  | .enctL8 => Sys2Proof.Machine.execEnctL8 s
  | .enctL4 => Sys2Proof.Machine.execEnctL4 s
  | .enctLa88 => Sys2Proof.Machine.execEnctLa88 s
  | .enctLa44 => Sys2Proof.Machine.execEnctLa44 s
  | .deci => Sys2Proof.Machine.execDeci s
  | .enci => Sys2Proof.Machine.execEnci s

end Sys2Proof.Machine
end

