-- ==== Sys2Proof/Machine/HostPort.lean ====
section
/-!
DEFINITION. The host's five actions on the block (R100): issuing a command word (R107, R312), register
access (R32), memory access (R70, R83) and reset (R340).
-/

namespace Sys2Proof.Machine

/-! ## Registers -/

/-- `rd N`: the current value of register N, zero-extended to 64 bits; a reserved index reads 0 (R31, R32). -/
def readRegister (s : State) (n : Nat) : Word64 :=
  match n with
  | 0 => s.status.setWidth 64
  | 1 => s.fmtsel.setWidth 64
  | 2 => s.faultCmd.setWidth 64
  | 3 => s.faultInfo
  | 4 => s.width.setWidth 64
  | 5 => s.height.setWidth 64
  | 6 => s.dtype.setWidth 64
  | 7 => s.pfmt.setWidth 64
  | 8 => s.rawLen
  | 9 => s.cur
  | 10 => s.outLen
  | 11 => s.tileX.setWidth 64
  | 12 => s.tileY.setWidth 64
  | 13 => s.rsVal.setWidth 64
  | 14 => s.rsRes.setWidth 64
  | 15 => s.taPix
  | 16 => s.taOff
  | 17 => s.bdDesc
  | 18 => s.bdAlpha
  | k => ((s.bdTex.toList[k - 19]?).getD 0#32).setWidth 64

/-- `wr N, v`: a read/write register gets the low bits of v; a read-only or reserved one is not written
and no fault is raised (R31, R32). -/
def writeRegister (s : State) (n : Nat) (v : Word64) : State :=
  match n with
  | 4 => { s with width := v.setWidth 32 }
  | 5 => { s with height := v.setWidth 32 }
  | 6 => { s with dtype := v.setWidth 32 }
  | 7 => { s with pfmt := v.setWidth 32 }
  | 8 => { s with rawLen := v }
  | 9 => { s with cur := v }
  | 10 => { s with outLen := v }
  | 11 => { s with tileX := v.setWidth 32 }
  | 12 => { s with tileY := v.setWidth 32 }
  | 13 => { s with rsVal := v.setWidth 32 }
  | 17 => { s with bdDesc := v }
  | 18 => { s with bdAlpha := v }
  | _ => s

/-! ## Memories -/

/-- Every byte of an access of `n` bytes from address `a` up lies in the space: an address at or past
its capacity does not exist (R70). -/
def accessFits (p : Params) (sp : Space) (a n : Nat) : Bool := decide (n = 0 ∨ a + n ≤ p.cap sp)

/-- The host writes bytes to a space (R70, R100). -/
def hostWrite (s : State) (sp : Space) (a : Nat) (bs : List Byte) : Host.Outcome State Fault Refusal :=
  if accessFits s.params sp a bs.length then
    .next (s.withMemory sp (Memory.writeBytes (s.memory sp) a bs))
  else .fault .outsideSpace

/-- The host reads bytes of a space (R70, R100). A read has no side effect on it (R80). -/
def hostRead (s : State) (sp : Space) (a n : Nat) : Host.Outcome State Fault Refusal :=
  if accessFits s.params sp a n then
    .next { s with reply := .bytes (Memory.readBytes sp (s.memory sp) a n) }
  else .fault .outsideSpace

/-! ## Commands -/

/-- Run the command word c with no fault pending: dispatch an instruction, or raise what the decode
procedure raises (R107, R176, R177). -/
def runWord (c : Word32) (s : State) : Host.Outcome State Fault Refusal :=
  match decode c with
  | .ok i => exec i s
  | .error .reservedOp => .next (s.raise .illegalCommand c 0#64)
  | .error .reservedField => .next (s.raise .illegalCommand c 0#64)
  | .error .dectNoCodec => .next ((noCodecBody true s).finish c)
  | .error .enctNoCodec => .next ((noCodecBody false s).finish c)

/-- `issue(c)` (R100, R312). -/
def issueCommand (c : Word32) (s : State) : Host.Outcome State Fault Refusal := gate s (runWord c s)

/-- One action of the host, taken whole (R100, R350). Only commands are gated (R312). -/
def perform (act : HostAction) (s : State) : Host.Outcome State Fault Refusal :=
  match act with
  | .issue c => issueCommand c s
  | .wr n v => .next (writeRegister s n.toNat v)
  | .rd n => .next { s with reply := .word (readRegister s n.toNat) }
  | .memWrite sp a bs => hostWrite s sp a bs
  | .memRead sp a n => hostRead s sp a n
  | .reset => .next s.resetRegisters

/-- The block has no action to take: it waits, its registers unchanged (R326, R342). -/
def wait (s : State) : Host.Outcome State Fault Refusal := .next s

/-- The next action taken off the list of those to come. -/
def takeAction (s : State) : Host.Outcome State Fault Refusal :=
  match s.pending with
  | [] => wait s
  | act :: rest => perform act { s with pending := rest }

/-- The state with a command issued before anything else the host has to do. -/
def issueNext (s : State) (c : Word32) : State := { s with pending := .issue c :: s.pending }

end Sys2Proof.Machine
end

