-- ==== Sys2Proof/Machine/HostSoftware.lean ====
section
/-!
DEFINITION. The host software the spec describes around the block: the pseudo-instructions of R112, the
assembler spelling of R111, and the STEX container (45_host_container.md). No rule of the block depends
on it (R6); it is written as plain functions, and no step calls it.
-/

namespace Sys2Proof.Machine

/-! ## Pseudo-instructions (R112) -/

/-- The host writes a register by its number (R31). -/
def setRegister (n : Nat) (v : Word64) : HostAction := .wr (BitVec.ofNat 8 n) v

/-- The host issues an instruction (R100). -/
def issueInstr (i : Instr) : HostAction := .issue (encode i)

/-- `decode_image W, H, DT, PF, N` (R112). -/
def decodeImage (w h dt pf n : Word64) : List HostAction :=
  [setRegister 4 w, setRegister 5 h, setRegister 6 dt, setRegister 7 pf, setRegister 8 n, issueInstr .deci]

/-- `encode_image W, H, DT, PF` (R112). -/
def encodeImage (w h dt pf : Word64) : List HostAction :=
  [setRegister 4 w, setRegister 5 h, setRegister 6 dt, setRegister 7 pf, issueInstr .enci]

/-- `tile X, Y` (R112). -/
def setTile (x y : Word64) : List HostAction := [setRegister 11 x, setRegister 12 y]

/-- `resample V, S, T` (R112). -/
def resampleValue (v : Word64) (sbits tbits : Nat) : List HostAction :=
  [setRegister 13 v, issueInstr (.rsmp sbits tbits)]

/-- `decompress D` (R112). -/
def decompress (d : Word64) : List HostAction := [setRegister 17 d, issueInstr (.bdec false)]

/-- `decompress.a D, M` (R112). -/
def decompressAlpha (d m : Word64) : List HostAction :=
  [setRegister 17 d, setRegister 18 m, issueInstr (.bdec true)]

/-- Recovery from UnsupportedOperation: reset, write the registers again and encode with a descriptor of
the host's choosing, which the spec leaves to the host (R297, R312). -/
def substituteAndEncode (w h dt pf : Word64) : List HostAction := .reset :: encodeImage w h dt pf

/-! ## Assembler spelling (R111) -/

/-- The lower-case short name of a format (R18, R111). -/
def formatName : Fmt → String
  | .rgba4444 => "rgba4444" | .rgba5551 => "rgba5551" | .rgba8888 => "rgba8888" | .rgb565 => "rgb565"
  | .rgb888 => "rgb888" | .etc1 => "etc1" | .etc1a4 => "etc1a4" | .a8 => "a8" | .a4 => "a4"
  | .l8 => "l8" | .l4 => "l4" | .la88 => "la88" | .la44 => "la44"

/-- The spelling of a command word (R111); a reserved encoding has none. -/
def assemblerText (c : Word32) : Option String :=
  match decode c with
  | .ok .lookup => some "lookup"
  | .ok (.rsmp sbits tbits) => some ("rsmp " ++ toString sbits ++ ", " ++ toString tbits)
  | .ok (.taddr t bpt) => some ("taddr " ++ toString t ++ ", " ++ toString bpt)
  | .ok (.bdec af) => some (if af then "bdec.a" else "bdec")
  | .ok .deci => some "deci"
  | .ok .enci => some "enci"
  | .ok _ =>
    (Fmt.ofIndex (bits c 7 4)).map fun f =>
      (if bits c 3 0 = 4 then "dect." else "enct.") ++ formatName f
  | .error .dectNoCodec => some ("dect #" ++ toString (bits c 7 4))
  | .error .enctNoCodec => some ("enct #" ++ toString (bits c 7 4))
  | .error .reservedOp => none
  | .error .reservedField => none

/-! ## The STEX container -/

/-- What the host's container reader raises: no fault of the block, it has no code in STATUS (R317). -/
inductive HostError where
  /-- The first four bytes are not "STEX" (R292). -/
  | magicMismatch
  /-- The file ends before its header fields do: the spec says nothing of such a file
  (notes/assumptions/16.md). -/
  | truncatedHeader
deriving DecidableEq, Repr

/-- "STEX" (R291). -/
def stexMagic : List Byte := [0x53#8, 0x54#8, 0x45#8, 0x58#8]

/-- The little-endian 32-bit field of a file at an offset (R291), as a register value. -/
def stexField (file : List Byte) (offset : Nat) : Word64 :=
  BitVec.ofNat 64 (littleEndian ((file.drop offset).take 4))

/-- The offset of the raw texel data: `fileLength mod 0x100` (R293). -/
def stexDataStart (file : List Byte) : Nat := file.length % 0x100

/-- The raw texel data, continuing to the end of the file (R293). -/
def stexData (file : List Byte) : List Byte := file.drop (stexDataStart file)

/-- Reading a container: load the data into RAW and issue decode_image with the header's fields (R290 to
R294). The bytes at 0x04..0x0B and 0x1C..0x7F are not read (R291). -/
def stexRead (file : List Byte) : Except HostError (List HostAction) :=
  if file.take 4 ≠ stexMagic then .error .magicMismatch
  else if file.length < 0x1C then .error .truncatedHeader
  else .ok (.memWrite .raw 0 (stexData file) ::
    decodeImage (stexField file 0x0C) (stexField file 0x10) (stexField file 0x14) (stexField file 0x18)
      (BitVec.ofNat 64 (stexData file).length))

/-- A 32-bit word, little-endian (R295). Every field of the header fits: the length goes through
`stexLengthField` first. -/
def stexWord (n : Nat) : List Byte := (List.range 4).map fun i => BitVec.ofNat 8 (n >>> (8 * i))

/-- The value of the field at 0x1C for data of `n` bytes (R295). The spec does not say what the writer puts
there when `n` does not fit its 4 bytes, which OUT_LEN of 64 bits allows: DESIGN CHOICE, a free value
(notes/assumptions/20.md). -/
def stexLengthField (n : Nat) : Nat := if n < 2 ^ 32 then n else (Config.stexLongLength n).toNat

/-- The header of a written container (R295): 0x80 bytes. -/
def stexHeader (w h dt pf : Word32) (dataLength : Nat) : List Byte :=
  stexMagic ++ stexWord 0 ++ stexWord 3553 ++ stexWord w.toNat ++ stexWord h.toNat ++ stexWord dt.toNat ++
    stexWord pf.toNat ++ stexWord (stexLengthField dataLength) ++ stexWord 0x80 ++ List.replicate 0x5C 0#8

/-- Writing a container (R295): the header, then the data at 0x80 with no more padding (R296). -/
def stexWrite (w h dt pf : Word32) (data : List Byte) : List Byte := stexHeader w h dt pf data.length ++ data

/-- The output of an encode: OUT[0..OUT_LEN-1] (R73). -/
def encodedOutput (s : State) : List Byte := Memory.readBytes .out s.out 0 s.outLen.toNat

/-- The host fetches the output of an encode: the memory read that returns `encodedOutput` (R73, R100). -/
def fetchOutput (s : State) : HostAction := .memRead .out 0 s.outLen.toNat

/-- The container the host writes of the block's output (R295): the header, with OUT_LEN as its texel-data
byte length, then OUT[0..OUT_LEN-1]. -/
def stexSave (w h dt pf : Word32) (s : State) : List Byte :=
  stexHeader w h dt pf s.outLen.toNat ++ encodedOutput s

end Sys2Proof.Machine
end

