-- ==== Sys2Proof/Safety.lean ====
section
/-!
DEFINITION. What counts as a safe state, in the terms the claims use: the invariant every step keeps, and
the host's side of a run that never stops.
-/

namespace Sys2Proof.Machine

/-- The listed bytes of a space are in canonical form and below its capacity (R70). -/
abbrev Memory.within (m : Memory) (cap : Nat) : Prop := m.wf ∧ ∀ c ∈ m, c.1 < cap

/-- What holds of every state from reset on. -/
structure Inv (s : State) : Prop where
  /-- RAW is canonical and within RAW_CAP (R70). -/
  rawWithin : Memory.within s.raw (s.params.cap .raw)
  /-- PIX is canonical and within PIX_CAP (R70, R74). -/
  pixWithin : Memory.within s.pix (s.params.cap .pix)
  /-- OUT is canonical and within OUT_CAP (R70, R177). -/
  outWithin : Memory.within s.out (s.params.cap .out)
  /-- CODE_TABLE is one R109 allows. -/
  codesLegal : s.params.legal
  /-- The reserved bits of STATUS read 0 (R33). -/
  statusReserved : s.status.extractLsb 31 5 = 0#27
  /-- ERR is a code of R310; 7 to 15 are never written. -/
  errLegal : s.err.toNat ≤ 6
  /-- The reserved bits of FMTSEL read 0 (R36). -/
  fmtselReserved : s.fmtsel.extractLsb 31 5 = 0#27
  /-- A valid FMTSEL names one of the thirteen formats (R36). -/
  fmtselLegal : s.fmtselFmt.toNat ≤ 12
  /-- An invalid FMTSEL is 0 (R36). -/
  fmtselInvalid : s.fmtselValid = false → s.fmtsel = 0#32
  /-- Bits 31:8 of RS_RES are 0 (R44). -/
  rsResByte : s.rsRes.toNat ≤ 255
  /-- With no fault since reset, FAULT_CMD and FAULT_INFO are 0 (R37, R310, R340). -/
  noFault : s.err = 0#4 → s.faultCmd = 0#32 ∧ s.faultInfo = 0#64
  /-- Only RawUnderrun and OutOverflow have a detail (R37, R310). -/
  noDetail : s.err ≠ 5#4 → s.err ≠ 6#4 → s.faultInfo = 0#64

/-- The image a command works on is legal and fits PIX: bit 31 of WIDTH and HEIGHT is 0 and
WIDTH*HEIGHT*4 ≤ PIX_CAP (R38, R74). -/
def ImageReady (s : State) : Prop :=
  s.width.toNat < 2 ^ 31 ∧ s.height.toNat < 2 ^ 31 ∧
    s.width.toNat * s.height.toNat * 4 ≤ s.params.pixCap.toNat

/-- Bit 31 of TILE_X and TILE_Y is 0 (R43). -/
def OriginReady (s : State) : Prop := s.tileX.toNat < 2 ^ 31 ∧ s.tileY.toNat < 2 ^ 31

/-- The valid raw bytes fit RAW: RAW_LEN ≤ RAW_CAP (R74). -/
def RawReady (s : State) : Prop := s.rawLen.toNat ≤ s.params.rawCap.toNat

/-- The static checks of DECT pass (R175). -/
def DectReady (s : State) : Prop := ImageReady s ∧ RawReady s ∧ OriginReady s

/-- The static checks of ENCT pass (R175). -/
def EnctReady (s : State) : Prop := ImageReady s ∧ OriginReady s

/-- The number of tiles of the image: `ceil(W/8) * ceil(H/8)` (R174). -/
def tileCount (s : State) : Nat := ((s.width.toNat + 7) / 8) * ((s.height.toNat + 7) / 8)

/-- Byte `a` of PIX belongs to a texel of the tile at (x, y) that lies in the image: the bytes a tile
may store to, by the address formula of R152 and the check of R154. -/
def TileByte (w h x y a : Nat) : Prop :=
  ∃ row col, row < 8 ∧ col < 8 ∧ pixelIndex w x y row col < w * h ∧ a / 4 = pixelIndex w x y row col

/-- The host accesses only addresses that exist (R70). -/
def actionLegal (p : Params) : HostAction → Bool
  | .issue _ => true
  | .wr _ _ => true
  | .rd _ => true
  | .memWrite sp a bs => accessFits p sp a bs.length
  | .memRead sp a n => accessFits p sp a n
  | .reset => true

/-- A state from which no step stops: every action to come is legal. -/
def State.safe (s : State) : Bool := s.pending.all (actionLegal s.params)

/-- The step comes to a next state. -/
def answersNext : Host.Outcome State Fault Refusal → Bool
  | .next _ => true
  | .fault _ => false
  | .refused _ => false

end Sys2Proof.Machine
end

