-- ==== Sys2Proof/Certificates/Slice0/Obligations.lean ====
section
/-!
DEFINITION. The statements about the block, for the provers. Each docstring names the rule of spec/ it
formalises.
-/

open Sys2Proof Sys2Proof.Machine

/-! ## Encoding (30_encoding.md) -/

/-- A few command words, written out from the fields of R101 to R103, decode to the instructions they
stand for (R111), and the pseudo-instructions of R112 are the host actions and words written out. -/
def Obligations.DecodesWordsOfTheSpec : Prop :=
  decode 0x00000000#32 = .ok .lookup ∧ decode 0x00080501#32 = .ok (.rsmp 5 8) ∧
  decode 0x00040502#32 = .ok (.taddr 5 4) ∧ decode 0x00000003#32 = .ok (.bdec false) ∧
  decode 0x00000103#32 = .ok (.bdec true) ∧ decode 0x00000094#32 = .ok .dectL8 ∧
  decode 0x000000C5#32 = .ok .enctLa44 ∧ decode 0x00000006#32 = .ok .deci ∧
  decode 0x00000007#32 = .ok .enci ∧
  (∀ w h dt pf n : Word64,
    decodeImage w h dt pf n =
      [.wr 4#8 w, .wr 5#8 h, .wr 6#8 dt, .wr 7#8 pf, .wr 8#8 n, .issue 0x00000006#32] ∧
    encodeImage w h dt pf = [.wr 4#8 w, .wr 5#8 h, .wr 6#8 dt, .wr 7#8 pf, .issue 0x00000007#32]) ∧
  (∀ x y : Word64, setTile x y = [.wr 11#8 x, .wr 12#8 y]) ∧
  (∀ v : Word64, resampleValue v 5 8 = [.wr 13#8 v, .issue 0x00080501#32]) ∧
  (∀ d m : Word64, decompress d = [.wr 17#8 d, .issue 0x00000003#32] ∧
    decompressAlpha d m = [.wr 17#8 d, .wr 18#8 m, .issue 0x00000103#32])

/-- Decoding the word of a well-formed instruction gives it back, with every operand. -/
def Obligations.DecodeOfEncode : Prop :=
  ∀ i : Instr, i.wellFormed = true → decode (encode i) = .ok i

/-- A word that decodes to an instruction is the word of that instruction, and the instruction is well
formed: no bit of the word is dropped, so no two words mean one instruction. -/
def Obligations.EncodeOfDecode : Prop :=
  ∀ (c : Word32) (i : Instr), decode c = .ok i → encode i = c ∧ i.wellFormed = true

/-- The reserved encodings are those of R106, each raises IllegalCommand and changes nothing else; every
other word is a command of R103 (an instruction, or DECT or ENCT with FMT 13 to 15). -/
def Obligations.ReservedWordsRaiseIllegalCommand : Prop :=
  ∀ c : Word32,
    let op := c.toNat % 16
    let fmt := c.toNat / 16 % 16
    let a := c.toNat / 256 % 256
    let b := c.toNat / 65536 % 256
    let reserved : Prop :=
      8 ≤ op ∨ c.toNat / 16777216 ≠ 0 ∨
      ((op = 0 ∨ op = 6 ∨ op = 7) ∧ (fmt ≠ 0 ∨ a ≠ 0 ∨ b ≠ 0)) ∨
      (op = 1 ∧ (fmt ≠ 0 ∨ a / 16 ≠ 0 ∨ b / 16 ≠ 0)) ∨
      (op = 2 ∧ (fmt ≠ 0 ∨ a / 64 ≠ 0 ∨ b / 16 ≠ 0)) ∨
      (op = 3 ∧ (fmt ≠ 0 ∨ a / 2 ≠ 0 ∨ b ≠ 0)) ∨
      ((op = 4 ∨ op = 5) ∧ (a ≠ 0 ∨ b ≠ 0))
    (reserved ↔ decode c = .error .reservedOp ∨ decode c = .error .reservedField) ∧
    (¬reserved → (∃ i, decode c = .ok i) ∨ ((op = 4 ∨ op = 5) ∧ 13 ≤ fmt)) ∧
    (reserved → ∀ (s : State) (rest : List HostAction), s.pending = .issue c :: rest → s.err = 0#4 →
      step s = .next { s with
        pending := rest, status := s.status ||| 3#32, faultCmd := c, faultInfo := 0#64 })

/-- DECT and ENCT with FMT 13 to 15 are no instructions and no range error (R105, R113): the static
checks come first (R314), then they raise CodecNotFound. -/
def Obligations.UnknownFormatsRaiseCodecNotFound : Prop :=
  ∀ (s : State) (fmt : Nat) (rest : List HostAction), 13 ≤ fmt → fmt ≤ 15 → s.err = 0#4 →
    let dect := BitVec.ofNat 32 (4 + fmt * 16)
    let enct := BitVec.ofNat 32 (5 + fmt * 16)
    decode dect = .error .dectNoCodec ∧ decode enct = .error .enctNoCodec ∧
    (s.pending = .issue dect :: rest →
      (DectReady s → step s = .next ({ s with pending := rest }.raise .codecNotFound dect 0#64)) ∧
      (¬DectReady s → step s = .next ({ s with pending := rest }.raise .illegalOperand dect 0#64))) ∧
    (s.pending = .issue enct :: rest →
      (EnctReady s → step s = .next ({ s with pending := rest }.raise .codecNotFound enct 0#64)) ∧
      (¬EnctReady s → step s = .next ({ s with pending := rest }.raise .illegalOperand enct 0#64)))

/-! ## The step and the host interface -/

/-- A step runs the decoded instruction: with no fault pending, the step that takes an issued word is
exec of the instruction the word decodes to, in the state with the action taken off the list;
`withFetchWord` makes the next step run any well-formed instruction so; and with no action to take the
block waits and holds its state (R326, R342). -/
def Obligations.StepRunsDecodedInstruction : Prop :=
  (∀ s : State, s.err = 0#4 →
    (∀ (c : Word32) (i : Instr) (rest : List HostAction), s.pending = .issue c :: rest →
      decode c = .ok i → step s = exec i { s with pending := rest }) ∧
    (∀ i : Instr, i.wellFormed = true → step (s.withFetchWord 32 (encode i).toNat) = exec i s)) ∧
  ∀ s : State, s.pending = [] → step s = .next s

/-- The sticky gate (R312): while ERR is not 0 a command is dropped; every other access of the host runs
as it would without a fault; every step but a reset keeps ERR, FAULT_CMD and FAULT_INFO; reset clears
ERR. -/
def Obligations.StickyFaultGate : Prop :=
  ∀ (s : State) (rest : List HostAction), s.err ≠ 0#4 →
    (∀ c, s.pending = .issue c :: rest → step s = .next { s with pending := rest }) ∧
    (∀ n v, s.pending = .wr n v :: rest →
      step s = .next (writeRegister { s with pending := rest } n.toNat v)) ∧
    (∀ n, s.pending = .rd n :: rest →
      step s = .next { s with pending := rest, reply := .word (readRegister s n.toNat) }) ∧
    (∀ sp a bs, s.pending = .memWrite sp a bs :: rest → a + bs.length ≤ s.params.cap sp →
      step s = .next ({ s with pending := rest }.withMemory sp (Memory.writeBytes (s.memory sp) a bs))) ∧
    (∀ sp a n, s.pending = .memRead sp a n :: rest → a + n ≤ s.params.cap sp →
      step s = .next { s with
        pending := rest, reply := .bytes (Memory.readBytes sp (s.memory sp) a n) }) ∧
    (∀ t, step s = .next t → s.pending.head? ≠ some .reset →
      t.err = s.err ∧ t.faultCmd = s.faultCmd ∧ t.faultInfo = s.faultInfo) ∧
    (s.pending = .reset :: rest → ∃ t, step s = .next t ∧ t.err = 0#4)

/-- The registers by number (R31). -/
def Obligations.RegisterNumbers : Prop :=
  ∀ s : State,
    (List.range 19).map (readRegister s) =
      [s.status.setWidth 64, s.fmtsel.setWidth 64, s.faultCmd.setWidth 64, s.faultInfo,
       s.width.setWidth 64, s.height.setWidth 64, s.dtype.setWidth 64, s.pfmt.setWidth 64,
       s.rawLen, s.cur, s.outLen, s.tileX.setWidth 64, s.tileY.setWidth 64,
       s.rsVal.setWidth 64, s.rsRes.setWidth 64, s.taPix, s.taOff, s.bdDesc, s.bdAlpha] ∧
    (∀ k : Fin 16, readRegister s (19 + k.val) = s.bdTex[k].setWidth 64) ∧
    (∀ n : Nat, 35 ≤ n → readRegister s n = 0#64)

/-- Host register access (R32): a write changes the named read/write register alone and keeps the low
bits; a read-only or reserved register is not written; a read returns the current value, 0 for a
reserved index, and changes no register. -/
def Obligations.HostRegisterAccess : Prop :=
  ∀ (s : State) (rest : List HostAction) (n : BitVec 8),
    (∀ v : Word64, s.pending = .wr n v :: rest →
      ∃ t, step s = .next t ∧
        (∀ k : BitVec 8, k ≠ n → readRegister t k.toNat = readRegister s k.toNat) ∧
        (readRegister t n.toNat).toNat =
          (if n.toNat ∈ [4, 5, 6, 7, 11, 12, 13] then v.toNat % 2 ^ 32
           else if n.toNat ∈ [8, 9, 10, 17, 18] then v.toNat
           else (readRegister s n.toNat).toNat) ∧
        t.raw = s.raw ∧ t.pix = s.pix ∧ t.out = s.out ∧ t.params = s.params ∧ t.draws = s.draws ∧
        t.reply = s.reply ∧ t.pending = rest) ∧
    (s.pending = .rd n :: rest →
      step s = .next { s with pending := rest, reply := .word (readRegister s n.toNat) }) ∧
    (35 ≤ n.toNat → readRegister s n.toNat = 0#64)

/-- Reset (R340) sets every register to 0, from any state; it leaves the memory spaces as they were
(R341). The state a model starts from has every register 0 as well (R343). -/
def Obligations.ResetZeroesRegisters : Prop :=
  (∀ n : Nat, readRegister State.reset n = 0#64) ∧
  ∀ (s : State) (rest : List HostAction), s.pending = .reset :: rest →
    ∃ t, step s = .next t ∧ (∀ n : Nat, readRegister t n = 0#64) ∧
      t.raw = s.raw ∧ t.pix = s.pix ∧ t.out = s.out ∧ t.params = s.params ∧ t.pending = rest

/-- The host's memory accesses (R70, R80): a write stores its bytes at consecutive addresses of the one
space and changes nothing else, a read returns the bytes and changes no space; an access that reaches
an address at or past the capacity stops the machine. Three things here are the model's choice: that stop
(notes/assumptions/9.md); that the host may read and write all three spaces, OUT and RAW too, by R100
against the table of R70 (10.md); and that one access is any number of bytes at any address, PIX included,
against R14 with the 4-byte PIX accesses of R79 (21.md). -/
def Obligations.HostMemoryAccess : Prop :=
  ∀ (s : State) (rest : List HostAction) (sp : Space) (a : Nat),
    (∀ bs : List Byte, s.pending = .memWrite sp a bs :: rest → bs ≠ [] →
      (a + bs.length ≤ s.params.cap sp →
        ∃ m, step s = .next ({ s with pending := rest }.withMemory sp m) ∧
          (∀ i (h : i < bs.length), Memory.read sp m (a + i) = bs[i]) ∧
          (∀ b, b < a ∨ a + bs.length ≤ b → Memory.read sp m b = Memory.read sp (s.memory sp) b)) ∧
      (s.params.cap sp < a + bs.length → step s = .fault .outsideSpace)) ∧
    (∀ n : Nat, s.pending = .memRead sp a n :: rest → 0 < n →
      (a + n ≤ s.params.cap sp →
        step s = .next { s with
          pending := rest
          reply := .bytes ((List.range n).map fun i => Memory.read sp (s.memory sp) (a + i)) }) ∧
      (s.params.cap sp < a + n → step s = .fault .outsideSpace))

/-! ## Faults (60_exceptions.md) -/

/-- Raising a fault (R311) records the code of R310 in ERR, the command word and the detail, and changes
nothing else. -/
def Obligations.FaultRecord : Prop :=
  ∀ (s : State) (f : BlockFault) (c : Word32) (info : Word64),
    let t := s.raise f c info
    t.err.toNat = (match f with
      | .codecNotFound => 1 | .unsupportedOperation => 2 | .illegalCommand => 3
      | .illegalOperand => 4 | .rawUnderrun => 5 | .outOverflow => 6) ∧
    t.inb = s.inb ∧ t.status.extractLsb 31 5 = s.status.extractLsb 31 5 ∧
    t = { s with status := t.status, faultCmd := c, faultInfo := info }

/-- Which commands write which state: the "written by" column of R31, the flags of R34 and the
direction of access of R89. Every command ends in a next state, whatever the state and the operands
(R319, R350); the host's operand registers, RAW and the parameters are written by none. -/
def Obligations.OnlyListedCommandsWrite : Prop :=
  ∀ (i : Instr) (s : State), ∃ t, exec i s = .next t ∧
    (t.width = s.width ∧ t.height = s.height ∧ t.dtype = s.dtype ∧ t.pfmt = s.pfmt ∧
      t.rawLen = s.rawLen ∧ t.rsVal = s.rsVal ∧ t.bdDesc = s.bdDesc ∧ t.bdAlpha = s.bdAlpha ∧
      t.raw = s.raw ∧ t.params = s.params ∧ t.pending = s.pending ∧ t.reply = s.reply) ∧
    (i ≠ .lookup → i ≠ .deci → i ≠ .enci → t.fmtsel = s.fmtsel) ∧
    ((∀ f, i ≠ .dect f) → i ≠ .deci → t.cur = s.cur ∧ t.pix = s.pix) ∧
    ((∀ f, i ≠ .enct f) → i ≠ .enci → t.outLen = s.outLen ∧ t.out = s.out) ∧
    (i ≠ .deci → i ≠ .enci → t.tileX = s.tileX ∧ t.tileY = s.tileY) ∧
    ((∀ a b, i ≠ .rsmp a b) → t.rsRes = s.rsRes) ∧
    ((∀ a b, i ≠ .taddr a b) → t.taPix = s.taPix ∧ t.taOff = s.taOff ∧ t.inb = s.inb) ∧
    ((∀ a, i ≠ .bdec a) → t.bdTex = s.bdTex)

/-- FAULT_CMD and FAULT_INFO (R37, R310): a command that runs either raises nothing and leaves ERR,
FAULT_CMD and FAULT_INFO, or records a code of R310, its own command word, and as the detail the cursor
(RawUnderrun), the output length (OutOverflow) or 0. -/
def Obligations.FaultRegistersNameTheCommand : Prop :=
  ∀ (s t : State) (c : Word32) (rest : List HostAction),
    s.pending = .issue c :: rest → s.err = 0#4 → step s = .next t →
    (t.err = 0#4 ∧ t.faultCmd = s.faultCmd ∧ t.faultInfo = s.faultInfo) ∨
    (1 ≤ t.err.toNat ∧ t.err.toNat ≤ 6 ∧ t.faultCmd = c ∧
      t.faultInfo = if t.err = 5#4 then t.cur else if t.err = 6#4 then t.outLen else 0#64)

/-- The static checks of R175: when they fail, DECT, ENCT, DECI and ENCI raise IllegalOperand and change
nothing else; DECT and ENCT also check the tile origin, DECT and DECI also RAW_LEN. -/
def Obligations.StaticChecks : Prop :=
  ∀ (s : State) (f : Fmt),
    (¬DectReady s → exec (.dect f) s = .next (s.raise .illegalOperand (encode (.dect f)) 0#64)) ∧
    (¬EnctReady s → exec (.enct f) s = .next (s.raise .illegalOperand (encode (.enct f)) 0#64)) ∧
    (¬(ImageReady s ∧ RawReady s) → exec .deci s = .next (s.raise .illegalOperand 6#32 0#64)) ∧
    (¬ImageReady s → exec .enci s = .next (s.raise .illegalOperand 7#32 0#64))

/-- The order in which the image commands report a fault (R314): IllegalOperand, CodecNotFound,
UnsupportedOperation, then the tile-time fault; ERR otherwise keeps its value. -/
def Obligations.ImageFaultPriority : Prop :=
  ∀ s t : State,
    (exec .deci s = .next t →
      (¬(ImageReady s ∧ RawReady s) → t.err = 4#4) ∧
      (ImageReady s → RawReady s →
        (codeTable s.params s.dtype s.pfmt = none → t.err = 1#4) ∧
        (∀ f, codeTable s.params s.dtype s.pfmt = some f →
          t.err = if tileBytes f * tileCount s ≤ s.rawLen.toNat then s.err else 5#4))) ∧
    (exec .enci s = .next t →
      (¬ImageReady s → t.err = 4#4) ∧
      (ImageReady s →
        (codeTable s.params s.dtype s.pfmt = none → t.err = 1#4) ∧
        (∀ f, codeTable s.params s.dtype s.pfmt = some f →
          (encodeRoutine f = none → t.err = 2#4) ∧
          (∀ enc, encodeRoutine f = some enc →
            t.err = if tileBytes f * tileCount s ≤ s.params.outCap.toNat then s.err else 6#4))))

/-! ## RSMP (40_resampler.md) -/

/-- RSMP (R135): in range, RS_RES gets the value of R130 and nothing else changes; out of range,
IllegalOperand and RS_RES unchanged; a word of this operation with a must-be-zero bit set is rejected. -/
def Obligations.RsmpResult : Prop :=
  (∀ (s : State) (sbits tbits : Nat), sbits < 16 → tbits < 16 →
    (1 ≤ sbits → sbits ≤ 8 → tbits ≤ 8 →
      exec (.rsmp sbits tbits) s = .next { s with
        rsRes := BitVec.ofNat 32
          (((s.rsVal.toNat % 2 ^ sbits) * (2 ^ tbits - 1) + (2 ^ sbits - 1) / 2) / (2 ^ sbits - 1)) }) ∧
    (¬(1 ≤ sbits ∧ sbits ≤ 8 ∧ tbits ≤ 8) →
      exec (.rsmp sbits tbits) s =
        .next (s.raise .illegalOperand (BitVec.ofNat 32 (1 + sbits * 256 + tbits * 65536)) 0#64))) ∧
  (∀ c : Word32, c.toNat % 16 = 1 →
    (c.toNat / 16 % 16 ≠ 0 ∨ c.toNat / 4096 % 16 ≠ 0 ∨ c.toNat / 1048576 ≠ 0) →
    decode c = .error .reservedField)

/-- The range of the resampler (R131). -/
def Obligations.ResampleRange : Prop :=
  ∀ v s t : Nat, 1 ≤ s → s ≤ 8 → t ≤ 8 → resample v s t ≤ 2 ^ t - 1 ∧ 2 ^ t - 1 ≤ 255

/-- The resampler rounds to the nearest integer and never meets a tie (R133): the source mask is odd, the
exact quotient never has fractional part one half, and the result is less than one half away from it. -/
def Obligations.ResampleRoundsToNearest : Prop :=
  ∀ v s t : Nat, 1 ≤ s → s ≤ 8 → t ≤ 8 →
    let mask := 2 ^ s - 1
    let exact := (v % 2 ^ s) * (2 ^ t - 1)
    mask % 2 = 1 ∧ (2 * exact) % (2 * mask) ≠ mask ∧
      2 * exact < 2 * (resample v s t * mask) + mask ∧ 2 * (resample v s t * mask) < 2 * exact + mask

/-- The special cases of R134. -/
def Obligations.ResampleSpecialCases : Prop :=
  (∀ v s : Nat, 1 ≤ s → s ≤ 8 → resample v s s = v % 2 ^ s) ∧
  (∀ v : Nat, resample v 4 8 = v % 16 * 17 ∧ resample v 4 8 = dup4 (v % 16)) ∧
  (∀ v : Nat, resample v 1 8 = 255 * (v % 2)) ∧
  (∀ v s : Nat, 1 ≤ s → s ≤ 8 → resample v s 0 = 0) ∧
  (resample 3 5 8 = 25 ∧ exp5 3 = 24)

/-- The quantisation round trip (R253) for the field widths 1, 4, 5 and 6: up and down again is the
identity; down and up again gives a representable byte no other is nearer to; the nearest is unique for
widths 1 and 4; there are 24 ties for width 5 and 60 for width 6. -/
def Obligations.QuantisationRoundTrip : Prop :=
  (∀ n ∈ [1, 4, 5, 6],
    (∀ v < 2 ^ n, resample (resample v n 8) 8 n = v) ∧
    (∀ u < 256, ∀ w < 2 ^ n,
      Nat.dist (resample (resample u 8 n) n 8) u ≤ Nat.dist (resample w n 8) u)) ∧
  (∀ n ∈ [1, 4], ∀ u < 256, ∀ w < 2 ^ n, w ≠ resample u 8 n →
    Nat.dist (resample (resample u 8 n) n 8) u < Nat.dist (resample w n 8) u) ∧
  (∀ p ∈ [(5, 24), (6, 60)],
    ((List.range 256).filter fun u => (List.range (2 ^ p.1)).any fun w =>
      decide (w ≠ resample u 8 p.1) &&
        decide (Nat.dist (resample w p.1 8) u = Nat.dist (resample (resample u 8 p.1) p.1 8) u)).length = p.2)

/-! ## TADDR (41_tile_address.md) -/

/-- The tile order interleaves column and row bits, column bit first (R151). -/
def Obligations.TileOrderIsMorton : Prop :=
  (∀ t < 64, tileOrder t % 8 = t / 16 % 2 * 4 + t / 4 % 2 * 2 + t % 2 ∧
    tileOrder t / 8 = t / 32 % 2 * 4 + t / 8 % 2 * 2 + t / 2 % 2) ∧
  (List.range 64).map tileOrder =
    [0, 1, 8, 9, 2, 3, 10, 11, 16, 17, 24, 25, 18, 19, 26, 27,
     4, 5, 12, 13, 6, 7, 14, 15, 20, 21, 28, 29, 22, 23, 30, 31] ++
    [32, 33, 40, 41, 34, 35, 42, 43, 48, 49, 56, 57, 50, 51, 58, 59,
     36, 37, 44, 45, 38, 39, 46, 47, 52, 53, 60, 61, 54, 55, 62, 63]

/-- TADDR (R153): under its conditions TA_PIX, TA_OFF and STATUS.INB get the pixel index, the byte
offset and the bounds check, and nothing else changes; otherwise IllegalOperand and all three are
unchanged; a word of this operation with a must-be-zero bit set is rejected. -/
def Obligations.TaddrResult : Prop :=
  (∀ (s : State) (t bpt : Nat), t < 64 → bpt < 16 →
    let pix := (tileOrder t / 8 + s.tileY.toNat) * s.width.toNat + (tileOrder t % 8 + s.tileX.toNat)
    let legal := ImageReady s ∧ OriginReady s ∧ bpt ≠ 0 ∧ pix * bpt < 2 ^ 64
    (legal → ∃ u, exec (.taddr t bpt) s = .next u ∧
      u = { s with taPix := BitVec.ofNat 64 pix, taOff := BitVec.ofNat 64 (pix * bpt), status := u.status } ∧
      u.inb = decide (pix < s.width.toNat * s.height.toNat) ∧ u.err = s.err ∧
      u.status.extractLsb 31 5 = s.status.extractLsb 31 5) ∧
    (¬legal → exec (.taddr t bpt) s =
      .next (s.raise .illegalOperand (BitVec.ofNat 32 (2 + t * 256 + bpt * 65536)) 0#64))) ∧
  (∀ c : Word32, c.toNat % 16 = 2 →
    (c.toNat / 16 % 16 ≠ 0 ∨ c.toNat / 16384 % 4 ≠ 0 ∨ c.toNat / 1048576 ≠ 0) →
    decode c = .error .reservedField)

/-- INB reflects exactly the byte-offset check (R35): after a TADDR that raises nothing, INB is 1 exactly
when the byte offset lies in a buffer of WIDTH*HEIGHT texels of BPT bytes. -/
def Obligations.InBoundsFlagIsByteCheck : Prop :=
  ∀ (s : State) (t bpt : Nat), t < 64 → 1 ≤ bpt → bpt < 16 → ImageReady s → OriginReady s →
    pixelIndex s.width.toNat s.tileX.toNat s.tileY.toNat (tileRow t) (tileCol t) * bpt < 2 ^ 64 →
    ∃ u, exec (.taddr t bpt) s = .next u ∧
      (u.inb = true ↔ u.taOff.toNat < s.width.toNat * s.height.toNat * bpt) ∧
      (u.inb = true ↔ u.taPix.toNat < s.width.toNat * s.height.toNat)

/-- The permutation property (R156): for WIDTH and x multiples of 8 the 64 pixel indices of a tile are
exactly those of its 8 by 8 texels, each once. -/
def Obligations.TileTexelsArePermutation : Prop :=
  ∀ w x y : Nat, w % 8 = 0 → x % 8 = 0 →
    let indices := (List.range 64).map fun t => pixelIndex w x y (tileRow t) (tileCol t)
    indices.Perm ((List.range 8).flatMap fun r => (List.range 8).map fun c => (y + r) * w + x + c) ∧
      (0 < w → indices.Nodup)

/-- Clipping and row wrap (R155): a texel is dropped exactly when its pixel index is not below
WIDTH*HEIGHT; a texel past the last column addresses a following row; a texel whose row is at or beyond
HEIGHT is always dropped. -/
def Obligations.RowWrapAndClipping : Prop :=
  ∀ (fr : Frame) (pix : Memory) (q : Placed), q.row < 8 → q.col < 8 →
    let p := (q.row + fr.y) * fr.w + (q.col + fr.x)
    (fr.w * fr.h ≤ p → placeTexel fr pix q = pix) ∧
    (p < fr.w * fr.h →
      pixRead (placeTexel fr pix q) p = q.texel ∧
      ∀ a, a / 4 ≠ p → Memory.read .pix (placeTexel fr pix q) a = Memory.read .pix pix a) ∧
    (fr.w ≤ q.col + fr.x → p = (q.row + 1 + fr.y) * fr.w + (q.col + fr.x - fr.w)) ∧
    (fr.h ≤ q.row + fr.y → fr.w * fr.h ≤ p)

/-! ## LOOKUP (42_registry_sequencer.md) -/

/-- CODE_TABLE (R109), at reset and wherever it is legal: exactly one code pair per format, at most one
format per pair, and the pair the source fixes for RGB888. -/
def Obligations.CodeTableIsInjective : Prop :=
  State.reset.params.legal ∧
  ∀ p : Params, p.legal →
    (∀ e : Fmt, ∃ d f, codeTable p d f = some e ∧ ∀ d' f', codeTable p d' f' = some e → d' = d ∧ f' = f) ∧
    codeTable p 0x1401#32 0x6754#32 = some .rgb888

/-- LOOKUP (R171): with a code pair of the table, FMTSEL gets VALID = 1 and its format; with none, FMTSEL
gets 0 and CodecNotFound is raised; nothing else changes. The thirteen format indexes of R18 are written
out. -/
def Obligations.LookupResult : Prop :=
  (Fmt.index .rgba4444 = 0 ∧ Fmt.index .rgba5551 = 1 ∧ Fmt.index .rgba8888 = 2 ∧ Fmt.index .rgb565 = 3 ∧
    Fmt.index .rgb888 = 4 ∧ Fmt.index .etc1 = 5 ∧ Fmt.index .etc1a4 = 6 ∧ Fmt.index .a8 = 7 ∧
    Fmt.index .a4 = 8 ∧ Fmt.index .l8 = 9 ∧ Fmt.index .l4 = 10 ∧ Fmt.index .la88 = 11 ∧
    Fmt.index .la44 = 12) ∧
  (∀ s : State, s.params.legal →
    (∀ f : Fmt, s.params.codes.toList[f.index]? = some (s.dtype, s.pfmt) →
      exec .lookup s = .next { s with fmtsel := BitVec.ofNat 32 (16 + f.index) }) ∧
    ((s.dtype, s.pfmt) ∉ s.params.codes.toList →
      exec .lookup s = .next ({ s with fmtsel := 0#32 }.raise .codecNotFound 0#32 0#64))) ∧
  (∀ c : Word32, c.toNat % 16 = 0 → c.toNat ≠ 0 → decode c = .error .reservedField)

/-! ## BDEC (44_block_decompressor.md) -/

/-- The base colours (R261, R262, R266) and the expansion (R265): individual mode duplicates nibbles;
differential mode expands five-bit values, sub-block B from the unclamped sum with its delta. -/
def Obligations.BaseColours : Prop :=
  (∀ d : Word64,
    let field : Nat → Nat → Nat := fun hi lo => d.toNat / 2 ^ lo % 2 ^ (hi - lo + 1)
    let delta : Nat → Nat → Int := fun hi lo => if field hi lo < 4 then (field hi lo : Int) else (field hi lo : Int) - 8
    (d.toNat / 2 ^ 33 % 2 = 0 →
      baseA d = { r := 17 * field 63 60, g := 17 * field 55 52, b := 17 * field 47 44 } ∧
      baseB d = { r := 17 * field 59 56, g := 17 * field 51 48, b := 17 * field 43 40 }) ∧
    (d.toNat / 2 ^ 33 % 2 = 1 →
      baseA d = { r := exp5 (field 63 59), g := exp5 (field 55 51), b := exp5 (field 47 43) } ∧
      baseB d = { r := exp5 (field 63 59 + delta 58 56), g := exp5 (field 55 51 + delta 50 48),
                  b := exp5 (field 47 43 + delta 42 40) })) ∧
  (∀ v : Int, 0 ≤ v → v ≤ 31 → exp5 v = 8 * v + v / 4) ∧
  (∀ v : Int, -4 ≤ v → v ≤ -1 → exp5 v = -1) ∧
  exp5 32 = 264 ∧ exp5 33 = 264 ∧ exp5 34 = 280

/-- The range facts of R273. The values -1, 264 and 280 of a differential base are those of the literal
formula the spec flags as open (notes/assumptions/13.md), and the bound 183 is that of the modifier table
the spec supplies from general knowledge (notes/assumptions/15.md). -/
def Obligations.BlockRangeFacts : Prop :=
  (∀ d : Word64, ∀ c ∈ [(baseA d).r, (baseA d).g, (baseA d).b, (baseB d).r, (baseB d).g, (baseB d).b],
    diffMode d = false → 17 ∣ c ∧ 0 ≤ c ∧ c ≤ 255) ∧
  (∀ d : Word64, diffMode d = true →
    (∀ c ∈ [(baseA d).r, (baseA d).g, (baseA d).b], 0 ≤ c ∧ c ≤ 255) ∧
    (∀ c ∈ [(baseB d).r, (baseB d).g, (baseB d).b], c = -1 ∨ (0 ≤ c ∧ c ≤ 255) ∨ c = 264 ∨ c = 280)) ∧
  (∀ row col : Nat, -183 ≤ modifier row col ∧ modifier row col ≤ 183) ∧
  (∀ base m : Int, 0 ≤ clamp8 (base + m) ∧ clamp8 (base + m) ≤ 255)

/-- BDEC (R270, R271, R267, R268, R269, R47): it writes the sixteen texel registers and nothing else,
each with the clamped channels and the alpha of its texel, and it raises nothing; a word of this
operation with a must-be-zero bit set is rejected. Which half is sub-block A (R267) and the modifier table
(R263) are the spec's own from general knowledge (notes/assumptions/15.md), and the bases are not clamped
before the sum, as the spec flags open (notes/assumptions/13.md). The modifier table is written out. -/
def Obligations.BdecResult : Prop :=
  ((List.range 8).map fun row => (List.range 4).map fun col => modifier row col) =
    [[2, 8, -2, -8], [5, 17, -5, -17], [9, 29, -9, -29], [13, 42, -13, -42],
     [18, 60, -18, -60], [24, 80, -24, -80], [33, 106, -33, -106], [47, 183, -47, -183]] ∧
  (∀ (s : State) (af : Bool), ∃ t, exec (.bdec af) s = .next t ∧ t = { s with bdTex := t.bdTex } ∧
    ∀ px py : Nat, px < 4 → py < 4 →
      let d := s.bdDesc
      let j := px * 4 + py
      let inA := if d.toNat / 2 ^ 32 % 2 = 1 then py < 2 else px < 2
      let row := if inA then d.toNat / 2 ^ 37 % 8 else d.toNat / 2 ^ 34 % 8
      let base := if inA then baseA d else baseB d
      let m := modifier row (d.toNat / 2 ^ j % 2 + 2 * (d.toNat / 2 ^ (j + 16) % 2))
      let channel := fun v : Int => (max 0 (min 255 (v + m))).toNat
      let alpha := if af then 17 * (s.bdAlpha.toNat / 2 ^ (4 * j) % 16) else 255
      t.bdTex.toList[py * 4 + px]? = some (BitVec.ofNat 32
        (channel base.b + 256 * channel base.g + 65536 * channel base.r + 16777216 * alpha))) ∧
  (∀ c : Word32, c.toNat % 16 = 3 →
    (c.toNat / 16 % 16 ≠ 0 ∨ c.toNat / 512 ≠ 0) → decode c = .error .reservedField)

/-! ## DECT (R176, 43_format_codecs.md) -/

/-- DECT of every format (R176): when its checks pass and the tile's bytes are there, it completes, CUR
advances by TILE_BYTES, and nothing changes but CUR and the bytes of the tile's texels in PIX. The
thirteen TILE_BYTES of R79 are written out. -/
def Obligations.DectDecodesOneTile : Prop :=
  (tileBytes .rgba4444 = 128 ∧ tileBytes .rgba5551 = 128 ∧ tileBytes .rgba8888 = 256 ∧
    tileBytes .rgb565 = 128 ∧ tileBytes .rgb888 = 192 ∧ tileBytes .etc1 = 32 ∧ tileBytes .etc1a4 = 64 ∧
    tileBytes .a8 = 64 ∧ tileBytes .a4 = 32 ∧ tileBytes .l8 = 64 ∧ tileBytes .l4 = 32 ∧
    tileBytes .la88 = 128 ∧ tileBytes .la44 = 64) ∧
  ∀ (s : State) (f : Fmt), DectReady s → s.cur.toNat + tileBytes f ≤ s.rawLen.toNat →
    ∃ pix', exec (.dect f) s = .next { s with
        pix := pix', cur := BitVec.ofNat 64 (s.cur.toNat + tileBytes f) } ∧
      ∀ a, ¬TileByte s.width.toNat s.height.toNat s.tileX.toNat s.tileY.toNat a →
        Memory.read .pix pix' a = Memory.read .pix s.pix a

/-- The store of a decode (R202, R88): a texel of the tile that lies in the image, and is not overwritten
by a later one of the same tile, stands in PIX after the command. A texel of PIX is the bytes blue, green,
red and alpha at 4 times its index (R17). -/
def Obligations.DectStoresTexelsInOrder : Prop :=
  (∀ (pix : Memory) (p : Nat), pixRead pix p =
    { b := Memory.read .pix pix (4 * p), g := Memory.read .pix pix (4 * p + 1)
      r := Memory.read .pix pix (4 * p + 2), a := Memory.read .pix pix (4 * p + 3) }) ∧
  ∀ (s t : State) (f : Fmt), DectReady s → s.cur.toNat + tileBytes f ≤ s.rawLen.toNat →
    exec (.dect f) s = .next t →
    let index := fun q : Placed => pixelIndex s.width.toNat s.tileX.toNat s.tileY.toNat q.row q.col
    let texels := decodeTexels s.raw s.cur.toNat f
    ∀ (k : Nat) (q : Placed), texels[k]? = some q → index q < s.width.toNat * s.height.toNat →
      (∀ (k' : Nat) (q' : Placed), k < k' → texels[k']? = some q' → index q' ≠ index q) →
      pixRead t.pix (index q) = q.texel

/-- The formats of 16-bit words (R210, R215, R225): texel t of the tile, from the little-endian word at
c + 2t. -/
def Obligations.WordFormatsDecode : Prop :=
  (decode 0x00000004#32 = .ok .dectRgba4444 ∧ decode 0x00000014#32 = .ok .dectRgba5551 ∧
    decode 0x00000034#32 = .ok .dectRgb565) ∧
  ∀ (raw : Memory) (c t : Nat), t < 64 →
    let w := (Memory.read .raw raw (c + 2 * t)).toNat + 256 * (Memory.read .raw raw (c + 2 * t + 1)).toNat
    let nibble := fun n => BitVec.ofNat 8 (17 * (n % 16))
    let five := fun n => BitVec.ofNat 8 ((n % 32 * 255 + 15) / 31)
    let six := fun n => BitVec.ofNat 8 ((n % 64 * 255 + 31) / 63)
    let texel := fun b g r a => some
      ({ row := tileOrder t / 8, col := tileOrder t % 8, texel := { b := b, g := g, r := r, a := a } } : Placed)
    (decodeTexels raw c .rgba4444)[t]? =
      texel (nibble (w / 16)) (nibble (w / 256)) (nibble (w / 4096)) (nibble w) ∧
    (decodeTexels raw c .rgba5551)[t]? =
      texel (five (w / 2)) (five (w / 64)) (five (w / 2048)) (BitVec.ofNat 8 (255 * (w % 2))) ∧
    (decodeTexels raw c .rgb565)[t]? = texel (five w) (six (w / 32)) (five (w / 2048)) 255#8

/-- The formats of whole bytes (R220, R230, R235, R240, R245). -/
def Obligations.ByteFormatsDecode : Prop :=
  (decode 0x00000024#32 = .ok .dectRgba8888 ∧ decode 0x00000044#32 = .ok .dectRgb888 ∧
    decode 0x00000074#32 = .ok .dectA8 ∧ decode 0x00000094#32 = .ok .dectL8 ∧
    decode 0x000000B4#32 = .ok .dectLa88) ∧
  ∀ (raw : Memory) (c t : Nat), t < 64 →
    let byte := fun a => Memory.read .raw raw a
    let texel := fun b g r a => some
      ({ row := tileOrder t / 8, col := tileOrder t % 8, texel := { b := b, g := g, r := r, a := a } } : Placed)
    (decodeTexels raw c .rgba8888)[t]? =
      texel (byte (c + 4 * t + 1)) (byte (c + 4 * t + 2)) (byte (c + 4 * t + 3)) (byte (c + 4 * t)) ∧
    (decodeTexels raw c .rgb888)[t]? =
      texel (byte (c + 3 * t)) (byte (c + 3 * t + 1)) (byte (c + 3 * t + 2)) 255#8 ∧
    (decodeTexels raw c .a8)[t]? = texel 255#8 255#8 255#8 (byte (c + t)) ∧
    (decodeTexels raw c .l8)[t]? = texel (byte (c + t)) (byte (c + t)) (byte (c + t)) 255#8 ∧
    (decodeTexels raw c .la88)[t]? =
      texel (byte (c + 2 * t + 1)) (byte (c + 2 * t + 1)) (byte (c + 2 * t + 1)) (byte (c + 2 * t))

/-- The formats of nibbles (R238, R243, R250): an even texel is in the low nibble of its byte; LA44 has
alpha in the low nibble and luminance in the high one. -/
def Obligations.NibbleFormatsDecode : Prop :=
  (decode 0x00000084#32 = .ok .dectA4 ∧ decode 0x000000A4#32 = .ok .dectL4 ∧
    decode 0x000000C4#32 = .ok .dectLa44) ∧
  ∀ (raw : Memory) (c t : Nat), t < 64 →
    let half := (Memory.read .raw raw (c + t / 2)).toNat
    let n := BitVec.ofNat 8 (17 * (if t % 2 = 0 then half % 16 else half / 16))
    let v := (Memory.read .raw raw (c + t)).toNat
    let l := BitVec.ofNat 8 (17 * (v / 16))
    let texel := fun b g r a => some
      ({ row := tileOrder t / 8, col := tileOrder t % 8, texel := { b := b, g := g, r := r, a := a } } : Placed)
    (decodeTexels raw c .a4)[t]? = texel 255#8 255#8 255#8 n ∧
    (decodeTexels raw c .l4)[t]? = texel n n n 255#8 ∧
    (decodeTexels raw c .la44)[t]? = texel l l l (BitVec.ofNat 8 (17 * (v % 16)))

/-- The compressed formats (R275): four blocks in the order top-left, top-right, bottom-left,
bottom-right, their words little-endian, the alpha word of ETC1A4 before its colour word, the texels
stored px outer and py inner; each stands where the tile order puts tile texel t (R276, R157). -/
def Obligations.BlockFormatsDecode : Prop :=
  (decode 0x00000054#32 = .ok .dectEtc1 ∧ decode 0x00000064#32 = .ok .dectEtc1a4) ∧
  ∀ (raw : Memory) (c b px py : Nat), b < 4 → px < 4 → py < 4 →
    let word := fun a => BitVec.ofNat 64
      (∑ i ∈ Finset.range 8, (Memory.read .raw raw (a + i)).toNat * 2 ^ (8 * i))
    let row := 4 * (b / 2) + py
    let col := 4 * (b % 2) + px
    (decodeTexels raw c .etc1)[16 * b + 4 * px + py]? = some
      { row := row, col := col, texel := blockTexel (word (c + 8 * b)) none px py } ∧
    (decodeTexels raw c .etc1a4)[16 * b + 4 * px + py]? = some
      { row := row, col := col
        texel := blockTexel (word (c + 16 * b + 8)) (some (word (c + 16 * b))) px py } ∧
    tileOrder (16 * b + px % 2 + 2 * (py % 2) + 4 * (px / 2) + 8 * (py / 2)) = 8 * row + col

/-- RawUnderrun of DECT (R176, R313): the fault is recorded with the cursor as its detail, CUR is
unchanged, and only bytes of the tile's own texels may have changed in PIX. -/
def Obligations.DectRawUnderrun : Prop :=
  ∀ (s : State) (f : Fmt), DectReady s → s.rawLen.toNat < s.cur.toNat + tileBytes f →
    ∃ pix' draws', exec (.dect f) s = .next
        ({ s with pix := pix', draws := draws' }.raise .rawUnderrun (encode (.dect f)) s.cur) ∧
      ∀ a, ¬TileByte s.width.toNat s.height.toNat s.tileX.toNat s.tileY.toNat a →
        Memory.read .pix pix' a = Memory.read .pix s.pix a

/-! ## ENCT (R177, 43_format_codecs.md) -/

/-- ENCT of the nine formats with an encoder (R177, R203): when its checks pass and the tile fits, it
completes, appends the units of the 64 texels to OUT in increasing t and advances OUT_LEN; every other
byte of OUT and everything else is unchanged. The unit of a texel outside the image is that of some
texel, any. -/
def Obligations.EnctAppendsOneTile : Prop :=
  ∀ (s : State) (f : Fmt) (enc : Texel → List Byte), EnctReady s → encodeRoutine f = some enc →
    s.outLen.toNat + tileBytes f ≤ s.params.outCap.toNat →
    ∃ out' draws', exec (.enct f) s = .next { s with
        out := out', outLen := BitVec.ofNat 64 (s.outLen.toNat + tileBytes f), draws := draws' } ∧
      (∀ a, a < s.outLen.toNat ∨ s.outLen.toNat + tileBytes f ≤ a →
        Memory.read .out out' a = Memory.read .out s.out a) ∧
      ∀ t < 64, ∃ x : Texel,
        (let p := pixelIndex s.width.toNat s.tileX.toNat s.tileY.toNat (tileRow t) (tileCol t)
         p < s.width.toNat * s.height.toNat → x = pixRead s.pix p) ∧
        64 * (enc x).length = tileBytes f ∧
        ∀ i (h : i < (enc x).length),
          Memory.read .out out' (s.outLen.toNat + t * (tileBytes f / 64) + i) = (enc x)[i]

/-- The bytes an encoder emits for a texel (R211, R216, R221, R226, R231, R236, R241, R246, R251). -/
def Obligations.EncodersEmitUnits : Prop :=
  (decode 0x00000005#32 = .ok .enctRgba4444 ∧ decode 0x00000015#32 = .ok .enctRgba5551 ∧
    decode 0x00000025#32 = .ok .enctRgba8888 ∧ decode 0x00000035#32 = .ok .enctRgb565 ∧
    decode 0x00000045#32 = .ok .enctRgb888 ∧ decode 0x00000075#32 = .ok .enctA8 ∧
    decode 0x00000095#32 = .ok .enctL8 ∧ decode 0x000000B5#32 = .ok .enctLa88 ∧
    decode 0x000000C5#32 = .ok .enctLa44) ∧
  ∀ x : Texel,
    let b := x.b.toNat
    let g := x.g.toNat
    let r := x.r.toNat
    let a := x.a.toNat
    let down := fun n v => (v * (2 ^ n - 1) + 127) / 255
    let word := fun w => some [BitVec.ofNat 8 w, BitVec.ofNat 8 (w / 256)]
    let unit := fun f => (encodeRoutine f).map fun enc => enc x
    unit .rgba4444 = word (down 4 r * 4096 + down 4 g * 256 + down 4 b * 16 + down 4 a) ∧
    unit .rgba5551 = word (down 5 r * 2048 + down 5 g * 64 + down 5 b * 2 + down 1 a) ∧
    unit .rgba8888 = some [x.a, x.b, x.g, x.r] ∧
    unit .rgb565 = word (down 5 r * 2048 + down 6 g * 32 + down 5 b) ∧
    unit .rgb888 = some [x.b, x.g, x.r] ∧
    unit .a8 = some [x.a] ∧
    unit .l8 = some [BitVec.ofNat 8 ((r + g + b) / 3)] ∧
    unit .la88 = some [x.a, BitVec.ofNat 8 ((r + g + b) / 3)] ∧
    unit .la44 = some [BitVec.ofNat 8 (down 4 ((r + g + b) / 3) * 16 + down 4 a)]

/-- The four formats without an encode routine raise UnsupportedOperation, and they are the only ones
(R239, R244, R277). -/
def Obligations.AbsentEncodersAreUnsupported : Prop :=
  (∀ f : Fmt, encodeRoutine f = none ↔ f = .etc1 ∨ f = .etc1a4 ∨ f = .a4 ∨ f = .l4) ∧
  ∀ s : State, EnctReady s →
    exec .enctEtc1 s = .next (s.raise .unsupportedOperation 0x55#32 0#64) ∧
    exec .enctEtc1a4 s = .next (s.raise .unsupportedOperation 0x65#32 0#64) ∧
    exec .enctA4 s = .next (s.raise .unsupportedOperation 0x85#32 0#64) ∧
    exec .enctL4 s = .next (s.raise .unsupportedOperation 0xA5#32 0#64)

/-- OutOverflow of ENCT (R177): a tile that would end past OUT_CAP raises it with OUT_LEN as the detail;
nothing is written and OUT_LEN is unchanged. -/
def Obligations.EnctOutOverflow : Prop :=
  ∀ (s : State) (f : Fmt) (enc : Texel → List Byte), EnctReady s → encodeRoutine f = some enc →
    s.params.outCap.toNat < s.outLen.toNat + tileBytes f →
    exec (.enct f) s = .next (s.raise .outOverflow (encode (.enct f)) s.outLen)

/-! ## DECI and ENCI (R172, R173, R174) -/

/-- The tile traversal (R174): `ceil(W/8) * ceil(H/8)` origins in row-major order. -/
def Obligations.TilesInRowMajorOrder : Prop :=
  ∀ w h : Nat, (tiles w h).length = ((w + 7) / 8) * ((h + 7) / 8) ∧
    ∀ k, k < (tiles w h).length →
      (tiles w h)[k]? = some (8 * (k % ((w + 7) / 8)), 8 * (k / ((w + 7) / 8)))

/-- DECI (R172): with a descriptor of the table and raw bytes enough, it completes: FMTSEL names the
format, CUR ends at the bytes used, TILE_X and TILE_Y hold the last origin, or their old values when
there is no tile, and nothing else changes but PIX below 4*WIDTH*HEIGHT. -/
def Obligations.DeciDecodesTheImage : Prop :=
  ∀ (s : State) (f : Fmt), ImageReady s → RawReady s →
    codeTable s.params s.dtype s.pfmt = some f → tileBytes f * tileCount s ≤ s.rawLen.toNat →
    ∃ pix', exec .deci s = .next { s with
        fmtsel := BitVec.ofNat 32 (16 + f.index)
        cur := BitVec.ofNat 64 (tileBytes f * tileCount s)
        tileX := if tileCount s = 0 then s.tileX else BitVec.ofNat 32 (8 * ((s.width.toNat + 7) / 8 - 1))
        tileY := if tileCount s = 0 then s.tileY else BitVec.ofNat 32 (8 * ((s.height.toNat + 7) / 8 - 1))
        pix := pix' } ∧
      ∀ a, 4 * (s.width.toNat * s.height.toNat) ≤ a → Memory.read .pix pix' a = Memory.read .pix s.pix a

/-- ENCI (R173): with a descriptor of the table that has an encoder and room in OUT, it completes: the
output length is TILE_BYTES times the number of tiles, and nothing else changes but FMTSEL, TILE_X,
TILE_Y and OUT below the output length. -/
def Obligations.EnciEncodesTheImage : Prop :=
  ∀ (s : State) (f : Fmt) (enc : Texel → List Byte), ImageReady s →
    codeTable s.params s.dtype s.pfmt = some f → encodeRoutine f = some enc →
    tileBytes f * tileCount s ≤ s.params.outCap.toNat →
    ∃ out' draws', exec .enci s = .next { s with
        fmtsel := BitVec.ofNat 32 (16 + f.index)
        outLen := BitVec.ofNat 64 (tileBytes f * tileCount s)
        tileX := if tileCount s = 0 then s.tileX else BitVec.ofNat 32 (8 * ((s.width.toNat + 7) / 8 - 1))
        tileY := if tileCount s = 0 then s.tileY else BitVec.ofNat 32 (8 * ((s.height.toNat + 7) / 8 - 1))
        out := out', draws := draws' } ∧
      ∀ a, tileBytes f * tileCount s ≤ a → Memory.read .out out' a = Memory.read .out s.out a

/-- A descriptor without a codec (R172, R173): with no table entry FMTSEL gets 0 before CodecNotFound;
an encode of a format without a routine raises UnsupportedOperation with FMTSEL naming the format and
everything else unchanged. The value of FMTSEL there is that of R173, R311 and R36, against the general
sentence of R313 (notes/assumptions/18.md). -/
def Obligations.ImageCommandsRejectDescriptors : Prop :=
  ∀ s : State, ImageReady s →
    (codeTable s.params s.dtype s.pfmt = none →
      (RawReady s → exec .deci s = .next ({ s with fmtsel := 0#32 }.raise .codecNotFound 6#32 0#64)) ∧
      exec .enci s = .next ({ s with fmtsel := 0#32 }.raise .codecNotFound 7#32 0#64)) ∧
    (∀ f, codeTable s.params s.dtype s.pfmt = some f → encodeRoutine f = none →
      exec .enci s = .next
        ({ s with fmtsel := BitVec.ofNat 32 (16 + f.index) }.raise .unsupportedOperation 7#32 0#64))

/-- DECI is the walk of the image by DECT (R346): a host that writes CUR = 0 and then each origin in the
order of R174, with a DECT after each, reaches the state DECI reaches, but for FMTSEL. -/
def Obligations.DeciEqualsWalkOfDect : Prop :=
  ∀ (s t : State) (f : Fmt), s.err = 0#4 → ImageReady s → RawReady s →
    codeTable s.params s.dtype s.pfmt = some f → tileBytes f * tileCount s ≤ s.rawLen.toNat →
    exec .deci s = .next t →
    let walk := (tiles s.width.toNat s.height.toNat).flatMap fun o =>
      [HostAction.wr 11#8 (BitVec.ofNat 64 o.1), HostAction.wr 12#8 (BitVec.ofNat 64 o.2),
       HostAction.issue (encode (.dect f))]
    Host.Core.run Sys2Proof.core (1 + 3 * tileCount s)
      ({ s with pending := .wr 9#8 0#64 :: walk } : State) =
        .next ({ t with fmtsel := s.fmtsel, pending := [] } : State)

/-- ENCI is the walk of the image by ENCT (R346). Where WIDTH or HEIGHT is no multiple of 8, the bytes
encoded of texels outside the image are equal only because both runs draw them by the model's counter of
draws (notes/assumptions/5.md): the spec makes them independent draws of each command (R203). -/
def Obligations.EnciEqualsWalkOfEnct : Prop :=
  ∀ (s t : State) (f : Fmt) (enc : Texel → List Byte), s.err = 0#4 → ImageReady s →
    codeTable s.params s.dtype s.pfmt = some f → encodeRoutine f = some enc →
    tileBytes f * tileCount s ≤ s.params.outCap.toNat → exec .enci s = .next t →
    let walk := (tiles s.width.toNat s.height.toNat).flatMap fun o =>
      [HostAction.wr 11#8 (BitVec.ofNat 64 o.1), HostAction.wr 12#8 (BitVec.ofNat 64 o.2),
       HostAction.issue (encode (.enct f))]
    Host.Core.run Sys2Proof.core (1 + 3 * tileCount s)
      ({ s with pending := .wr 10#8 0#64 :: walk } : State) =
        .next ({ t with fmtsel := s.fmtsel, pending := [] } : State)

/-- Full coverage (R181, R180): every texel of the image lies in a tile DECI decodes, so what DECI leaves
in the image does not depend on what PIX held, nor on anything but the descriptor, the dimensions, RAW
and the parameters. -/
def Obligations.DeciIgnoresOldPixels : Prop :=
  (∀ w h p : Nat, p < w * h → ∃ x y row col, (x, y) ∈ tiles w h ∧ row < 8 ∧ col < 8 ∧
    x + col = p % w ∧ y + row = p / w ∧ pixelIndex w x y row col = p) ∧
  ∀ (s₁ s₂ t₁ t₂ : State) (f : Fmt), ImageReady s₁ → RawReady s₁ →
    s₁.width = s₂.width → s₁.height = s₂.height → s₁.dtype = s₂.dtype → s₁.pfmt = s₂.pfmt →
    s₁.rawLen = s₂.rawLen → s₁.raw = s₂.raw → s₁.params = s₂.params →
    codeTable s₁.params s₁.dtype s₁.pfmt = some f → tileBytes f * tileCount s₁ ≤ s₁.rawLen.toNat →
    exec .deci s₁ = .next t₁ → exec .deci s₂ = .next t₂ →
    t₁.cur = t₂.cur ∧ t₁.fmtsel = t₂.fmtsel ∧
      ∀ a, a < 4 * (s₁.width.toNat * s₁.height.toNat) →
        Memory.read .pix t₁.pix a = Memory.read .pix t₂.pix a

/-- RawUnderrun inside DECI (R313): the fault falls on the first tile the raw bytes do not hold; every
earlier tile has completed; CUR and FAULT_INFO stand at that tile's start, TILE_X and TILE_Y at its
origin; and in PIX only bytes of its own texels may differ from what the earlier tiles left. -/
def Obligations.DeciStopsAtTheFailingTile : Prop :=
  ∀ (s t : State) (f : Fmt), ImageReady s → RawReady s →
    codeTable s.params s.dtype s.pfmt = some f → s.rawLen.toNat / tileBytes f < tileCount s →
    exec .deci s = .next t →
    let n := s.rawLen.toNat / tileBytes f
    ∃ (u : State) (o : Nat × Nat), (tiles s.width.toNat s.height.toNat)[n]? = some o ∧
      walkTiles (decodeTile f) ((tiles s.width.toNat s.height.toNat).take n)
        { s with fmtsel := BitVec.ofNat 32 (16 + f.index), cur := 0#64 } = .ok u ∧
      u.cur.toNat = n * tileBytes f ∧
      t = ({ u with tileX := BitVec.ofNat 32 o.1, tileY := BitVec.ofNat 32 o.2, pix := t.pix,
                    draws := t.draws } : State).raise .rawUnderrun 6#32 u.cur ∧
      ∀ a, ¬TileByte s.width.toNat s.height.toNat o.1 o.2 a →
        Memory.read .pix t.pix a = Memory.read .pix u.pix a

/-- OutOverflow inside ENCI (R313): every tile before the first that does not fit has been written, and
nothing of that tile; OUT_LEN and FAULT_INFO stand at its start, TILE_X and TILE_Y at its origin. -/
def Obligations.EnciStopsAtTheFailingTile : Prop :=
  ∀ (s t : State) (f : Fmt) (enc : Texel → List Byte), ImageReady s →
    codeTable s.params s.dtype s.pfmt = some f → encodeRoutine f = some enc →
    s.params.outCap.toNat / tileBytes f < tileCount s → exec .enci s = .next t →
    let n := s.params.outCap.toNat / tileBytes f
    ∃ (u : State) (o : Nat × Nat), (tiles s.width.toNat s.height.toNat)[n]? = some o ∧
      walkTiles (encodeTile f enc) ((tiles s.width.toNat s.height.toNat).take n)
        { s with fmtsel := BitVec.ofNat 32 (16 + f.index), outLen := 0#64 } = .ok u ∧
      u.outLen.toNat = n * tileBytes f ∧
      t = ({ u with tileX := BitVec.ofNat 32 o.1, tileY := BitVec.ofNat 32 o.2 } : State).raise
        .outOverflow 7#32 u.outLen

/-- When one texel comes back from encode and decode (R182): exactly when it meets its format's
condition. The unit is decoded as texel 0 of a stream that begins with the bytes the encoder emits. -/
def Obligations.TexelRoundTripConditions : Prop :=
  ∀ (f : Fmt) (enc : Texel → List Byte) (x : Texel), encodeRoutine f = some enc →
    let representable := fun (n : Nat) (v : Byte) => ∃ k, k < 2 ^ n ∧ v.toNat = resample k n 8
    let grey := x.r = x.g ∧ x.g = x.b
    let condition : Prop := match f with
      | .rgba8888 => True
      | .rgb888 => x.a = 255#8
      | .rgb565 => x.a = 255#8 ∧ representable 5 x.r ∧ representable 6 x.g ∧ representable 5 x.b
      | .a8 => x.r = 255#8 ∧ x.g = 255#8 ∧ x.b = 255#8
      | .l8 => grey ∧ x.a = 255#8
      | .la88 => grey
      | .la44 => grey ∧ representable 4 x.r ∧ representable 4 x.a
      | .rgba4444 => representable 4 x.r ∧ representable 4 x.g ∧ representable 4 x.b ∧ representable 4 x.a
      | .rgba5551 => representable 5 x.r ∧ representable 5 x.g ∧ representable 5 x.b ∧ representable 1 x.a
      | .etc1 | .etc1a4 | .a4 | .l4 => False
    ((decodeTexels (Memory.writeBytes [] 0 (enc x)) 0 f).head?.map Placed.texel = some x ↔ condition)

/-- The image round trip (R182): with WIDTH and HEIGHT multiples of 8, ENCI, then a copy of OUT to RAW by
the host, then DECI with the same descriptor, leaves at every texel what decoding its own encoded unit
gives; with TexelRoundTripConditions that says when the pixel buffer comes back. -/
def Obligations.ImageRoundTrip : Prop :=
  ∀ (s t u : State) (f : Fmt) (enc : Texel → List Byte), ImageReady s →
    s.width.toNat % 8 = 0 → s.height.toNat % 8 = 0 →
    codeTable s.params s.dtype s.pfmt = some f → encodeRoutine f = some enc →
    tileBytes f * tileCount s ≤ s.params.outCap.toNat →
    tileBytes f * tileCount s ≤ s.params.rawCap.toNat →
    exec .enci s = .next t → exec .deci { t with raw := t.out, rawLen := t.outLen } = .next u →
    ∀ p, p < s.width.toNat * s.height.toNat →
      (decodeTexels (Memory.writeBytes [] 0 (enc (pixRead s.pix p))) 0 f).head?.map Placed.texel =
        some (pixRead u.pix p)

/-- Direction of access (R89): encoding never touches RAW; decoding never touches OUT and never reads
PIX, so that a byte of PIX after it is either what it wrote, whatever PIX held, or what PIX held; RSMP,
TADDR, BDEC and LOOKUP touch no memory space. Two runs are compared with the free values the same in both
(notes/assumptions/5.md, 6.md). -/
def Obligations.DirectionOfAccess : Prop :=
  ∀ (i : Instr) (s t : State) (m : Memory), exec i s = .next t →
    (((∃ f, i = .enct f) ∨ i = .enci) →
      exec i { s with raw := m } = .next { t with raw := m } ∧ t.raw = s.raw ∧ t.pix = s.pix) ∧
    (((∃ f, i = .dect f) ∨ i = .deci) →
      exec i { s with out := m } = .next { t with out := m } ∧ t.out = s.out ∧ t.raw = s.raw ∧
      (∃ m', exec i { s with pix := m } = .next { t with pix := m' } ∧
        ∀ a, Memory.read .pix m' a = Memory.read .pix t.pix a ∨
          (Memory.read .pix t.pix a = Memory.read .pix s.pix a ∧
            Memory.read .pix m' a = Memory.read .pix m a))) ∧
    (((∃ a b, i = .rsmp a b) ∨ (∃ a b, i = .taddr a b) ∨ (∃ a, i = .bdec a) ∨ i = .lookup) →
      exec i { s with raw := m, pix := m, out := m } = .next { t with raw := m, pix := m, out := m } ∧
      t.raw = s.raw ∧ t.pix = s.pix ∧ t.out = s.out)

/-! ## The whole machine -/

/-- The invariant holds right after reset. -/
def Obligations.ResetStateKeepsInv : Prop := Inv State.reset

/-- Every step keeps the invariant: canonical memories within their capacities, a legal CODE_TABLE,
reserved status bits 0, legal fault code and format, RS_RES a byte, and the fault registers as R37 and
R310 say. -/
def Obligations.EveryStepKeepsInv : Prop :=
  ∀ s t : State, Inv s → step s = .next t → Inv t

/-- A run whose host accesses only existing addresses never stops, and the only stop there is comes from
an access to an address that does not exist (notes/assumptions/9.md). -/
def Obligations.SafeStatesNeverStop : Prop :=
  ∀ s : State,
    (s.safe = true → ∃ t, step s = .next t ∧ t.safe = true) ∧
    (∀ r, step s ≠ .refused r) ∧
    (∀ r, step s = .fault r → ∃ a rest, s.pending = a :: rest ∧ actionLegal s.params a = false)

/-! ## The STEX container (45_host_container.md) -/

/-- The asymmetry of R296: a file written by R295 has its data at 0x80, and the reader of R293 finds it
there exactly when the data length is a multiple of 0x100. -/
def Obligations.StexDataComesBackByLength : Prop :=
  ∀ (w h dt pf : Word32) (data : List Byte),
    (stexHeader w h dt pf data.length).length = 0x80 ∧
    (stexWrite w h dt pf data).drop 0x80 = data ∧
    (stexDataStart (stexWrite w h dt pf data) = 0x80 ↔ data.length % 0x100 = 0) ∧
    (data.length % 0x100 = 0 → stexData (stexWrite w h dt pf data) = data)

/-- Reading a written file (R291, R294): the header's four fields come back into decode_image, the data
into RAW; a file whose first bytes are not the magic is refused (R292). -/
def Obligations.StexHeaderReadsBack : Prop :=
  (∀ (w h dt pf : Word32) (data : List Byte), data.length < 2 ^ 32 →
    stexRead (stexWrite w h dt pf data) = .ok
      (.memWrite .raw 0 (stexData (stexWrite w h dt pf data)) ::
        decodeImage (w.setWidth 64) (h.setWidth 64) (dt.setWidth 64) (pf.setWidth 64)
          (BitVec.ofNat 64 (stexData (stexWrite w h dt pf data)).length))) ∧
  (∀ file : List Byte, file.take 4 ≠ [0x53#8, 0x54#8, 0x45#8, 0x58#8] →
    stexRead file = .error .magicMismatch)

/-- The layout of a written container (R295), field by field at its offset, with the block's output: the
length at 0x1C is OUT_LEN, and the data at 0x80 are OUT[0..OUT_LEN-1], what the host's read of the output
returns. Of an OUT_LEN of 2^32 or more nothing is said at 0x1C (notes/assumptions/20.md). -/
def Obligations.StexSaveHoldsTheOutput : Prop :=
  ∀ (w h dt pf : Word32) (s : State),
    let file := stexSave w h dt pf s
    let n := s.outLen.toNat
    let field := fun o => littleEndian ((file.drop o).take 4)
    file.length = 0x80 + n ∧ file.take 4 = [0x53#8, 0x54#8, 0x45#8, 0x58#8] ∧
    field 0x04 = 0 ∧ field 0x08 = 3553 ∧ field 0x0C = w.toNat ∧ field 0x10 = h.toNat ∧
    field 0x14 = dt.toNat ∧ field 0x18 = pf.toNat ∧ (n < 2 ^ 32 → field 0x1C = n) ∧ field 0x20 = 0x80 ∧
    (file.drop 0x24).take 0x5C = List.replicate 0x5C 0#8 ∧
    (∀ i, i < n → file[0x80 + i]? = some (Memory.read .out s.out i)) ∧
    (∀ rest, s.pending = .memRead .out 0 n :: rest → n ≤ s.params.outCap.toNat →
      step s = .next { s with pending := rest, reply := .bytes (file.drop 0x80) })
end

