-- ==== Sys2Proof/Laws/State.lean ====
section
/-!
SUPPORT. One lemma per field per named update of State, so that no later proof unfolds a record update:
raising a fault, reset, replacing one space's memory, and issuing a command.
-/

namespace Sys2Proof.Machine

/-! ## Raising a fault -/

@[simp] theorem State.raise_status (s : State) (f : BlockFault) (c : Word32) (info : Word64) :
    (s.raise f c info).status = statusWithErr s.status f.code := rfl
@[simp] theorem State.raise_fmtsel (s : State) (f : BlockFault) (c : Word32) (info : Word64) :
    (s.raise f c info).fmtsel = s.fmtsel := rfl
@[simp] theorem State.raise_faultCmd (s : State) (f : BlockFault) (c : Word32) (info : Word64) :
    (s.raise f c info).faultCmd = c := rfl
@[simp] theorem State.raise_faultInfo (s : State) (f : BlockFault) (c : Word32) (info : Word64) :
    (s.raise f c info).faultInfo = info := rfl
@[simp] theorem State.raise_width (s : State) (f : BlockFault) (c : Word32) (info : Word64) :
    (s.raise f c info).width = s.width := rfl
@[simp] theorem State.raise_height (s : State) (f : BlockFault) (c : Word32) (info : Word64) :
    (s.raise f c info).height = s.height := rfl
@[simp] theorem State.raise_dtype (s : State) (f : BlockFault) (c : Word32) (info : Word64) :
    (s.raise f c info).dtype = s.dtype := rfl
@[simp] theorem State.raise_pfmt (s : State) (f : BlockFault) (c : Word32) (info : Word64) :
    (s.raise f c info).pfmt = s.pfmt := rfl
@[simp] theorem State.raise_rawLen (s : State) (f : BlockFault) (c : Word32) (info : Word64) :
    (s.raise f c info).rawLen = s.rawLen := rfl
@[simp] theorem State.raise_cur (s : State) (f : BlockFault) (c : Word32) (info : Word64) :
    (s.raise f c info).cur = s.cur := rfl
@[simp] theorem State.raise_outLen (s : State) (f : BlockFault) (c : Word32) (info : Word64) :
    (s.raise f c info).outLen = s.outLen := rfl
@[simp] theorem State.raise_tileX (s : State) (f : BlockFault) (c : Word32) (info : Word64) :
    (s.raise f c info).tileX = s.tileX := rfl
@[simp] theorem State.raise_tileY (s : State) (f : BlockFault) (c : Word32) (info : Word64) :
    (s.raise f c info).tileY = s.tileY := rfl
@[simp] theorem State.raise_rsVal (s : State) (f : BlockFault) (c : Word32) (info : Word64) :
    (s.raise f c info).rsVal = s.rsVal := rfl
@[simp] theorem State.raise_rsRes (s : State) (f : BlockFault) (c : Word32) (info : Word64) :
    (s.raise f c info).rsRes = s.rsRes := rfl
@[simp] theorem State.raise_taPix (s : State) (f : BlockFault) (c : Word32) (info : Word64) :
    (s.raise f c info).taPix = s.taPix := rfl
@[simp] theorem State.raise_taOff (s : State) (f : BlockFault) (c : Word32) (info : Word64) :
    (s.raise f c info).taOff = s.taOff := rfl
@[simp] theorem State.raise_bdDesc (s : State) (f : BlockFault) (c : Word32) (info : Word64) :
    (s.raise f c info).bdDesc = s.bdDesc := rfl
@[simp] theorem State.raise_bdAlpha (s : State) (f : BlockFault) (c : Word32) (info : Word64) :
    (s.raise f c info).bdAlpha = s.bdAlpha := rfl
@[simp] theorem State.raise_bdTex (s : State) (f : BlockFault) (c : Word32) (info : Word64) :
    (s.raise f c info).bdTex = s.bdTex := rfl
@[simp] theorem State.raise_raw (s : State) (f : BlockFault) (c : Word32) (info : Word64) :
    (s.raise f c info).raw = s.raw := rfl
@[simp] theorem State.raise_pix (s : State) (f : BlockFault) (c : Word32) (info : Word64) :
    (s.raise f c info).pix = s.pix := rfl
@[simp] theorem State.raise_out (s : State) (f : BlockFault) (c : Word32) (info : Word64) :
    (s.raise f c info).out = s.out := rfl
@[simp] theorem State.raise_params (s : State) (f : BlockFault) (c : Word32) (info : Word64) :
    (s.raise f c info).params = s.params := rfl
@[simp] theorem State.raise_pending (s : State) (f : BlockFault) (c : Word32) (info : Word64) :
    (s.raise f c info).pending = s.pending := rfl
@[simp] theorem State.raise_reply (s : State) (f : BlockFault) (c : Word32) (info : Word64) :
    (s.raise f c info).reply = s.reply := rfl
@[simp] theorem State.raise_draws (s : State) (f : BlockFault) (c : Word32) (info : Word64) :
    (s.raise f c info).draws = s.draws := rfl

/-! ## Reset -/

@[simp] theorem State.resetRegisters_status (s : State) : s.resetRegisters.status = 0#32 := rfl
@[simp] theorem State.resetRegisters_fmtsel (s : State) : s.resetRegisters.fmtsel = 0#32 := rfl
@[simp] theorem State.resetRegisters_faultCmd (s : State) : s.resetRegisters.faultCmd = 0#32 := rfl
@[simp] theorem State.resetRegisters_faultInfo (s : State) : s.resetRegisters.faultInfo = 0#64 := rfl
@[simp] theorem State.resetRegisters_width (s : State) : s.resetRegisters.width = 0#32 := rfl
@[simp] theorem State.resetRegisters_height (s : State) : s.resetRegisters.height = 0#32 := rfl
@[simp] theorem State.resetRegisters_dtype (s : State) : s.resetRegisters.dtype = 0#32 := rfl
@[simp] theorem State.resetRegisters_pfmt (s : State) : s.resetRegisters.pfmt = 0#32 := rfl
@[simp] theorem State.resetRegisters_rawLen (s : State) : s.resetRegisters.rawLen = 0#64 := rfl
@[simp] theorem State.resetRegisters_cur (s : State) : s.resetRegisters.cur = 0#64 := rfl
@[simp] theorem State.resetRegisters_outLen (s : State) : s.resetRegisters.outLen = 0#64 := rfl
@[simp] theorem State.resetRegisters_tileX (s : State) : s.resetRegisters.tileX = 0#32 := rfl
@[simp] theorem State.resetRegisters_tileY (s : State) : s.resetRegisters.tileY = 0#32 := rfl
@[simp] theorem State.resetRegisters_rsVal (s : State) : s.resetRegisters.rsVal = 0#32 := rfl
@[simp] theorem State.resetRegisters_rsRes (s : State) : s.resetRegisters.rsRes = 0#32 := rfl
@[simp] theorem State.resetRegisters_taPix (s : State) : s.resetRegisters.taPix = 0#64 := rfl
@[simp] theorem State.resetRegisters_taOff (s : State) : s.resetRegisters.taOff = 0#64 := rfl
@[simp] theorem State.resetRegisters_bdDesc (s : State) : s.resetRegisters.bdDesc = 0#64 := rfl
@[simp] theorem State.resetRegisters_bdAlpha (s : State) : s.resetRegisters.bdAlpha = 0#64 := rfl
@[simp] theorem State.resetRegisters_bdTex (s : State) : s.resetRegisters.bdTex = Vector.replicate 16 0#32 := rfl
@[simp] theorem State.resetRegisters_raw (s : State) : s.resetRegisters.raw = s.raw := rfl
@[simp] theorem State.resetRegisters_pix (s : State) : s.resetRegisters.pix = s.pix := rfl
@[simp] theorem State.resetRegisters_out (s : State) : s.resetRegisters.out = s.out := rfl
@[simp] theorem State.resetRegisters_params (s : State) : s.resetRegisters.params = s.params := rfl
@[simp] theorem State.resetRegisters_pending (s : State) : s.resetRegisters.pending = s.pending := rfl
@[simp] theorem State.resetRegisters_reply (s : State) : s.resetRegisters.reply = s.reply := rfl
@[simp] theorem State.resetRegisters_draws (s : State) : s.resetRegisters.draws = s.draws := rfl

/-! ## One space's memory -/

@[simp] theorem State.withMemory_status (s : State) (sp : Space) (m : Memory) :
    (s.withMemory sp m).status = s.status := by cases sp <;> rfl
@[simp] theorem State.withMemory_fmtsel (s : State) (sp : Space) (m : Memory) :
    (s.withMemory sp m).fmtsel = s.fmtsel := by cases sp <;> rfl
@[simp] theorem State.withMemory_faultCmd (s : State) (sp : Space) (m : Memory) :
    (s.withMemory sp m).faultCmd = s.faultCmd := by cases sp <;> rfl
@[simp] theorem State.withMemory_faultInfo (s : State) (sp : Space) (m : Memory) :
    (s.withMemory sp m).faultInfo = s.faultInfo := by cases sp <;> rfl
@[simp] theorem State.withMemory_width (s : State) (sp : Space) (m : Memory) :
    (s.withMemory sp m).width = s.width := by cases sp <;> rfl
@[simp] theorem State.withMemory_height (s : State) (sp : Space) (m : Memory) :
    (s.withMemory sp m).height = s.height := by cases sp <;> rfl
@[simp] theorem State.withMemory_dtype (s : State) (sp : Space) (m : Memory) :
    (s.withMemory sp m).dtype = s.dtype := by cases sp <;> rfl
@[simp] theorem State.withMemory_pfmt (s : State) (sp : Space) (m : Memory) :
    (s.withMemory sp m).pfmt = s.pfmt := by cases sp <;> rfl
@[simp] theorem State.withMemory_rawLen (s : State) (sp : Space) (m : Memory) :
    (s.withMemory sp m).rawLen = s.rawLen := by cases sp <;> rfl
@[simp] theorem State.withMemory_cur (s : State) (sp : Space) (m : Memory) :
    (s.withMemory sp m).cur = s.cur := by cases sp <;> rfl
@[simp] theorem State.withMemory_outLen (s : State) (sp : Space) (m : Memory) :
    (s.withMemory sp m).outLen = s.outLen := by cases sp <;> rfl
@[simp] theorem State.withMemory_tileX (s : State) (sp : Space) (m : Memory) :
    (s.withMemory sp m).tileX = s.tileX := by cases sp <;> rfl
@[simp] theorem State.withMemory_tileY (s : State) (sp : Space) (m : Memory) :
    (s.withMemory sp m).tileY = s.tileY := by cases sp <;> rfl
@[simp] theorem State.withMemory_rsVal (s : State) (sp : Space) (m : Memory) :
    (s.withMemory sp m).rsVal = s.rsVal := by cases sp <;> rfl
@[simp] theorem State.withMemory_rsRes (s : State) (sp : Space) (m : Memory) :
    (s.withMemory sp m).rsRes = s.rsRes := by cases sp <;> rfl
@[simp] theorem State.withMemory_taPix (s : State) (sp : Space) (m : Memory) :
    (s.withMemory sp m).taPix = s.taPix := by cases sp <;> rfl
@[simp] theorem State.withMemory_taOff (s : State) (sp : Space) (m : Memory) :
    (s.withMemory sp m).taOff = s.taOff := by cases sp <;> rfl
@[simp] theorem State.withMemory_bdDesc (s : State) (sp : Space) (m : Memory) :
    (s.withMemory sp m).bdDesc = s.bdDesc := by cases sp <;> rfl
@[simp] theorem State.withMemory_bdAlpha (s : State) (sp : Space) (m : Memory) :
    (s.withMemory sp m).bdAlpha = s.bdAlpha := by cases sp <;> rfl
@[simp] theorem State.withMemory_bdTex (s : State) (sp : Space) (m : Memory) :
    (s.withMemory sp m).bdTex = s.bdTex := by cases sp <;> rfl
@[simp] theorem State.withMemory_params (s : State) (sp : Space) (m : Memory) :
    (s.withMemory sp m).params = s.params := by cases sp <;> rfl
@[simp] theorem State.withMemory_pending (s : State) (sp : Space) (m : Memory) :
    (s.withMemory sp m).pending = s.pending := by cases sp <;> rfl
@[simp] theorem State.withMemory_reply (s : State) (sp : Space) (m : Memory) :
    (s.withMemory sp m).reply = s.reply := by cases sp <;> rfl
@[simp] theorem State.withMemory_draws (s : State) (sp : Space) (m : Memory) :
    (s.withMemory sp m).draws = s.draws := by cases sp <;> rfl
@[simp] theorem State.withMemory_memory (s : State) (sp : Space) (m : Memory) :
    (s.withMemory sp m).memory sp = m := by cases sp <;> rfl
theorem State.withMemory_memory_other (s : State) (sp sp' : Space) (m : Memory) (h : sp' ≠ sp) :
    (s.withMemory sp m).memory sp' = s.memory sp' := by cases sp <;> cases sp' <;> first | rfl | exact absurd rfl h

/-! ## Issuing a command -/

@[simp] theorem issueNext_status (s : State) (c : Word32) : (issueNext s c).status = s.status := rfl
@[simp] theorem issueNext_fmtsel (s : State) (c : Word32) : (issueNext s c).fmtsel = s.fmtsel := rfl
@[simp] theorem issueNext_faultCmd (s : State) (c : Word32) : (issueNext s c).faultCmd = s.faultCmd := rfl
@[simp] theorem issueNext_faultInfo (s : State) (c : Word32) : (issueNext s c).faultInfo = s.faultInfo := rfl
@[simp] theorem issueNext_width (s : State) (c : Word32) : (issueNext s c).width = s.width := rfl
@[simp] theorem issueNext_height (s : State) (c : Word32) : (issueNext s c).height = s.height := rfl
@[simp] theorem issueNext_dtype (s : State) (c : Word32) : (issueNext s c).dtype = s.dtype := rfl
@[simp] theorem issueNext_pfmt (s : State) (c : Word32) : (issueNext s c).pfmt = s.pfmt := rfl
@[simp] theorem issueNext_rawLen (s : State) (c : Word32) : (issueNext s c).rawLen = s.rawLen := rfl
@[simp] theorem issueNext_cur (s : State) (c : Word32) : (issueNext s c).cur = s.cur := rfl
@[simp] theorem issueNext_outLen (s : State) (c : Word32) : (issueNext s c).outLen = s.outLen := rfl
@[simp] theorem issueNext_tileX (s : State) (c : Word32) : (issueNext s c).tileX = s.tileX := rfl
@[simp] theorem issueNext_tileY (s : State) (c : Word32) : (issueNext s c).tileY = s.tileY := rfl
@[simp] theorem issueNext_rsVal (s : State) (c : Word32) : (issueNext s c).rsVal = s.rsVal := rfl
@[simp] theorem issueNext_rsRes (s : State) (c : Word32) : (issueNext s c).rsRes = s.rsRes := rfl
@[simp] theorem issueNext_taPix (s : State) (c : Word32) : (issueNext s c).taPix = s.taPix := rfl
@[simp] theorem issueNext_taOff (s : State) (c : Word32) : (issueNext s c).taOff = s.taOff := rfl
@[simp] theorem issueNext_bdDesc (s : State) (c : Word32) : (issueNext s c).bdDesc = s.bdDesc := rfl
@[simp] theorem issueNext_bdAlpha (s : State) (c : Word32) : (issueNext s c).bdAlpha = s.bdAlpha := rfl
@[simp] theorem issueNext_bdTex (s : State) (c : Word32) : (issueNext s c).bdTex = s.bdTex := rfl
@[simp] theorem issueNext_raw (s : State) (c : Word32) : (issueNext s c).raw = s.raw := rfl
@[simp] theorem issueNext_pix (s : State) (c : Word32) : (issueNext s c).pix = s.pix := rfl
@[simp] theorem issueNext_out (s : State) (c : Word32) : (issueNext s c).out = s.out := rfl
@[simp] theorem issueNext_params (s : State) (c : Word32) : (issueNext s c).params = s.params := rfl
@[simp] theorem issueNext_pending (s : State) (c : Word32) : (issueNext s c).pending = .issue c :: s.pending := rfl
@[simp] theorem issueNext_reply (s : State) (c : Word32) : (issueNext s c).reply = s.reply := rfl
@[simp] theorem issueNext_draws (s : State) (c : Word32) : (issueNext s c).draws = s.draws := rfl

/-! ## How a command ends -/

@[simp] theorem Res.finish_ok (c : Word32) (s : State) : (Res.ok s).finish c = s := rfl
@[simp] theorem Res.finish_raised (c : Word32) (f : BlockFault) (info : Word64) (s : State) :
    (Res.raised f info s).finish c = s.raise f c info := rfl
theorem command_eq (i : Instr) (r : Res) : command i r = .next (r.finish (encode i)) := rfl

/-! ## Taking the next action -/

theorem step_idle (s : State) (h : s.pending = []) : step s = .next s := by
  simp only [step, takeAction, h, wait]

theorem step_action (s : State) (act : HostAction) (rest : List HostAction) (h : s.pending = act :: rest) :
    step s = perform act { s with pending := rest } := by
  simp only [step, takeAction, h]

end Sys2Proof.Machine
end

