-- ==== Sys2Proof/Laws/Status.lean ====
section
/-!
SUPPORT. The fields of a word and of the status registers: what each reads after each write.
-/

namespace Sys2Proof

theorem bits_eq {n : Nat} (v : BitVec n) (hi lo : Nat) :
    bits v hi lo = v.toNat / 2 ^ lo % 2 ^ (hi - lo + 1) := by
  simp [bits, BitVec.extractLsb_toNat, Nat.shiftRight_eq_div_pow]

end Sys2Proof

namespace Sys2Proof.Machine

theorem statusWithErr_toNat (w : Word32) (e : BitVec 4) :
    (statusWithErr w e).toNat = w.toNat / 16 * 16 + e.toNat := by
  have hw := w.isLt
  simp only [statusWithErr, BitVec.toNat_append, BitVec.extractLsb_toNat, Nat.shiftRight_eq_div_pow]
  rw [← Nat.shiftLeft_add_eq_or_of_lt e.isLt, Nat.shiftLeft_eq]
  omega

theorem statusWithInb_toNat (w : Word32) (b : Bool) :
    (statusWithInb w b).toNat = w.toNat / 32 * 32 + b.toNat * 16 + w.toNat % 16 := by
  have hw := w.isLt
  have h4 : w.toNat % 16 < 2 ^ 4 := Nat.mod_lt _ (by decide)
  have hb : b.toNat < 2 := by cases b <;> decide
  have inner : b.toNat <<< 4 ||| w.toNat % 16 = b.toNat * 16 + w.toNat % 16 := by
    rw [← Nat.shiftLeft_add_eq_or_of_lt h4, Nat.shiftLeft_eq]
  have outer : (w.toNat / 32) <<< 5 ||| (b.toNat * 16 + w.toNat % 16) =
      w.toNat / 32 * 32 + (b.toNat * 16 + w.toNat % 16) := by
    rw [← Nat.shiftLeft_add_eq_or_of_lt (by omega), Nat.shiftLeft_eq]
  have hmod : w.toNat / 32 % 2 ^ 27 = w.toNat / 32 := by omega
  unfold statusWithInb
  rw [BitVec.toNat_append, BitVec.toNat_append, BitVec.extractLsb_toNat, BitVec.extractLsb_toNat,
    BitVec.toNat_ofBool]
  simp only [Nat.shiftRight_eq_div_pow]
  norm_num only at inner outer hmod ⊢
  rw [Nat.div_one, inner, hmod, outer]
  omega

theorem err_toNat (s : State) : s.err.toNat = s.status.toNat % 16 := by
  simp [State.err, BitVec.extractLsb_toNat]

theorem inb_eq (s : State) : s.inb = decide (s.status.toNat / 16 % 2 = 1) := by
  simp [State.inb, BitVec.getLsbD, Nat.testBit_eq_decide_div_mod_eq]

theorem err_statusWithErr (w : Word32) (e : BitVec 4) : (statusWithErr w e).extractLsb 3 0 = e := by
  apply BitVec.eq_of_toNat_eq
  have := e.isLt
  simp only [BitVec.extractLsb_toNat, statusWithErr_toNat, Nat.shiftRight_zero]
  omega

theorem reserved_statusWithErr (w : Word32) (e : BitVec 4) :
    (statusWithErr w e).extractLsb 31 5 = w.extractLsb 31 5 := by
  apply BitVec.eq_of_toNat_eq
  have := e.isLt
  simp only [BitVec.extractLsb_toNat, statusWithErr_toNat, Nat.shiftRight_eq_div_pow]
  omega

theorem inb_statusWithErr (w : Word32) (e : BitVec 4) : (statusWithErr w e).getLsbD 4 = w.getLsbD 4 := by
  have := e.isLt
  simp only [BitVec.getLsbD, Nat.testBit_eq_decide_div_mod_eq, statusWithErr_toNat, decide_eq_decide]
  omega

theorem err_statusWithInb (w : Word32) (b : Bool) :
    (statusWithInb w b).extractLsb 3 0 = w.extractLsb 3 0 := by
  apply BitVec.eq_of_toNat_eq
  simp only [BitVec.extractLsb_toNat, statusWithInb_toNat, Nat.shiftRight_zero]
  omega

theorem reserved_statusWithInb (w : Word32) (b : Bool) :
    (statusWithInb w b).extractLsb 31 5 = w.extractLsb 31 5 := by
  apply BitVec.eq_of_toNat_eq
  have hb : b.toNat < 2 := by cases b <;> decide
  simp only [BitVec.extractLsb_toNat, statusWithInb_toNat, Nat.shiftRight_eq_div_pow]
  omega

theorem inb_statusWithInb (w : Word32) (b : Bool) : (statusWithInb w b).getLsbD 4 = b := by
  simp only [BitVec.getLsbD, Nat.testBit_eq_decide_div_mod_eq, statusWithInb_toNat]
  cases b <;> simp <;> omega

@[simp] theorem raise_err (s : State) (f : BlockFault) (c : Word32) (info : Word64) :
    (s.raise f c info).err = f.code := err_statusWithErr _ _

@[simp] theorem raise_inb (s : State) (f : BlockFault) (c : Word32) (info : Word64) :
    (s.raise f c info).inb = s.inb := inb_statusWithErr _ _

theorem code_ne_zero (f : BlockFault) : f.code ≠ 0#4 := by cases f <;> decide

theorem code_le (f : BlockFault) : f.code.toNat ≤ 6 := by cases f <;> decide

/-- With ERR 0, replacing ERR is setting its bits. -/
theorem statusWithErr_of_zero (w : Word32) (e : BitVec 4) (h : w.extractLsb 3 0 = 0#4) :
    statusWithErr w e = w ||| e.setWidth 32 := by
  have h0 : w.toNat % 16 = 0 := by
    simpa [BitVec.extractLsb_toNat] using congrArg BitVec.toNat h
  apply BitVec.eq_of_toNat_eq
  have he := e.isLt
  have hw : w.toNat = (w.toNat / 16) <<< 4 := by rw [Nat.shiftLeft_eq]; omega
  have h2 : e.toNat % 2 ^ 32 = e.toNat := by omega
  rw [statusWithErr_toNat, BitVec.toNat_or, BitVec.toNat_setWidth, h2, hw,
    ← Nat.shiftLeft_add_eq_or_of_lt he, Nat.shiftLeft_eq]
  omega

theorem index_le (f : Fmt) : f.index ≤ 12 := by cases f <;> decide

theorem fmtselOf_eq (f : Fmt) : fmtselOf f = BitVec.ofNat 32 (16 + f.index) := by cases f <;> decide

theorem fmtselOf_fields (f : Fmt) :
    (fmtselOf f).extractLsb 31 5 = 0#27 ∧ ((fmtselOf f).extractLsb 3 0).toNat = f.index ∧
      (fmtselOf f).getLsbD 4 = true := by cases f <;> decide

end Sys2Proof.Machine
end

