-- ==== Sys2Proof/Laws/Encoding.lean ====
section
/-!
SUPPORT. What the command word and its fields are as numbers, and what the decoder can answer.
-/

namespace Sys2Proof

theorem commandWord_toNat (op fmt a b : Nat) (h1 : op < 16) (h2 : fmt < 16) (h3 : a < 256) (h4 : b < 256) :
    (commandWord op fmt a b).toNat = op + fmt * 16 + a * 256 + b * 65536 := by
  simp only [commandWord, BitVec.toNat_ofNat]
  omega

theorem Fmt.ofIndex_index (f : Fmt) : Fmt.ofIndex f.index = some f := by cases f <;> rfl

theorem Fmt.ofIndex_some {n : Nat} {f : Fmt} (h : Fmt.ofIndex n = some f) : n = f.index := by
  unfold Fmt.ofIndex at h
  split at h <;> first | (cases h; rfl) | cases h

theorem Fmt.ofIndex_none {n : Nat} (h : Fmt.ofIndex n = none) : 13 ≤ n := by
  by_contra hn
  have : n < 13 := by omega
  interval_cases n <;> cases h

theorem encode_dect (f : Fmt) : encode (.dect f) = commandWord 4 f.index 0 0 := by cases f <;> rfl

theorem encode_enct (f : Fmt) : encode (.enct f) = commandWord 5 f.index 0 0 := by cases f <;> rfl

theorem dect_wellFormed (f : Fmt) : (Instr.dect f).wellFormed = true := by cases f <;> rfl

theorem enct_wellFormed (f : Fmt) : (Instr.enct f).wellFormed = true := by cases f <;> rfl

/-- A word is the sum of its fields. -/
theorem word_fields (c : Word32) :
    c.toNat = bits c 3 0 + bits c 7 4 * 16 + bits c 15 8 * 256 + bits c 23 16 * 65536 +
      bits c 31 24 * 16777216 := by
  have := c.isLt
  simp only [bits_eq]
  omega

/-- What the decoder can answer: each instruction with the fields it was read from, or the reason it
reads none. -/
theorem decode_cases (c : Word32) {r : Except Reject Instr} (h : decode c = r) :
    (r = .error .reservedField ∨ r = .error .reservedOp) ∨
    (bits c 31 24 = 0 ∧
      ((bits c 3 0 = 0 ∧ bits c 7 4 = 0 ∧ bits c 15 8 = 0 ∧ bits c 23 16 = 0 ∧ r = .ok .lookup) ∨
       (bits c 3 0 = 1 ∧ bits c 7 4 = 0 ∧ bits c 15 12 = 0 ∧ bits c 23 20 = 0 ∧
          r = .ok (.rsmp (bits c 11 8) (bits c 19 16))) ∨
       (bits c 3 0 = 2 ∧ bits c 7 4 = 0 ∧ bits c 15 14 = 0 ∧ bits c 23 20 = 0 ∧
          r = .ok (.taddr (bits c 13 8) (bits c 19 16))) ∨
       (bits c 3 0 = 3 ∧ bits c 7 4 = 0 ∧ bits c 15 9 = 0 ∧ bits c 23 16 = 0 ∧
          r = .ok (.bdec (bits c 8 8 == 1))) ∨
       (bits c 3 0 = 4 ∧ bits c 15 8 = 0 ∧ bits c 23 16 = 0 ∧
          ((∃ f, bits c 7 4 = f.index ∧ r = .ok (.dect f)) ∨ (13 ≤ bits c 7 4 ∧ r = .error .dectNoCodec))) ∨
       (bits c 3 0 = 5 ∧ bits c 15 8 = 0 ∧ bits c 23 16 = 0 ∧
          ((∃ f, bits c 7 4 = f.index ∧ r = .ok (.enct f)) ∨ (13 ≤ bits c 7 4 ∧ r = .error .enctNoCodec))) ∨
       (bits c 3 0 = 6 ∧ bits c 7 4 = 0 ∧ bits c 15 8 = 0 ∧ bits c 23 16 = 0 ∧ r = .ok .deci) ∨
       (bits c 3 0 = 7 ∧ bits c 7 4 = 0 ∧ bits c 15 8 = 0 ∧ bits c 23 16 = 0 ∧ r = .ok .enci))) := by
  subst h
  by_cases hr : bits c 31 24 = 0
  swap
  · exact .inl (.inl (by simp [decode, hr]))
  by_cases ho : bits c 3 0 < 8
  swap
  · refine .inl (.inr ?_)
    unfold decode
    simp only [hr, ne_eq, not_true_eq_false, if_false]
    split <;> first | omega | rfl
  obtain h | h | h | h | h | h | h | h : bits c 3 0 = 0 ∨ bits c 3 0 = 1 ∨ bits c 3 0 = 2 ∨ bits c 3 0 = 3 ∨
      bits c 3 0 = 4 ∨ bits c 3 0 = 5 ∨ bits c 3 0 = 6 ∨ bits c 3 0 = 7 := by omega
  all_goals
    simp only [decode, h, hr, ne_eq, not_true_eq_false, if_false]
    split
    case isFalse => exact .inl (.inl rfl)
  case isTrue hc => exact .inr ⟨trivial, .inl ⟨trivial, hc.1, hc.2.1, hc.2.2, rfl⟩⟩
  case isTrue hc => exact .inr ⟨trivial, .inr (.inl ⟨trivial, hc.1, hc.2.1, hc.2.2, rfl⟩)⟩
  case isTrue hc => exact .inr ⟨trivial, .inr (.inr (.inl ⟨trivial, hc.1, hc.2.1, hc.2.2, rfl⟩))⟩
  case isTrue hc => exact .inr ⟨trivial, .inr (.inr (.inr (.inl ⟨trivial, hc.1, hc.2.1, hc.2.2, rfl⟩)))⟩
  case isTrue hc =>
    refine .inr ⟨trivial, .inr (.inr (.inr (.inr (.inl ⟨trivial, hc.1, hc.2, ?_⟩))))⟩
    cases hf : Fmt.ofIndex (bits c 7 4) with
    | some f => exact .inl ⟨f, Fmt.ofIndex_some hf, rfl⟩
    | none => exact .inr ⟨Fmt.ofIndex_none hf, rfl⟩
  case isTrue hc =>
    refine .inr ⟨trivial, .inr (.inr (.inr (.inr (.inr (.inl ⟨trivial, hc.1, hc.2, ?_⟩)))))⟩
    cases hf : Fmt.ofIndex (bits c 7 4) with
    | some f => exact .inl ⟨f, Fmt.ofIndex_some hf, rfl⟩
    | none => exact .inr ⟨Fmt.ofIndex_none hf, rfl⟩
  case isTrue hc =>
    exact .inr ⟨trivial, .inr (.inr (.inr (.inr (.inr (.inr (.inl ⟨trivial, hc.1, hc.2.1, hc.2.2, rfl⟩))))))⟩
  case isTrue hc =>
    exact .inr ⟨trivial, .inr (.inr (.inr (.inr (.inr (.inr (.inr ⟨trivial, hc.1, hc.2.1, hc.2.2, rfl⟩))))))⟩

end Sys2Proof
end

