-- ==== Sys2Proof/Laws/Memory.lean ====
section
/-!
SUPPORT. The memory operations: what each byte reads after a write, and that every operation keeps the
canonical form.
-/

namespace Sys2Proof.Machine

/-! ## One byte -/

theorem find_write (m : Memory) (a b : Nat) (v : Byte) :
    Memory.find (Memory.write m a v) b = if b = a then some v else Memory.find m b := by
  induction m with
  | nil =>
    simp only [Memory.write, Memory.find]
    by_cases h : b = a
    · subst h; simp
    · simp [h, Ne.symm h]
  | cons c m ih =>
    obtain ⟨k, w⟩ := c
    simp only [Memory.write]
    split
    · simp only [Memory.find]
      by_cases h : b = a
      · subst h; simp
      · simp [h, Ne.symm h]
    · split
      · rename_i hk
        subst hk
        simp only [Memory.find]
        by_cases h : b = a
        · subst h; simp
        · simp [h, Ne.symm h]
      · rename_i hne
        simp only [Memory.find, ih]
        by_cases h : b = a
        · subst h; simp [Ne.symm hne]
        · simp [h]

theorem read_write (sp : Space) (m : Memory) (a b : Nat) (v : Byte) :
    Memory.read sp (Memory.write m a v) b = if b = a then v else Memory.read sp m b := by
  simp only [Memory.read, find_write]
  split <;> rfl

theorem mem_write {m : Memory} {a : Nat} {v : Byte} {c : Host.Cell} (h : c ∈ Memory.write m a v) :
    c = (a, v) ∨ c ∈ m := by
  induction m with
  | nil => simpa [Memory.write] using h
  | cons d m ih =>
    obtain ⟨k, w⟩ := d
    simp only [Memory.write] at h
    split at h
    · simpa using h
    · split at h
      · rcases List.mem_cons.1 h with h | h
        · exact .inl h
        · exact .inr (List.mem_cons_of_mem _ h)
      · rcases List.mem_cons.1 h with h | h
        · exact .inr (h ▸ List.mem_cons_self)
        · exact (ih h).imp id (List.mem_cons_of_mem _)

theorem write_wf {m : Memory} (a : Nat) (v : Byte) (h : m.wf) : Memory.wf (Memory.write m a v) := by
  induction m with
  | nil => exact List.pairwise_singleton _ _
  | cons d m ih =>
    obtain ⟨k, w⟩ := d
    obtain ⟨hk, hm⟩ := List.pairwise_cons.1 h
    simp only [Memory.write]
    split
    · rename_i ha
      refine List.pairwise_cons.2 ⟨fun c hc => ?_, h⟩
      rcases List.mem_cons.1 hc with rfl | hc
      · exact ha
      · exact Nat.lt_trans ha (hk c hc)
    · split
      · rename_i ha
        subst ha
        exact List.pairwise_cons.2 ⟨hk, hm⟩
      · refine List.pairwise_cons.2 ⟨fun c hc => ?_, ih hm⟩
        rcases mem_write hc with rfl | hc
        · simp only; omega
        · exact hk c hc

/-! ## Many bytes -/

theorem read_writeBytes (sp : Space) (m : Memory) (a b : Nat) (bs : List Byte) :
    Memory.read sp (Memory.writeBytes m a bs) b =
      if a ≤ b ∧ b < a + bs.length then bs.getD (b - a) 0#8 else Memory.read sp m b := by
  induction bs generalizing m a with
  | nil =>
    rw [if_neg (by simp only [List.length_nil]; omega)]
    rfl
  | cons v bs ih =>
    simp only [Memory.writeBytes, ih, read_write, List.length_cons]
    by_cases h : b = a
    · subst h; simp
    · by_cases h1 : a + 1 ≤ b ∧ b < a + 1 + bs.length
      · have h2 : a ≤ b ∧ b < a + (bs.length + 1) := by omega
        obtain ⟨k, hk⟩ : ∃ k, b - a = k + 1 := ⟨b - a - 1, by omega⟩
        have hk' : b - (a + 1) = k := by omega
        simp [h1, h2, hk, hk']
      · have h2 : ¬(a ≤ b ∧ b < a + (bs.length + 1)) := by omega
        rw [if_neg h1, if_neg h2, if_neg h]

theorem writeBytes_wf {m : Memory} (a : Nat) (bs : List Byte) (h : m.wf) :
    Memory.wf (Memory.writeBytes m a bs) := by
  induction bs generalizing m a with
  | nil => exact h
  | cons v bs ih => exact ih (a + 1) (write_wf a v h)

theorem mem_writeBytes {m : Memory} {a : Nat} {bs : List Byte} {c : Host.Cell}
    (h : c ∈ Memory.writeBytes m a bs) : (a ≤ c.1 ∧ c.1 < a + bs.length) ∨ c ∈ m := by
  induction bs generalizing m a with
  | nil => exact .inr h
  | cons v bs ih =>
    rcases ih h with h | h
    · left; simp only [List.length_cons]; omega
    · rcases mem_write h with rfl | h
      · left; simp
      · exact .inr h

theorem readBytes_length (sp : Space) (m : Memory) (a n : Nat) : (Memory.readBytes sp m a n).length = n := by
  simp [Memory.readBytes]

/-! ## Texels -/

/-- The byte of a texel at a place 0 to 3 of its four (R17). -/
def Texel.byteAt (x : Texel) (k : Nat) : Byte := x.bytes.getD k 0#8

theorem read_pixWrite (m : Memory) (p a : Nat) (x : Texel) :
    Memory.read .pix (pixWrite m p x) a = if a / 4 = p then x.byteAt (a % 4) else Memory.read .pix m a := by
  have hlen : x.bytes.length = 4 := rfl
  simp only [pixWrite, read_writeBytes, hlen, Texel.byteAt]
  by_cases h : a / 4 = p
  · have h1 : 4 * p ≤ a ∧ a < 4 * p + 4 := by omega
    have h2 : a - 4 * p = a % 4 := by omega
    simp [h, h1, h2]
  · have h1 : ¬(4 * p ≤ a ∧ a < 4 * p + 4) := by omega
    simp [h, h1]

theorem pixWrite_wf {m : Memory} (p : Nat) (x : Texel) (h : m.wf) : Memory.wf (pixWrite m p x) :=
  writeBytes_wf _ _ h

theorem Texel.byteAt_b (x : Texel) : x.byteAt 0 = x.b := rfl
theorem Texel.byteAt_g (x : Texel) : x.byteAt 1 = x.g := rfl
theorem Texel.byteAt_r (x : Texel) : x.byteAt 2 = x.r := rfl
theorem Texel.byteAt_a (x : Texel) : x.byteAt 3 = x.a := rfl

/-- A texel reads as the value its four bytes give. -/
theorem pixRead_of_bytes (m : Memory) (p : Nat) (x : Texel)
    (h : ∀ a, a / 4 = p → Memory.read .pix m a = x.byteAt (a % 4)) : pixRead m p = x := by
  unfold pixRead
  rw [h (4 * p) (by omega), h (4 * p + 1) (by omega), h (4 * p + 2) (by omega), h (4 * p + 3) (by omega),
    show (4 * p) % 4 = 0 by omega, show (4 * p + 1) % 4 = 1 by omega, show (4 * p + 2) % 4 = 2 by omega,
    show (4 * p + 3) % 4 = 3 by omega]
  rfl

theorem pixRead_pixWrite (m : Memory) (p : Nat) (x : Texel) : pixRead (pixWrite m p x) p = x :=
  pixRead_of_bytes _ _ _ fun a h => by rw [read_pixWrite, if_pos h]

/-- Equal bytes give equal texels. -/
theorem pixRead_congr {m m' : Memory} {p : Nat}
    (h : ∀ a, a / 4 = p → Memory.read .pix m a = Memory.read .pix m' a) : pixRead m p = pixRead m' p := by
  simp only [pixRead]
  rw [h (4 * p) (by omega), h (4 * p + 1) (by omega), h (4 * p + 2) (by omega), h (4 * p + 3) (by omega)]

/-! ## The texels of a tile -/

/-- The pixel index a placed texel addresses in a frame. -/
def Frame.pixelOf (fr : Frame) (q : Placed) : Nat := fr.pixel q.row q.col

/-- A placed texel stores to the four bytes of its pixel index, if it lies in the image. -/
theorem read_placeTexel (fr : Frame) (m : Memory) (q : Placed) (a : Nat) :
    Memory.read .pix (placeTexel fr m q) a =
      if fr.pixelOf q < fr.w * fr.h ∧ a / 4 = fr.pixelOf q then q.texel.byteAt (a % 4)
      else Memory.read .pix m a := by
  simp only [placeTexel, inBounds, decide_eq_true_eq, Frame.pixelOf]
  by_cases h : fr.pixel q.row q.col < fr.w * fr.h
  · simp [h, read_pixWrite]
  · simp [h]

theorem placeTexel_wf (fr : Frame) {m : Memory} (q : Placed) (h : m.wf) : Memory.wf (placeTexel fr m q) := by
  unfold placeTexel
  split
  · exact pixWrite_wf _ _ h
  · exact h

theorem placeTexels_wf (fr : Frame) {m : Memory} (qs : List Placed) (h : m.wf) :
    Memory.wf (placeTexels fr m qs) := by
  induction qs generalizing m with
  | nil => exact h
  | cons q qs ih => exact ih (placeTexel_wf fr q h)

theorem mem_placeTexel {fr : Frame} {m : Memory} {q : Placed} {c : Host.Cell}
    (h : c ∈ placeTexel fr m q) : c.1 < fr.w * fr.h * 4 ∨ c ∈ m := by
  unfold placeTexel at h
  split at h
  · rename_i hp
    simp only [inBounds, decide_eq_true_eq] at hp
    rcases mem_writeBytes h with h | h
    · left
      have : q.texel.bytes.length = 4 := rfl
      omega
    · exact .inr h
  · exact .inr h

theorem mem_placeTexels {fr : Frame} {m : Memory} {qs : List Placed} {c : Host.Cell}
    (h : c ∈ placeTexels fr m qs) : c.1 < fr.w * fr.h * 4 ∨ c ∈ m := by
  induction qs generalizing m with
  | nil => exact .inr h
  | cons q qs ih =>
    rcases ih h with h | h
    · exact .inl h
    · exact mem_placeTexel h

theorem placeTexels_append (fr : Frame) (m : Memory) (qs qs' : List Placed) :
    placeTexels fr m (qs ++ qs') = placeTexels fr (placeTexels fr m qs) qs' := List.foldl_append

/-- A byte no placed texel stores to reads as before. -/
theorem read_placeTexels_other (fr : Frame) (m : Memory) (qs : List Placed) (a : Nat)
    (h : ∀ q ∈ qs, ¬(fr.pixelOf q < fr.w * fr.h ∧ a / 4 = fr.pixelOf q)) :
    Memory.read .pix (placeTexels fr m qs) a = Memory.read .pix m a := by
  induction qs generalizing m with
  | nil => rfl
  | cons q qs ih =>
    have := ih (placeTexel fr m q) fun q' hq' => h q' (List.mem_cons_of_mem _ hq')
    rw [show placeTexels fr m (q :: qs) = placeTexels fr (placeTexel fr m q) qs from rfl, this,
      read_placeTexel, if_neg (h q List.mem_cons_self)]

/-- A byte some placed texel stores to reads as the last one of them left it: it depends on no earlier
contents. -/
theorem read_placeTexels_covered (fr : Frame) (m m' : Memory) (qs : List Placed) (a : Nat)
    (h : ∃ q ∈ qs, fr.pixelOf q < fr.w * fr.h ∧ a / 4 = fr.pixelOf q) :
    Memory.read .pix (placeTexels fr m qs) a = Memory.read .pix (placeTexels fr m' qs) a := by
  induction qs generalizing m m' with
  | nil => obtain ⟨q, hq, _⟩ := h; cases hq
  | cons q qs ih =>
    change Memory.read .pix (placeTexels fr (placeTexel fr m q) qs) a =
      Memory.read .pix (placeTexels fr (placeTexel fr m' q) qs) a
    by_cases hc : ∃ q' ∈ qs, fr.pixelOf q' < fr.w * fr.h ∧ a / 4 = fr.pixelOf q'
    · exact ih _ _ hc
    · have hn : ∀ q' ∈ qs, ¬(fr.pixelOf q' < fr.w * fr.h ∧ a / 4 = fr.pixelOf q') :=
        fun q' hq' hp => hc ⟨q', hq', hp⟩
      obtain ⟨q', hq', hp⟩ := h
      rcases List.mem_cons.1 hq' with rfl | hq'
      · rw [read_placeTexels_other fr _ qs a hn, read_placeTexels_other fr _ qs a hn, read_placeTexel,
          read_placeTexel, if_pos hp, if_pos hp]
      · exact absurd hp (hn q' hq')

/-- The texel a list of stores leaves at a pixel index: the last that addresses it. -/
theorem pixRead_placeTexels (fr : Frame) (m : Memory) (qs : List Placed) (k : Nat) (q : Placed)
    (hq : qs[k]? = some q) (hp : fr.pixelOf q < fr.w * fr.h)
    (hlast : ∀ (k' : Nat) (q' : Placed), k < k' → qs[k']? = some q' → fr.pixelOf q' ≠ fr.pixelOf q) :
    pixRead (placeTexels fr m qs) (fr.pixelOf q) = q.texel := by
  induction qs generalizing m k with
  | nil => simp at hq
  | cons q0 qs ih =>
    change pixRead (placeTexels fr (placeTexel fr m q0) qs) (fr.pixelOf q) = q.texel
    cases k with
    | zero =>
      obtain rfl : q0 = q := by simpa using hq
      refine pixRead_of_bytes _ _ _ fun a ha => ?_
      rw [read_placeTexels_other, read_placeTexel, if_pos ⟨hp, ha⟩]
      intro q' hq' hc
      obtain ⟨k', hk'⟩ := List.mem_iff_getElem?.1 hq'
      exact hlast (k' + 1) q' (by omega) (by simpa using hk') (by omega)
    | succ k =>
      exact ih _ k (by simpa using hq) fun k' q' hk hq' =>
        hlast (k' + 1) q' (by omega) (by simpa using hq')

end Sys2Proof.Machine
end

