-- ==== Sys2Proof/Laws/Tiles.lean ====
section
/-!
SUPPORT. The tile traversal, the texels of a tile, the checks of the image commands as arithmetic, and
what decoding or encoding one tile and walking the tiles of an image can do.
-/

namespace Sys2Proof.Machine

/-! ## The checks as arithmetic -/

theorem bit31_clear (v : Word32) : v.getLsbD 31 = false ↔ v.toNat < 2 ^ 31 := by
  have := v.isLt
  simp only [BitVec.getLsbD, Nat.testBit_eq_decide_div_mod_eq, decide_eq_false_iff_not]
  omega

theorem imageChecks_decode (s : State) : imageChecks true s = true ↔ ImageReady s ∧ RawReady s := by
  simp only [imageChecks, dimsLegal, pixFits, rawFits, ImageReady, RawReady, ← bit31_clear,
    Bool.and_eq_true, Bool.not_eq_true', Bool.or_eq_false_iff, decide_eq_true_eq, Bool.not_true,
    Bool.false_or, and_assoc]

theorem imageChecks_encode (s : State) : imageChecks false s = true ↔ ImageReady s := by
  simp only [imageChecks, dimsLegal, pixFits, ImageReady, ← bit31_clear, Bool.and_eq_true,
    Bool.not_eq_true', Bool.or_eq_false_iff, decide_eq_true_eq, Bool.not_false, Bool.true_or, and_true,
    and_assoc]

theorem originLegal_iff (s : State) : originLegal s = true ↔ OriginReady s := by
  simp only [originLegal, OriginReady, ← bit31_clear, Bool.not_eq_true', Bool.or_eq_false_iff]

theorem tileChecks_decode (s : State) : tileChecks true s = true ↔ DectReady s := by
  simp only [tileChecks, Bool.and_eq_true, imageChecks_decode, originLegal_iff, DectReady, and_assoc]

theorem tileChecks_encode (s : State) : tileChecks false s = true ↔ EnctReady s := by
  simp only [tileChecks, Bool.and_eq_true, imageChecks_encode, originLegal_iff, EnctReady]

/-! ## The traversal -/

theorem flatMap_map_length {α β γ : Type} (l : List α) (m : List β) (g : α → β → γ) :
    (l.flatMap fun a => m.map (g a)).length = l.length * m.length := by
  simp [List.length_flatMap]

/-- Element k of a two-level list whose inner lists all have `n` elements. -/
theorem flatMap_range_get {α : Type} (g : Nat → Nat → α) (m n k : Nat) (hk : k < m * n) :
    ((List.range m).flatMap fun i => (List.range n).map (g i))[k]? = some (g (k / n) (k % n)) := by
  induction m with
  | zero => omega
  | succ m ih =>
    have hn : 0 < n := by rcases n with _ | n <;> omega
    have hl : ((List.range m).flatMap fun i => (List.range n).map (g i)).length = m * n := by
      rw [flatMap_map_length, List.length_range, List.length_range]
    rw [List.range_succ, List.flatMap_append]
    by_cases h : k < m * n
    · rw [List.getElem?_append_left (by omega), ih h]
    · obtain ⟨d, rfl⟩ : ∃ d, k = m * n + d := ⟨k - m * n, by omega⟩
      have hd : d < n := by rw [Nat.succ_mul] at hk; omega
      rw [List.getElem?_append_right (by omega), hl, Nat.add_sub_cancel_left]
      have h1 : (m * n + d) / n = m := by
        rw [Nat.mul_comm, Nat.mul_add_div hn, Nat.div_eq_of_lt hd, Nat.add_zero]
      have h2 : (m * n + d) % n = d := by
        rw [Nat.mul_comm, Nat.mul_add_mod, Nat.mod_eq_of_lt hd]
      rw [h1, h2]
      simp [hd]

theorem tiles_length (w h : Nat) : (tiles w h).length = tilesAcross h * tilesAcross w := by
  simp only [tiles, flatMap_map_length, List.length_range]

theorem tiles_get (w h k : Nat) (hk : k < (tiles w h).length) :
    (tiles w h)[k]? = some (8 * (k % tilesAcross w), 8 * (k / tilesAcross w)) :=
  flatMap_range_get (fun ty tx => (8 * tx, 8 * ty)) _ _ _ (tiles_length w h ▸ hk)

theorem mem_tiles {w h : Nat} {o : Nat × Nat} :
    o ∈ tiles w h ↔ ∃ tx ty, tx < tilesAcross w ∧ ty < tilesAcross h ∧ o = (8 * tx, 8 * ty) := by
  simp only [tiles, List.mem_flatMap, List.mem_map, List.mem_range]
  constructor
  · rintro ⟨ty, hty, tx, htx, rfl⟩; exact ⟨tx, ty, htx, hty, rfl⟩
  · rintro ⟨tx, ty, htx, hty, rfl⟩; exact ⟨ty, hty, tx, htx, rfl⟩

/-- Every origin of the traversal lies in the image. -/
theorem tiles_lt {w h : Nat} {o : Nat × Nat} (ho : o ∈ tiles w h) : o.1 < w ∧ o.2 < h := by
  obtain ⟨tx, ty, hx, hy, rfl⟩ := mem_tiles.1 ho
  simp only [tilesAcross] at hx hy ⊢
  omega

/-- The origin of the last tile. -/
theorem tiles_getLast {w h : Nat} (hn : tiles w h ≠ []) :
    (tiles w h).getLast? = some (8 * (tilesAcross w - 1), 8 * (tilesAcross h - 1)) := by
  have hl : 0 < (tiles w h).length := List.length_pos_iff.2 hn
  rw [List.getLast?_eq_getElem?, tiles_get _ _ _ (by omega), tiles_length]
  rw [tiles_length] at hl
  have hw : 0 < tilesAcross w := Nat.pos_of_mul_pos_left hl
  have hh : 0 < tilesAcross h := Nat.pos_of_mul_pos_right hl
  obtain ⟨a, ha⟩ : ∃ a, tilesAcross w = a + 1 := ⟨_, (Nat.succ_pred_eq_of_pos hw).symm⟩
  obtain ⟨b, hb⟩ : ∃ b, tilesAcross h = b + 1 := ⟨_, (Nat.succ_pred_eq_of_pos hh).symm⟩
  have e : (b + 1) * (a + 1) - 1 = (a + 1) * b + a := by
    rw [Nat.add_mul, Nat.one_mul, Nat.mul_comm]; omega
  rw [ha, hb, e, Nat.mul_add_mod, Nat.mod_eq_of_lt (by omega), Nat.mul_add_div (by omega),
    Nat.div_eq_of_lt (by omega)]
  simp

/-! ## The texels of one tile -/

theorem tileOrder_lt (t : Nat) : tileOrder t < 64 := by
  by_cases h : t < 64
  · interval_cases t <;> decide
  · rw [tileOrder, List.getD_eq_getElem?_getD, List.getElem?_eq_none (by simp [tileOrderTable]; omega)]
    decide

theorem tileRow_lt (t : Nat) : tileRow t < 8 := by
  have := tileOrder_lt t
  simp only [tileRow]; omega

theorem tileCol_lt (t : Nat) : tileCol t < 8 := Nat.mod_lt _ (by decide)

theorem tileInOrder_get (texel : Nat → Texel) (t : Nat) (ht : t < 64) :
    (tileInOrder texel)[t]? = some (placeAt t (texel t)) := by
  simp [tileInOrder, ht]

theorem tileInOrder_length (texel : Nat → Texel) : (tileInOrder texel).length = 64 := by
  simp [tileInOrder]

theorem tileInOrder_place {texel : Nat → Texel} {q : Placed} (hq : q ∈ tileInOrder texel) :
    q.row < 8 ∧ q.col < 8 := by
  simp only [tileInOrder, List.mem_map] at hq
  obtain ⟨t, _, rfl⟩ := hq
  exact ⟨tileRow_lt t, tileCol_lt t⟩

theorem tileOfBlocks_get (desc : Nat → Word64) (mask : Nat → Option Word64) (b px py : Nat)
    (hb : b < 4) (hx : px < 4) (hy : py < 4) :
    (tileOfBlocks desc mask)[16 * b + 4 * px + py]? = some
      { row := 4 * (b / 2) + py, col := 4 * (b % 2) + px, texel := blockTexel (desc b) (mask b) px py } := by
  interval_cases b <;> interval_cases px <;> interval_cases py <;> rfl

theorem tileOfBlocks_length (desc : Nat → Word64) (mask : Nat → Option Word64) :
    (tileOfBlocks desc mask).length = 64 := rfl

theorem tileOfBlocks_place {desc : Nat → Word64} {mask : Nat → Option Word64} {q : Placed}
    (hq : q ∈ tileOfBlocks desc mask) : q.row < 8 ∧ q.col < 8 := by
  simp only [tileOfBlocks, List.mem_flatMap, List.mem_map, List.mem_range] at hq
  obtain ⟨b, hb, px, hx, py, hy, rfl⟩ := hq
  interval_cases b <;> exact ⟨by simp; omega, by simp; omega⟩

theorem decodeTexels_length (raw : Memory) (c : Nat) (f : Fmt) : (decodeTexels raw c f).length = 64 := by
  cases f <;> first | exact tileInOrder_length _ | exact tileOfBlocks_length _ _

theorem decodeTexels_place {raw : Memory} {c : Nat} {f : Fmt} {q : Placed}
    (hq : q ∈ decodeTexels raw c f) : q.row < 8 ∧ q.col < 8 := by
  cases f <;> first | exact tileInOrder_place hq | exact tileOfBlocks_place hq

theorem underrunTexels_place {draws : Nat} {q : Placed} (hq : q ∈ underrunTexels draws) :
    q.row < 8 ∧ q.col < 8 := by
  simp only [underrunTexels, List.mem_map] at hq
  obtain ⟨t, _, rfl⟩ := hq
  exact ⟨tileRow_lt t, tileCol_lt t⟩

theorem tileBytes_pos (f : Fmt) : 0 < tileBytes f := by cases f <;> decide

theorem tileBytes_le (f : Fmt) : tileBytes f ≤ 256 := by cases f <;> decide

/-- Every encoder emits the same number of bytes for every texel: a 64th of the tile. -/
theorem encodeRoutine_length {f : Fmt} {enc : Texel → List Byte} (h : encodeRoutine f = some enc)
    (x : Texel) : 64 * (enc x).length = tileBytes f := by
  cases f <;> cases h <;> rfl

theorem flatMap_range_length {α : Type} (g : Nat → List α) (n k : Nat) (h : ∀ i, (g i).length = k) :
    ((List.range n).flatMap g).length = n * k := by
  induction n with
  | zero => simp
  | succ n ih => rw [List.range_succ, List.flatMap_append, List.length_append, ih, Nat.succ_mul]; simp [h]

/-- Element i of unit t of a sequence of units of `k` elements each. -/
theorem flatMap_units_getD {α : Type} (g : Nat → List α) (n k t i : Nat) (d : α) (h : ∀ i, (g i).length = k)
    (ht : t < n) (hi : i < k) : ((List.range n).flatMap g).getD (t * k + i) d = (g t).getD i d := by
  induction n with
  | zero => omega
  | succ n ih =>
    have hl := flatMap_range_length g n k h
    rw [List.range_succ, List.flatMap_append]
    by_cases hn : t < n
    · have : t * k + i < n * k := by
        calc t * k + i < t * k + k := by omega
          _ = (t + 1) * k := by rw [Nat.succ_mul]
          _ ≤ n * k := Nat.mul_le_mul_right k hn
      rw [List.getD_append _ _ _ _ (by omega), ih hn]
    · obtain rfl : t = n := by omega
      rw [List.getD_append_right _ _ _ _ (by omega), hl, Nat.add_sub_cancel_left]
      simp

theorem encodedBytes_length {f : Fmt} {enc : Texel → List Byte} (h : encodeRoutine f = some enc)
    (s : State) : (encodedBytes enc s).length = tileBytes f := by
  have hk : ∀ x, (enc x).length = tileBytes f / 64 := fun x => by
    rw [← encodeRoutine_length h x]; omega
  have := encodeRoutine_length h (Texel.ofWord 0#32)
  rw [encodedBytes, flatMap_range_length _ _ _ fun t => hk _]
  omega

/-! ## What a stored texel of a tile can touch -/

/-- A byte that a texel of the tile stores to is a byte of the tile (R152, R154). -/
theorem tileByte_of_stored {fr : Frame} {q : Placed} {a : Nat} (hq : q.row < 8 ∧ q.col < 8)
    (h : fr.pixelOf q < fr.w * fr.h ∧ a / 4 = fr.pixelOf q) : TileByte fr.w fr.h fr.x fr.y a :=
  ⟨q.row, q.col, hq.1, hq.2, h.1, h.2⟩

theorem placeTexels_frame {fr : Frame} {m : Memory} {qs : List Placed} {a : Nat}
    (hq : ∀ q ∈ qs, q.row < 8 ∧ q.col < 8) (ha : ¬TileByte fr.w fr.h fr.x fr.y a) :
    Memory.read .pix (placeTexels fr m qs) a = Memory.read .pix m a :=
  read_placeTexels_other fr m qs a fun q hm h => ha (tileByte_of_stored (hq q hm) h)

/-- Bytes of a tile lie in the image. -/
theorem tileByte_lt {w h x y a : Nat} (ht : TileByte w h x y a) : a < 4 * (w * h) := by
  obtain ⟨r, c, _, _, hp, ha⟩ := ht
  omega

/-! ## One tile -/

theorem decodeTile_ok (f : Fmt) (s : State) (h : s.cur.toNat + tileBytes f ≤ s.rawLen.toNat) :
    decodeTile f s = .ok { s with
      pix := placeTexels s.frame s.pix (decodeTexels s.raw s.cur.toNat f)
      cur := BitVec.ofNat 64 (s.cur.toNat + tileBytes f) } := by
  rw [decodeTile, if_neg (by omega)]

theorem decodeTile_raised (f : Fmt) (s : State) (h : s.rawLen.toNat < s.cur.toNat + tileBytes f) :
    decodeTile f s = .raised .rawUnderrun s.cur { s with
      pix := placeTexels s.frame s.pix (underrunTexels s.draws), draws := s.draws + 64 } := by
  rw [decodeTile, if_pos (by omega)]

theorem encodeTile_ok (f : Fmt) (enc : Texel → List Byte) (s : State)
    (h : s.outLen.toNat + tileBytes f ≤ s.params.outCap.toNat) :
    encodeTile f enc s = .ok { s with
      out := Memory.writeBytes s.out s.outLen.toNat (encodedBytes enc s)
      outLen := BitVec.ofNat 64 (s.outLen.toNat + tileBytes f)
      draws := s.draws + 64 } := by
  rw [encodeTile, if_neg (by omega)]

theorem encodeTile_raised (f : Fmt) (enc : Texel → List Byte) (s : State)
    (h : s.params.outCap.toNat < s.outLen.toNat + tileBytes f) :
    encodeTile f enc s = .raised .outOverflow s.outLen s := by
  rw [encodeTile, if_pos (by omega)]

/-! ## Walking the tiles -/

/-- The state with a tile origin (R174). -/
def State.atTile (s : State) (o : Nat × Nat) : State :=
  { s with tileX := BitVec.ofNat 32 o.1, tileY := BitVec.ofNat 32 o.2 }

/-- The state a result carries. -/
def Res.state : Res → State
  | .ok s => s
  | .raised _ _ s => s

theorem walkTiles_cons (tile : State → Res) (o : Nat × Nat) (os : List (Nat × Nat)) (s : State) :
    walkTiles tile (o :: os) s =
      match tile (s.atTile o) with
      | .ok s' => walkTiles tile os s'
      | .raised f info s' => .raised f info s' := rfl

theorem walkTiles_append (tile : State → Res) (os os' : List (Nat × Nat)) (s : State) :
    walkTiles tile (os ++ os') s =
      match walkTiles tile os s with
      | .ok s' => walkTiles tile os' s'
      | .raised f info s' => .raised f info s' := by
  induction os generalizing s with
  | nil => rfl
  | cons o os ih =>
    rw [List.cons_append, walkTiles_cons, walkTiles_cons]
    cases tile (s.atTile o) with
    | ok s' => exact ih s'
    | raised f info s' => rfl

/-- What every tile keeps, the walk keeps: a reflexive and transitive relation that holds across taking
an origin and across one tile holds across the walk. -/
theorem walkTiles_rel {tile : State → Res} {R : State → State → Prop}
    (refl : ∀ s, R s s) (trans : ∀ a b c, R a b → R b c → R a c)
    (os : List (Nat × Nat)) (horigin : ∀ s, ∀ o ∈ os, R s (s.atTile o))
    (htile : ∀ s, R s (tile s).state) (s : State) :
    R s (walkTiles tile os s).state := by
  induction os generalizing s with
  | nil => exact refl s
  | cons o os ih =>
    have h1 := trans _ _ _ (horigin s o List.mem_cons_self) (htile (s.atTile o))
    rw [walkTiles_cons]
    cases ht : tile (s.atTile o) with
    | ok s' =>
      rw [ht] at h1
      exact trans _ _ _ h1 (ih (fun s o ho => horigin s o (List.mem_cons_of_mem _ ho)) s')
    | raised f info s' => rw [ht] at h1; exact h1

/-- PIX after the tiles at some origins have been decoded from raw base c up. -/
def decodedPix (f : Fmt) (w h : Nat) (raw : Memory) : List (Nat × Nat) → Nat → Memory → Memory
  | [], _, pix => pix
  | o :: os, c, pix =>
    decodedPix f w h raw os (c + tileBytes f)
      (placeTexels { w := w, h := h, x := o.1, y := o.2 } pix (decodeTexels raw c f))

/-- The units of the tile at an origin (R203). -/
def tileUnits (enc : Texel → List Byte) (w h : Nat) (o : Nat × Nat) (pix : Memory) (draws : Nat) : List Byte :=
  (List.range 64).flatMap fun t => enc (loadTexel { w := w, h := h, x := o.1, y := o.2 } pix draws t)

/-- OUT after the tiles at some origins have been encoded from output length n up. -/
def encodedOut (f : Fmt) (enc : Texel → List Byte) (w h : Nat) (pix : Memory) :
    List (Nat × Nat) → Nat → Nat → Memory → Memory
  | [], _, _, out => out
  | o :: os, n, draws, out =>
    encodedOut f enc w h pix os (n + tileBytes f) (draws + 64)
      (Memory.writeBytes out n (tileUnits enc w h o pix draws))

/-- The state after an origin has been taken from each of a list: the last one's. -/
def State.atLastTile (s : State) (os : List (Nat × Nat)) : State :=
  match os.getLast? with
  | some o => s.atTile o
  | none => s

theorem atLastTile_cons (s : State) (o : Nat × Nat) (os : List (Nat × Nat)) :
    s.atLastTile (o :: os) = (s.atTile o).atLastTile os := by
  cases os with
  | nil => rfl
  | cons o' os =>
    obtain ⟨l, hl⟩ : ∃ l, (o' :: os).getLast? = some l := ⟨_, List.getLast?_eq_some_getLast (by simp)⟩
    simp only [State.atLastTile, List.getLast?_cons_cons, hl]
    rfl

/-- A whole walk of decodes for which there are raw bytes enough. -/
theorem walkTiles_decode (f : Fmt) (os : List (Nat × Nat)) (s : State)
    (ho : ∀ o ∈ os, o.1 < 2 ^ 32 ∧ o.2 < 2 ^ 32)
    (hfit : s.cur.toNat + tileBytes f * os.length ≤ s.rawLen.toNat) :
    walkTiles (decodeTile f) os s = .ok { s.atLastTile os with
      pix := decodedPix f s.width.toNat s.height.toNat s.raw os s.cur.toNat s.pix
      cur := BitVec.ofNat 64 (s.cur.toNat + tileBytes f * os.length) } := by
  induction os generalizing s with
  | nil => simp [walkTiles, decodedPix, State.atLastTile]
  | cons o os ih =>
    have hr := s.rawLen.isLt
    rw [List.length_cons, Nat.mul_add, Nat.mul_one] at hfit
    have hfr : (s.atTile o).frame = { w := s.width.toNat, h := s.height.toNat, x := o.1, y := o.2 } := by
      obtain ⟨h1, h2⟩ := ho o List.mem_cons_self
      simp only [State.frame, State.atTile, BitVec.toNat_ofNat, Nat.mod_eq_of_lt h1, Nat.mod_eq_of_lt h2]
    have hc : (BitVec.ofNat 64 (s.cur.toNat + tileBytes f)).toNat = s.cur.toNat + tileBytes f := by
      rw [BitVec.toNat_ofNat, Nat.mod_eq_of_lt (by omega)]
    rw [walkTiles_cons, decodeTile_ok f (s.atTile o) (by simp only [State.atTile]; omega)]
    simp only [hfr]
    rw [ih _ (fun o ho' => ho o (List.mem_cons_of_mem _ ho')) (by simp only [State.atTile, hc]; omega)]
    simp only [State.atTile, hc, decodedPix, List.length_cons, atLastTile_cons]
    congr 1
    simp only [State.atLastTile]
    cases os.getLast? <;>
      simp [State.atTile, Nat.mul_add, Nat.add_assoc, Nat.add_comm]

/-- A whole walk of encodes for which there is room in OUT. -/
theorem walkTiles_encode (f : Fmt) (enc : Texel → List Byte) (os : List (Nat × Nat)) (s : State)
    (ho : ∀ o ∈ os, o.1 < 2 ^ 32 ∧ o.2 < 2 ^ 32)
    (hfit : s.outLen.toNat + tileBytes f * os.length ≤ s.params.outCap.toNat) :
    walkTiles (encodeTile f enc) os s = .ok { s.atLastTile os with
      out := encodedOut f enc s.width.toNat s.height.toNat s.pix os s.outLen.toNat s.draws s.out
      outLen := BitVec.ofNat 64 (s.outLen.toNat + tileBytes f * os.length)
      draws := s.draws + 64 * os.length } := by
  induction os generalizing s with
  | nil => simp [walkTiles, encodedOut, State.atLastTile]
  | cons o os ih =>
    have hr := s.params.outCap.isLt
    rw [List.length_cons, Nat.mul_add, Nat.mul_one] at hfit
    have hu : encodedBytes enc (s.atTile o) =
        tileUnits enc s.width.toNat s.height.toNat o s.pix s.draws := by
      obtain ⟨h1, h2⟩ := ho o List.mem_cons_self
      simp only [encodedBytes, tileUnits, State.frame, State.atTile, BitVec.toNat_ofNat,
        Nat.mod_eq_of_lt h1, Nat.mod_eq_of_lt h2]
    have hc : (BitVec.ofNat 64 (s.outLen.toNat + tileBytes f)).toNat = s.outLen.toNat + tileBytes f := by
      rw [BitVec.toNat_ofNat, Nat.mod_eq_of_lt (by omega)]
    rw [walkTiles_cons, encodeTile_ok f enc (s.atTile o) (by simp only [State.atTile]; omega)]
    simp only [hu]
    rw [ih _ (fun o ho' => ho o (List.mem_cons_of_mem _ ho')) (by simp only [State.atTile, hc]; omega)]
    simp only [State.atTile, hc, encodedOut, List.length_cons, atLastTile_cons]
    congr 1
    simp only [State.atLastTile]
    cases os.getLast? <;> simp [State.atTile, Nat.mul_add, Nat.add_assoc, Nat.add_comm]

end Sys2Proof.Machine
end

