-- ==== Sys2Proof/Laws/Commands.lean ====
section
/-!
SUPPORT. What each command comes to: its body in each of its cases, and exec of the families by format.
-/

namespace Sys2Proof.Machine

/-! ## exec by family -/

theorem exec_lookup (s : State) : exec .lookup s = command .lookup (lookupBody s) := rfl

theorem exec_rsmp (sbits tbits : Nat) (s : State) :
    exec (.rsmp sbits tbits) s = command (.rsmp sbits tbits) (rsmpBody sbits tbits s) := rfl

theorem exec_taddr (t bpt : Nat) (s : State) :
    exec (.taddr t bpt) s = command (.taddr t bpt) (taddrBody t bpt s) := rfl

theorem exec_bdec (af : Bool) (s : State) : exec (.bdec af) s = command (.bdec af) (bdecBody af s) := rfl

theorem exec_dect (f : Fmt) (s : State) : exec (.dect f) s = command (.dect f) (dectBody f s) := by
  cases f <;> rfl

theorem exec_enct (f : Fmt) (s : State) : exec (.enct f) s = command (.enct f) (enctBody f s) := by
  cases f <;> rfl

theorem exec_deci (s : State) : exec .deci s = command .deci (deciBody s) := rfl

theorem exec_enci (s : State) : exec .enci s = command .enci (enciBody s) := rfl

/-- The eight families of the opcode table. -/
theorem instr_families (i : Instr) :
    i = .lookup ∨ (∃ a b, i = .rsmp a b) ∨ (∃ a b, i = .taddr a b) ∨ (∃ a, i = .bdec a) ∨
      (∃ f, i = .dect f) ∨ (∃ f, i = .enct f) ∨ i = .deci ∨ i = .enci := by
  cases i
  case lookup => simp
  case rsmp => simp
  case taddr => simp
  case bdec => simp
  case deci => simp
  case enci => simp
  case dectRgba4444 => exact .inr (.inr (.inr (.inr (.inl ⟨.rgba4444, rfl⟩))))
  case dectRgba5551 => exact .inr (.inr (.inr (.inr (.inl ⟨.rgba5551, rfl⟩))))
  case dectRgba8888 => exact .inr (.inr (.inr (.inr (.inl ⟨.rgba8888, rfl⟩))))
  case dectRgb565 => exact .inr (.inr (.inr (.inr (.inl ⟨.rgb565, rfl⟩))))
  case dectRgb888 => exact .inr (.inr (.inr (.inr (.inl ⟨.rgb888, rfl⟩))))
  case dectEtc1 => exact .inr (.inr (.inr (.inr (.inl ⟨.etc1, rfl⟩))))
  case dectEtc1a4 => exact .inr (.inr (.inr (.inr (.inl ⟨.etc1a4, rfl⟩))))
  case dectA8 => exact .inr (.inr (.inr (.inr (.inl ⟨.a8, rfl⟩))))
  case dectA4 => exact .inr (.inr (.inr (.inr (.inl ⟨.a4, rfl⟩))))
  case dectL8 => exact .inr (.inr (.inr (.inr (.inl ⟨.l8, rfl⟩))))
  case dectL4 => exact .inr (.inr (.inr (.inr (.inl ⟨.l4, rfl⟩))))
  case dectLa88 => exact .inr (.inr (.inr (.inr (.inl ⟨.la88, rfl⟩))))
  case dectLa44 => exact .inr (.inr (.inr (.inr (.inl ⟨.la44, rfl⟩))))
  case enctRgba4444 => exact .inr (.inr (.inr (.inr (.inr (.inl ⟨.rgba4444, rfl⟩)))))
  case enctRgba5551 => exact .inr (.inr (.inr (.inr (.inr (.inl ⟨.rgba5551, rfl⟩)))))
  case enctRgba8888 => exact .inr (.inr (.inr (.inr (.inr (.inl ⟨.rgba8888, rfl⟩)))))
  case enctRgb565 => exact .inr (.inr (.inr (.inr (.inr (.inl ⟨.rgb565, rfl⟩)))))
  case enctRgb888 => exact .inr (.inr (.inr (.inr (.inr (.inl ⟨.rgb888, rfl⟩)))))
  case enctEtc1 => exact .inr (.inr (.inr (.inr (.inr (.inl ⟨.etc1, rfl⟩)))))
  case enctEtc1a4 => exact .inr (.inr (.inr (.inr (.inr (.inl ⟨.etc1a4, rfl⟩)))))
  case enctA8 => exact .inr (.inr (.inr (.inr (.inr (.inl ⟨.a8, rfl⟩)))))
  case enctA4 => exact .inr (.inr (.inr (.inr (.inr (.inl ⟨.a4, rfl⟩)))))
  case enctL8 => exact .inr (.inr (.inr (.inr (.inr (.inl ⟨.l8, rfl⟩)))))
  case enctL4 => exact .inr (.inr (.inr (.inr (.inr (.inl ⟨.l4, rfl⟩)))))
  case enctLa88 => exact .inr (.inr (.inr (.inr (.inr (.inl ⟨.la88, rfl⟩)))))
  case enctLa44 => exact .inr (.inr (.inr (.inr (.inr (.inl ⟨.la44, rfl⟩)))))

/-- The body of an instruction: what `exec` ends with the instruction's own word. -/
def body (i : Instr) (s : State) : Res :=
  match i with
  | .lookup => lookupBody s
  | .rsmp sbits tbits => rsmpBody sbits tbits s
  | .taddr t bpt => taddrBody t bpt s
  | .bdec af => bdecBody af s
  | .dectRgba4444 => dectBody .rgba4444 s
  | .dectRgba5551 => dectBody .rgba5551 s
  | .dectRgba8888 => dectBody .rgba8888 s
  | .dectRgb565 => dectBody .rgb565 s
  | .dectRgb888 => dectBody .rgb888 s
  | .dectEtc1 => dectBody .etc1 s
  | .dectEtc1a4 => dectBody .etc1a4 s
  | .dectA8 => dectBody .a8 s
  | .dectA4 => dectBody .a4 s
  | .dectL8 => dectBody .l8 s
  | .dectL4 => dectBody .l4 s
  | .dectLa88 => dectBody .la88 s
  | .dectLa44 => dectBody .la44 s
  | .enctRgba4444 => enctBody .rgba4444 s
  | .enctRgba5551 => enctBody .rgba5551 s
  | .enctRgba8888 => enctBody .rgba8888 s
  | .enctRgb565 => enctBody .rgb565 s
  | .enctRgb888 => enctBody .rgb888 s
  | .enctEtc1 => enctBody .etc1 s
  | .enctEtc1a4 => enctBody .etc1a4 s
  | .enctA8 => enctBody .a8 s
  | .enctA4 => enctBody .a4 s
  | .enctL8 => enctBody .l8 s
  | .enctL4 => enctBody .l4 s
  | .enctLa88 => enctBody .la88 s
  | .enctLa44 => enctBody .la44 s
  | .deci => deciBody s
  | .enci => enciBody s

/-- Every command comes to a next state: that of its body, with the fault recorded if it raised one. -/
theorem exec_body (i : Instr) (s : State) : exec i s = .next ((body i s).finish (encode i)) := by
  cases i <;> rfl

/-! ## What the bodies come to -/

theorem rsmpBody_cases (sbits tbits : Nat) (s : State) :
    (1 ≤ sbits ∧ sbits ≤ 8 ∧ tbits ≤ 8 ∧ rsmpBody sbits tbits s =
      .ok { s with rsRes := BitVec.ofNat 32 (resample s.rsVal.toNat sbits tbits) }) ∨
    (¬(1 ≤ sbits ∧ sbits ≤ 8 ∧ tbits ≤ 8) ∧ rsmpBody sbits tbits s = .raised .illegalOperand 0#64 s) := by
  by_cases h : 1 ≤ sbits ∧ sbits ≤ 8 ∧ tbits ≤ 8
  · exact .inl ⟨h.1, h.2.1, h.2.2, by simp [rsmpBody, rsmpLegal, h]⟩
  · refine .inr ⟨h, ?_⟩
    rw [rsmpBody, if_neg]
    simpa only [rsmpLegal, Bool.and_eq_true, decide_eq_true_eq, and_assoc] using h

theorem taddrLegal_iff (t bpt : Nat) (s : State) :
    taddrLegal t bpt s = true ↔
      ImageReady s ∧ OriginReady s ∧ bpt ≠ 0 ∧ taddrPixel t s * bpt < 2 ^ 64 := by
  simp only [taddrLegal, dimsLegal, originLegal, pixFits, ImageReady, OriginReady, ← bit31_clear,
    Bool.and_eq_true, Bool.not_eq_true', Bool.or_eq_false_iff, decide_eq_true_eq]
  tauto

theorem taddrBody_cases (t bpt : Nat) (s : State) :
    (taddrLegal t bpt s = true ∧ taddrBody t bpt s = .ok { s with
      taPix := BitVec.ofNat 64 (taddrPixel t s)
      taOff := BitVec.ofNat 64 (taddrPixel t s * bpt)
      status := statusWithInb s.status (inBounds (taddrPixel t s) s.width.toNat s.height.toNat) }) ∨
    (taddrLegal t bpt s = false ∧ taddrBody t bpt s = .raised .illegalOperand 0#64 s) := by
  cases h : taddrLegal t bpt s
  · exact .inr ⟨rfl, by simp [taddrBody, h]⟩
  · exact .inl ⟨rfl, by simp [taddrBody, h]⟩

theorem resolve_cases (s : State) (go : Fmt → State → Res) :
    (∃ f, codeTable s.params s.dtype s.pfmt = some f ∧
      resolve s go = go f { s with fmtsel := fmtselOf f }) ∨
    (codeTable s.params s.dtype s.pfmt = none ∧
      resolve s go = .raised .codecNotFound 0#64 { s with fmtsel := 0#32 }) := by
  unfold resolve
  cases codeTable s.params s.dtype s.pfmt with
  | some f => exact .inl ⟨f, rfl, rfl⟩
  | none => exact .inr ⟨rfl, rfl⟩

theorem decodeTile_cases (f : Fmt) (s : State) :
    (s.cur.toNat + tileBytes f ≤ s.rawLen.toNat ∧ decodeTile f s = .ok { s with
      pix := placeTexels s.frame s.pix (decodeTexels s.raw s.cur.toNat f)
      cur := BitVec.ofNat 64 (s.cur.toNat + tileBytes f) }) ∨
    (s.rawLen.toNat < s.cur.toNat + tileBytes f ∧ decodeTile f s = .raised .rawUnderrun s.cur { s with
      pix := placeTexels s.frame s.pix (underrunTexels s.draws), draws := s.draws + 64 }) := by
  rcases Nat.lt_or_ge s.rawLen.toNat (s.cur.toNat + tileBytes f) with h | h
  · exact .inr ⟨h, decodeTile_raised f s h⟩
  · exact .inl ⟨h, decodeTile_ok f s h⟩

theorem encodeTile_cases (f : Fmt) (enc : Texel → List Byte) (s : State) :
    (s.outLen.toNat + tileBytes f ≤ s.params.outCap.toNat ∧ encodeTile f enc s = .ok { s with
      out := Memory.writeBytes s.out s.outLen.toNat (encodedBytes enc s)
      outLen := BitVec.ofNat 64 (s.outLen.toNat + tileBytes f)
      draws := s.draws + 64 }) ∨
    (s.params.outCap.toNat < s.outLen.toNat + tileBytes f ∧
      encodeTile f enc s = .raised .outOverflow s.outLen s) := by
  rcases Nat.lt_or_ge s.params.outCap.toNat (s.outLen.toNat + tileBytes f) with h | h
  · exact .inr ⟨h, encodeTile_raised f enc s h⟩
  · exact .inl ⟨h, encodeTile_ok f enc s h⟩

theorem dectBody_ready (f : Fmt) (s : State) (h : DectReady s) : dectBody f s = decodeTile f s := by
  rw [dectBody, if_pos ((tileChecks_decode s).2 h)]

theorem dectBody_illegal (f : Fmt) (s : State) (h : ¬DectReady s) :
    dectBody f s = .raised .illegalOperand 0#64 s := by
  rw [dectBody, if_neg fun hc => h ((tileChecks_decode s).1 hc)]

theorem enctBody_ready (f : Fmt) (s : State) (h : EnctReady s) :
    enctBody f s = match encodeRoutine f with
      | some enc => encodeTile f enc s
      | none => .raised .unsupportedOperation 0#64 s := by
  unfold enctBody
  exact if_pos ((tileChecks_encode s).2 h)

theorem enctBody_illegal (f : Fmt) (s : State) (h : ¬EnctReady s) :
    enctBody f s = .raised .illegalOperand 0#64 s := by
  rw [enctBody, if_neg fun hc => h ((tileChecks_encode s).1 hc)]

theorem deciBody_ready (f : Fmt) (s : State) (h : ImageReady s ∧ RawReady s)
    (hf : codeTable s.params s.dtype s.pfmt = some f) :
    deciBody s = walkTiles (decodeTile f) (imageTiles s) { s with fmtsel := fmtselOf f, cur := 0#64 } := by
  rw [deciBody, if_pos ((imageChecks_decode s).2 h), resolve, hf]
  rfl

theorem deciBody_noCodec (s : State) (h : ImageReady s ∧ RawReady s)
    (hf : codeTable s.params s.dtype s.pfmt = none) :
    deciBody s = .raised .codecNotFound 0#64 { s with fmtsel := 0#32 } := by
  rw [deciBody, if_pos ((imageChecks_decode s).2 h), resolve, hf]

theorem deciBody_illegal (s : State) (h : ¬(ImageReady s ∧ RawReady s)) :
    deciBody s = .raised .illegalOperand 0#64 s := by
  rw [deciBody, if_neg fun hc => h ((imageChecks_decode s).1 hc)]

theorem enciBody_ready (f : Fmt) (enc : Texel → List Byte) (s : State) (h : ImageReady s)
    (hf : codeTable s.params s.dtype s.pfmt = some f) (he : encodeRoutine f = some enc) :
    enciBody s =
      walkTiles (encodeTile f enc) (imageTiles s) { s with fmtsel := fmtselOf f, outLen := 0#64 } := by
  rw [enciBody, if_pos ((imageChecks_encode s).2 h), resolve, hf]
  simp only [he]
  rfl

theorem enciBody_noEncoder (f : Fmt) (s : State) (h : ImageReady s)
    (hf : codeTable s.params s.dtype s.pfmt = some f) (he : encodeRoutine f = none) :
    enciBody s = .raised .unsupportedOperation 0#64 { s with fmtsel := fmtselOf f } := by
  rw [enciBody, if_pos ((imageChecks_encode s).2 h), resolve, hf]
  simp only [he]

theorem enciBody_noCodec (s : State) (h : ImageReady s)
    (hf : codeTable s.params s.dtype s.pfmt = none) :
    enciBody s = .raised .codecNotFound 0#64 { s with fmtsel := 0#32 } := by
  rw [enciBody, if_pos ((imageChecks_encode s).2 h), resolve, hf]

theorem enciBody_illegal (s : State) (h : ¬ImageReady s) :
    enciBody s = .raised .illegalOperand 0#64 s := by
  rw [enciBody, if_neg fun hc => h ((imageChecks_encode s).1 hc)]

/-! ## The image walks -/

theorem imageTiles_length (s : State) : (imageTiles s).length = tileCount s := by
  rw [imageTiles, tiles_length, Nat.mul_comm]
  rfl

/-- The origins of a legal image fit their registers (R38, R43). -/
theorem imageTiles_fit {s : State} (h : ImageReady s) :
    ∀ o ∈ imageTiles s, o.1 < 2 ^ 32 ∧ o.2 < 2 ^ 32 := by
  intro o ho
  have := tiles_lt ho
  have := h.1
  have := h.2.1
  omega

/-- Decoding some tiles leaves every byte at or past the end of the image. -/
theorem read_decodedPix_past (f : Fmt) (w h : Nat) (raw : Memory) (os : List (Nat × Nat)) (c : Nat)
    (pix : Memory) (a : Nat) (ha : 4 * (w * h) ≤ a) :
    Memory.read .pix (decodedPix f w h raw os c pix) a = Memory.read .pix pix a := by
  induction os generalizing c pix with
  | nil => rfl
  | cons o os ih =>
    rw [decodedPix, ih]
    refine read_placeTexels_other _ _ _ _ fun q _ hq => ?_
    have := hq.1
    simp only at this
    omega

theorem tileUnits_length {f : Fmt} {enc : Texel → List Byte} (h : encodeRoutine f = some enc)
    (w ht : Nat) (o : Nat × Nat) (pix : Memory) (draws : Nat) :
    (tileUnits enc w ht o pix draws).length = tileBytes f := by
  have hk : ∀ x, (enc x).length = tileBytes f / 64 := fun x => by rw [← encodeRoutine_length h x]; omega
  have := encodeRoutine_length h (Texel.ofWord 0#32)
  rw [tileUnits, flatMap_range_length _ _ _ fun t => hk _]
  omega

/-- Encoding some tiles stores to the bytes of the tiles, from the output length up. -/
theorem read_encodedOut_other {f : Fmt} {enc : Texel → List Byte} (he : encodeRoutine f = some enc)
    (w h : Nat) (pix : Memory) (os : List (Nat × Nat)) (n draws : Nat) (out : Memory) (a : Nat)
    (ha : a < n ∨ n + tileBytes f * os.length ≤ a) :
    Memory.read .out (encodedOut f enc w h pix os n draws out) a = Memory.read .out out a := by
  induction os generalizing n draws out with
  | nil => rfl
  | cons o os ih =>
    rw [List.length_cons, Nat.mul_add, Nat.mul_one] at ha
    rw [encodedOut, ih _ _ _ (by omega), read_writeBytes, tileUnits_length he, if_neg (by omega)]

/-! ## CODE_TABLE -/

theorem codePair_four : Config.codePair 4 = Config.rgb888Pair := by
  simp [Config.codePair, Equiv.swap_apply_left]

theorem codePair_injective {m n : Nat} (hm : m < 2 ^ 32) (hn : n < 2 ^ 32)
    (h : Config.codePair m = Config.codePair n) : m = n := by
  have := Config.codePerm.injective ((Equiv.swap _ _).injective h)
  simp only [Config.seedPair, Prod.mk.injEq, and_true] at this
  have := congrArg BitVec.toNat this
  rwa [BitVec.toNat_ofNat, BitVec.toNat_ofNat, Nat.mod_eq_of_lt hm, Nat.mod_eq_of_lt hn] at this

theorem mem_all (f : Fmt) : f ∈ Fmt.all := by cases f <;> decide

theorem index_injective {e f : Fmt} (h : e.index = f.index) : e = f := by
  cases e <;> cases f <;> first | rfl | cases h

/-- The format the table gives is one whose pair was asked for. -/
theorem codeTable_some {p : Params} {d q : Word32} {f : Fmt} (h : codeTable p d q = some f) :
    p.codes.toList[f.index]? = some (d, q) := by
  simpa using List.find?_some h

/-- In a legal table the format of a pair is the one whose pair it is (R109). -/
theorem codeTable_of_pair {p : Params} (hp : p.legal) {d q : Word32} {f : Fmt}
    (h : p.codes.toList[f.index]? = some (d, q)) : codeTable p d q = some f := by
  cases hc : codeTable p d q with
  | none =>
    have := List.find?_eq_none.1 hc f (mem_all f)
    simp only [decide_eq_true_eq] at this
    exact absurd h this
  | some e =>
    have he := codeTable_some hc
    have hlt : e.index < p.codes.toList.length := (List.getElem?_eq_some_iff.1 he).1
    rw [index_injective ((List.getElem?_inj hlt hp.1).1 (he.trans h.symm))]

end Sys2Proof.Machine
end

