-- ==== Sys2Proof/Laws/Host.lean ====
section
/-!
SUPPORT. What one step does with each action of the host.
-/

namespace Sys2Proof.Machine

theorem gate_clear {s : State} (run : Host.Outcome State Fault Refusal) (h : s.err = 0#4) :
    gate s run = run := if_pos h

theorem gate_faulted {s : State} (run : Host.Outcome State Fault Refusal) (h : s.err ≠ 0#4) :
    gate s run = .next s := if_neg h

theorem step_issue {s : State} {c : Word32} {rest : List HostAction} (hp : s.pending = .issue c :: rest)
    (he : s.err = 0#4) : step s = runWord c { s with pending := rest } := by
  rw [step_action s _ _ hp]
  exact gate_clear (s := { s with pending := rest }) _ he

theorem step_issue_dropped {s : State} {c : Word32} {rest : List HostAction}
    (hp : s.pending = .issue c :: rest) (he : s.err ≠ 0#4) : step s = .next { s with pending := rest } := by
  rw [step_action s _ _ hp]
  exact gate_faulted (s := { s with pending := rest }) _ he

theorem step_wr {s : State} {n : BitVec 8} {v : Word64} {rest : List HostAction}
    (hp : s.pending = .wr n v :: rest) :
    step s = .next (writeRegister { s with pending := rest } n.toNat v) := step_action s _ _ hp

theorem step_rd {s : State} {n : BitVec 8} {rest : List HostAction} (hp : s.pending = .rd n :: rest) :
    step s = .next { s with pending := rest, reply := .word (readRegister s n.toNat) } :=
  step_action s _ _ hp

theorem step_reset {s : State} {rest : List HostAction} (hp : s.pending = .reset :: rest) :
    step s = .next ({ s with pending := rest } : State).resetRegisters := step_action s _ _ hp

theorem accessFits_iff (p : Params) (sp : Space) (a n : Nat) :
    accessFits p sp a n = true ↔ n = 0 ∨ a + n ≤ p.cap sp := by
  simp only [accessFits, decide_eq_true_eq]

theorem hostWrite_fits {s : State} {sp : Space} {a : Nat} {bs : List Byte}
    (h : accessFits s.params sp a bs.length = true) :
    hostWrite s sp a bs = .next (s.withMemory sp (Memory.writeBytes (s.memory sp) a bs)) := if_pos h

theorem hostWrite_outside {s : State} {sp : Space} {a : Nat} {bs : List Byte}
    (h : accessFits s.params sp a bs.length ≠ true) : hostWrite s sp a bs = .fault .outsideSpace := if_neg h

theorem hostRead_fits {s : State} {sp : Space} {a n : Nat} (h : accessFits s.params sp a n = true) :
    hostRead s sp a n = .next { s with reply := .bytes (Memory.readBytes sp (s.memory sp) a n) } := if_pos h

theorem hostRead_outside {s : State} {sp : Space} {a n : Nat} (h : accessFits s.params sp a n ≠ true) :
    hostRead s sp a n = .fault .outsideSpace := if_neg h

theorem step_memWrite {s : State} {sp : Space} {a : Nat} {bs : List Byte} {rest : List HostAction}
    (hp : s.pending = .memWrite sp a bs :: rest) (h : accessFits s.params sp a bs.length = true) :
    step s = .next ({ s with pending := rest }.withMemory sp (Memory.writeBytes (s.memory sp) a bs)) := by
  rw [step_action s _ _ hp]
  refine (hostWrite_fits (s := { s with pending := rest }) h).trans ?_
  cases sp <;> rfl

theorem step_memWrite_outside {s : State} {sp : Space} {a : Nat} {bs : List Byte} {rest : List HostAction}
    (hp : s.pending = .memWrite sp a bs :: rest) (h : accessFits s.params sp a bs.length ≠ true) :
    step s = .fault .outsideSpace := by
  rw [step_action s _ _ hp]
  exact hostWrite_outside (s := { s with pending := rest }) h

theorem step_memRead {s : State} {sp : Space} {a n : Nat} {rest : List HostAction}
    (hp : s.pending = .memRead sp a n :: rest) (h : accessFits s.params sp a n = true) :
    step s = .next { s with
      pending := rest, reply := .bytes (Memory.readBytes sp (s.memory sp) a n) } := by
  rw [step_action s _ _ hp]
  refine (hostRead_fits (s := { s with pending := rest }) h).trans ?_
  cases sp <;> rfl

theorem step_memRead_outside {s : State} {sp : Space} {a n : Nat} {rest : List HostAction}
    (hp : s.pending = .memRead sp a n :: rest) (h : accessFits s.params sp a n ≠ true) :
    step s = .fault .outsideSpace := by
  rw [step_action s _ _ hp]
  exact hostRead_outside (s := { s with pending := rest }) h

/-- The first of several steps of a run, for any machine behind the host's interface. -/
theorem run_next (M : Host.Core) (k : Nat) (s t : M.State) (h : M.step s = .next t) :
    M.run (k + 1) s = M.run k t := by
  simp only [Host.Core.run, h]

/-- The first of several steps of a run of this machine. -/
theorem core_run_next (k : Nat) (s t : State) (h : step s = .next t) :
    Host.Core.run Sys2Proof.core (k + 1) s = Host.Core.run Sys2Proof.core k t :=
  run_next Sys2Proof.core k s t h

/-- What a register write leaves: everything but the read/write registers of R31. -/
theorem writeRegister_frame (s : State) (n : Nat) (v : Word64) :
    let t := writeRegister s n v
    t.status = s.status ∧ t.fmtsel = s.fmtsel ∧ t.faultCmd = s.faultCmd ∧ t.faultInfo = s.faultInfo ∧
      t.rsRes = s.rsRes ∧ t.taPix = s.taPix ∧ t.taOff = s.taOff ∧ t.bdTex = s.bdTex ∧ t.raw = s.raw ∧
      t.pix = s.pix ∧ t.out = s.out ∧ t.params = s.params ∧ t.pending = s.pending ∧ t.reply = s.reply ∧
      t.draws = s.draws := by
  simp only [writeRegister]
  split <;> simp only [and_self]

end Sys2Proof.Machine
end

