-- ==== Sys2Proof/Laws/Container.lean ====
section
/-!
SUPPORT. The STEX container: the lengths of its parts, what its fields hold, and what the host's read of
the output returns.
-/

namespace Sys2Proof.Machine

@[simp] theorem stexWord_length (n : Nat) : (stexWord n).length = 4 := rfl

theorem stexWord_value {n : Nat} (h : n < 2 ^ 32) : littleEndian (stexWord n) = n := by
  have bytes : stexWord n =
      [BitVec.ofNat 8 n, BitVec.ofNat 8 (n >>> 8), BitVec.ofNat 8 (n >>> 16), BitVec.ofNat 8 (n >>> 24)] := rfl
  simp only [bytes, littleEndian, BitVec.toNat_ofNat, Nat.shiftRight_eq_div_pow]
  omega

theorem stexLengthField_short {n : Nat} (h : n < 2 ^ 32) : stexLengthField n = n := if_pos h

theorem stexLengthField_lt (n : Nat) : stexLengthField n < 2 ^ 32 := by
  unfold stexLengthField
  split
  · assumption
  · exact (Config.stexLongLength n).isLt

@[simp] theorem stexHeader_length (w h dt pf : Word32) (n : Nat) : (stexHeader w h dt pf n).length = 0x80 := by
  simp [stexHeader, stexMagic]

@[simp] theorem encodedOutput_length (s : State) : (encodedOutput s).length = s.outLen.toNat :=
  readBytes_length _ _ _ _

/-- The length field of the saved file is that of its data: OUT_LEN. -/
theorem stexSave_eq_stexWrite (w h dt pf : Word32) (s : State) :
    stexSave w h dt pf s = stexWrite w h dt pf (encodedOutput s) := by
  rw [stexSave, stexWrite, encodedOutput_length]

@[simp] theorem stexWrite_length (w h dt pf : Word32) (data : List Byte) :
    (stexWrite w h dt pf data).length = 0x80 + data.length := by
  rw [stexWrite, List.length_append, stexHeader_length]

@[simp] theorem stexWrite_data (w h dt pf : Word32) (data : List Byte) :
    (stexWrite w h dt pf data).drop 0x80 = data := by
  rw [stexWrite, List.drop_append_of_le_length (by simp), List.drop_of_length_le (by simp), List.nil_append]

/-- The word of a header's field at the place where it was written. -/
theorem field_at {file front back : List Byte} {n o : Nat} (h : file = front ++ (stexWord n ++ back))
    (ho : front.length = o) : (file.drop o).take 4 = stexWord n := by
  rw [h, ← ho, List.drop_left, List.take_append_of_le_length (by simp), List.take_of_length_le (by simp)]

theorem step_fetchOutput {s : State} {rest : List HostAction} (hp : s.pending = fetchOutput s :: rest)
    (hc : s.outLen.toNat ≤ s.params.outCap.toNat) :
    step s = .next { s with pending := rest, reply := .bytes (encodedOutput s) } :=
  step_memRead hp (decide_eq_true (.inr (by simpa [Params.cap] using hc)))

end Sys2Proof.Machine
end

