-- ==== Sys2Proof/Laws/Effects.lean ====
section
/-!
SUPPORT. What a walk of tiles keeps and how it can fail, and the inversion of a command: everything its
body can come to.
-/

namespace Sys2Proof.Machine

/-! ## What a walk keeps -/

/-- Only PIX, CUR, the draws and the tile origin differ. -/
def DecodeFrame (s t : State) : Prop :=
  t = { s with pix := t.pix, cur := t.cur, draws := t.draws, tileX := t.tileX, tileY := t.tileY }

/-- Only OUT, OUT_LEN, the draws and the tile origin differ. -/
def EncodeFrame (s t : State) : Prop :=
  t = { s with out := t.out, outLen := t.outLen, draws := t.draws, tileX := t.tileX, tileY := t.tileY }

theorem DecodeFrame.trans (a b c : State) (h : DecodeFrame a b) (g : DecodeFrame b c) : DecodeFrame a c := by
  unfold DecodeFrame at *
  rw [g, h]

theorem EncodeFrame.trans (a b c : State) (h : EncodeFrame a b) (g : EncodeFrame b c) : EncodeFrame a c := by
  unfold EncodeFrame at *
  rw [g, h]

theorem walkTiles_decode_frame (f : Fmt) (os : List (Nat × Nat)) (s : State) :
    DecodeFrame s (walkTiles (decodeTile f) os s).state := by
  refine walkTiles_rel (R := DecodeFrame) (fun _ => rfl) DecodeFrame.trans os (fun _ _ _ => rfl) (fun s => ?_) s
  rcases decodeTile_cases f s with ⟨_, h⟩ | ⟨_, h⟩ <;> rw [h] <;> rfl

theorem walkTiles_encode_frame (f : Fmt) (enc : Texel → List Byte) (os : List (Nat × Nat)) (s : State) :
    EncodeFrame s (walkTiles (encodeTile f enc) os s).state := by
  refine walkTiles_rel (R := EncodeFrame) (fun _ => rfl) EncodeFrame.trans os (fun _ _ _ => rfl) (fun s => ?_) s
  rcases encodeTile_cases f enc s with ⟨_, h⟩ | ⟨_, h⟩ <;> rw [h] <;> rfl

/-! ## How a walk can fail -/

theorem walkTiles_decode_raised {f : Fmt} {os : List (Nat × Nat)} {s t : State} {g : BlockFault}
    {info : Word64} (h : walkTiles (decodeTile f) os s = .raised g info t) :
    g = .rawUnderrun ∧ info = t.cur := by
  induction os generalizing s with
  | nil => cases h
  | cons o os ih =>
    rw [walkTiles_cons] at h
    rcases decodeTile_cases f (s.atTile o) with ⟨_, k⟩ | ⟨_, k⟩ <;> rw [k] at h
    · exact ih h
    · cases h; exact ⟨rfl, rfl⟩

theorem walkTiles_encode_raised {f : Fmt} {enc : Texel → List Byte} {os : List (Nat × Nat)} {s t : State}
    {g : BlockFault} {info : Word64} (h : walkTiles (encodeTile f enc) os s = .raised g info t) :
    g = .outOverflow ∧ info = t.outLen := by
  induction os generalizing s with
  | nil => cases h
  | cons o os ih =>
    rw [walkTiles_cons] at h
    rcases encodeTile_cases f enc (s.atTile o) with ⟨_, k⟩ | ⟨_, k⟩ <;> rw [k] at h
    · exact ih h
    · cases h; exact ⟨rfl, rfl⟩

/-- A walk that starts within the raw bytes and needs more of them than there are fails. -/
theorem walkTiles_decode_short (f : Fmt) (os : List (Nat × Nat)) (s : State)
    (h : s.rawLen.toNat < s.cur.toNat + tileBytes f * os.length) (hc : s.cur.toNat ≤ s.rawLen.toNat) :
    ∃ info t, walkTiles (decodeTile f) os s = .raised .rawUnderrun info t := by
  induction os generalizing s with
  | nil => simp only [List.length_nil] at h; omega
  | cons o os ih =>
    have := s.rawLen.isLt
    rw [walkTiles_cons]
    rcases decodeTile_cases f (s.atTile o) with ⟨k, h'⟩ | ⟨k, h'⟩ <;> rw [h']
    · simp only [State.atTile] at k ⊢
      have e : (BitVec.ofNat 64 (s.cur.toNat + tileBytes f)).toNat = s.cur.toNat + tileBytes f := by
        rw [BitVec.toNat_ofNat, Nat.mod_eq_of_lt (by omega)]
      apply ih
      · simp only [e]; rw [List.length_cons, Nat.mul_add] at h; omega
      · simp only [e]; omega
    · exact ⟨_, _, rfl⟩

/-- A walk that starts within OUT and needs more of it than there is fails. -/
theorem walkTiles_encode_full (f : Fmt) (enc : Texel → List Byte) (os : List (Nat × Nat)) (s : State)
    (h : s.params.outCap.toNat < s.outLen.toNat + tileBytes f * os.length)
    (hc : s.outLen.toNat ≤ s.params.outCap.toNat) :
    ∃ info t, walkTiles (encodeTile f enc) os s = .raised .outOverflow info t := by
  induction os generalizing s with
  | nil => simp only [List.length_nil] at h; omega
  | cons o os ih =>
    have := s.params.outCap.isLt
    rw [walkTiles_cons]
    rcases encodeTile_cases f enc (s.atTile o) with ⟨k, h'⟩ | ⟨k, h'⟩ <;> rw [h']
    · simp only [State.atTile] at k ⊢
      have e : (BitVec.ofNat 64 (s.outLen.toNat + tileBytes f)).toNat = s.outLen.toNat + tileBytes f := by
        rw [BitVec.toNat_ofNat, Nat.mod_eq_of_lt (by omega)]
      apply ih
      · simp only [e]; rw [List.length_cons, Nat.mul_add] at h; omega
      · simp only [e]; omega
    · exact ⟨_, _, rfl⟩

/-! ## The origin a walk of the image ends at -/

theorem atLastTile_image (s u : State) :
    u.atLastTile (imageTiles s) = { u with
      tileX := if tileCount s = 0 then u.tileX else BitVec.ofNat 32 (8 * ((s.width.toNat + 7) / 8 - 1))
      tileY := if tileCount s = 0 then u.tileY else BitVec.ofNat 32 (8 * ((s.height.toNat + 7) / 8 - 1)) } := by
  have hl := imageTiles_length s
  by_cases h : tileCount s = 0
  · rw [h] at hl
    simp [State.atLastTile, List.length_eq_zero_iff.1 hl, h]
  · have hn : imageTiles s ≠ [] := by intro e; rw [e] at hl; exact h hl.symm
    simp only [State.atLastTile, imageTiles] at *
    rw [tiles_getLast hn]
    simp [State.atTile, h, tilesAcross]

/-! ## Every position of a tile is decoded -/

theorem decodeTexels_covers (raw : Memory) (c : Nat) (f : Fmt) (row col : Nat) (hr : row < 8) (hc : col < 8) :
    ∃ q ∈ decodeTexels raw c f, q.row = row ∧ q.col = col := by
  have plain : ∀ texel : Nat → Texel, ∃ q ∈ tileInOrder texel, q.row = row ∧ q.col = col := by
    intro texel
    have perm : ∀ r < 8, ∀ c < 8, ∃ t, t < 64 ∧ tileRow t = r ∧ tileCol t = c := by decide +kernel
    obtain ⟨t, ht, e1, e2⟩ := perm row hr col hc
    exact ⟨placeAt t (texel t), List.mem_of_getElem? (tileInOrder_get texel t ht), e1, e2⟩
  have blocks : ∀ d m, ∃ q ∈ tileOfBlocks d m, q.row = row ∧ q.col = col := fun d m =>
    ⟨_, List.mem_of_getElem? (tileOfBlocks_get d m (2 * (row / 4) + col / 4) (col % 4) (row % 4)
      (by omega) (by omega) (by omega)), by simp only; omega, by simp only; omega⟩
  cases f <;> first | exact plain _ | exact blocks _ _

theorem read_decodedPix_frame (f : Fmt) (w h : Nat) (raw : Memory) (os : List (Nat × Nat)) (c : Nat)
    (pix : Memory) (a : Nat) (hn : ∀ o ∈ os, ¬TileByte w h o.1 o.2 a) :
    Memory.read .pix (decodedPix f w h raw os c pix) a = Memory.read .pix pix a := by
  induction os generalizing c pix with
  | nil => rfl
  | cons o os ih =>
    rw [decodedPix, ih _ _ fun o' ho' => hn o' (List.mem_cons_of_mem _ ho')]
    exact placeTexels_frame (fr := { w := w, h := h, x := o.1, y := o.2 })
      (fun q hq => decodeTexels_place hq) (hn o List.mem_cons_self)

/-- A byte of some tile of a walk of decodes does not depend on what PIX held. -/
theorem read_decodedPix_covered (f : Fmt) (w h : Nat) (raw : Memory) (os : List (Nat × Nat)) (c : Nat)
    (m m' : Memory) (a : Nat) (hc : ∃ o ∈ os, TileByte w h o.1 o.2 a) :
    Memory.read .pix (decodedPix f w h raw os c m) a = Memory.read .pix (decodedPix f w h raw os c m') a := by
  induction os generalizing c m m' with
  | nil => obtain ⟨_, h, _⟩ := hc; cases h
  | cons o os ih =>
    rw [decodedPix, decodedPix]
    by_cases hr : ∃ o ∈ os, TileByte w h o.1 o.2 a
    · exact ih _ _ _ hr
    · have hn : ∀ o' ∈ os, ¬TileByte w h o'.1 o'.2 a := fun o' ho' ht => hr ⟨o', ho', ht⟩
      rw [read_decodedPix_frame _ _ _ _ _ _ _ _ hn, read_decodedPix_frame _ _ _ _ _ _ _ _ hn]
      obtain ⟨o', ho', ht⟩ := hc
      rcases List.mem_cons.1 ho' with rfl | ho'
      · obtain ⟨r, cl, h1, h2, h3, h4⟩ := ht
        obtain ⟨q, hq, e1, e2⟩ := decodeTexels_covers raw c f r cl h1 h2
        apply read_placeTexels_covered
        refine ⟨q, hq, ?_⟩
        simp only [Frame.pixelOf, Frame.pixel, e1, e2]
        exact ⟨h3, h4⟩
      · exact absurd ht (hn o' ho')

/-! ## The inversion of a command -/

/-- Everything the body of a command can come to. `stops` is a fault raised before anything but FMTSEL
has changed. -/
inductive Effect (s : State) : Instr → Res → Prop
  | stops (i : Instr) (f : BlockFault) (t : State)
      (ht : t = s ∨ t = { s with fmtsel := 0#32 } ∨ ∃ g : Fmt, t = { s with fmtsel := fmtselOf g })
      (hf : f ≠ .rawUnderrun) (hg : f ≠ .outOverflow) (hi : t ≠ s → i = .lookup ∨ i = .deci ∨ i = .enci) :
      Effect s i (.raised f 0#64 t)
  | lookup (f : Fmt) : Effect s .lookup (.ok { s with fmtsel := fmtselOf f })
  | rsmp (sbits tbits : Nat) (h1 : 1 ≤ sbits) (h2 : sbits ≤ 8) (h3 : tbits ≤ 8) :
      Effect s (.rsmp sbits tbits)
        (.ok { s with rsRes := BitVec.ofNat 32 (resample s.rsVal.toNat sbits tbits) })
  | taddr (t bpt : Nat) (pix off : Word64) (b : Bool) :
      Effect s (.taddr t bpt)
        (.ok { s with taPix := pix, taOff := off, status := statusWithInb s.status b })
  | bdec (af : Bool) (tex : Vector Word32 16) : Effect s (.bdec af) (.ok { s with bdTex := tex })
  | dect (f : Fmt) (h : DectReady s) : Effect s (.dect f) (decodeTile f s)
  | enct (f : Fmt) (enc : Texel → List Byte) (he : encodeRoutine f = some enc) :
      Effect s (.enct f) (encodeTile f enc s)
  | deci (f : Fmt) (h : ImageReady s) :
      Effect s .deci (walkTiles (decodeTile f) (imageTiles s) { s with fmtsel := fmtselOf f, cur := 0#64 })
  | enci (f : Fmt) (enc : Texel → List Byte) (h : ImageReady s) (he : encodeRoutine f = some enc) :
      Effect s .enci
        (walkTiles (encodeTile f enc) (imageTiles s) { s with fmtsel := fmtselOf f, outLen := 0#64 })

theorem Effect.stops_same (s : State) (i : Instr) (f : BlockFault) (hf : f ≠ .rawUnderrun)
    (hg : f ≠ .outOverflow) : Effect s i (.raised f 0#64 s) :=
  .stops i f s (.inl rfl) hf hg fun h => absurd rfl h

theorem body_dect (f : Fmt) (s : State) : body (.dect f) s = dectBody f s := by cases f <;> rfl

theorem body_enct (f : Fmt) (s : State) : body (.enct f) s = enctBody f s := by cases f <;> rfl

theorem body_effect (i : Instr) (s : State) : Effect s i (body i s) := by
  rcases instr_families i with rfl | ⟨a, b, rfl⟩ | ⟨a, b, rfl⟩ | ⟨a, rfl⟩ | ⟨f, rfl⟩ | ⟨f, rfl⟩ | rfl | rfl
  · show Effect s .lookup (lookupBody s)
    rcases resolve_cases s (fun _ s => .ok s) with ⟨f, _, k⟩ | ⟨_, k⟩ <;> rw [lookupBody, k]
    · exact .lookup f
    · exact .stops _ _ _ (.inr (.inl rfl)) (by decide) (by decide) fun _ => .inl rfl
  · rcases rsmpBody_cases a b s with ⟨h1, h2, h3, h⟩ | ⟨_, h⟩ <;> rw [body, h]
    · exact .rsmp _ _ h1 h2 h3
    · exact .stops_same _ _ _ (by decide) (by decide)
  · rcases taddrBody_cases a b s with ⟨_, h⟩ | ⟨_, h⟩ <;> rw [body, h]
    · exact .taddr ..
    · exact .stops_same _ _ _ (by decide) (by decide)
  · exact .bdec ..
  · rw [body_dect]
    by_cases h : DectReady s
    · rw [dectBody_ready f s h]; exact .dect f h
    · rw [dectBody_illegal f s h]; exact .stops_same _ _ _ (by decide) (by decide)
  · rw [body_enct]
    by_cases h : EnctReady s
    · rw [enctBody_ready f s h]
      cases he : encodeRoutine f with
      | some enc => exact .enct f enc he
      | none => exact .stops_same _ _ _ (by decide) (by decide)
    · rw [enctBody_illegal f s h]; exact .stops_same _ _ _ (by decide) (by decide)
  · show Effect s .deci (deciBody s)
    by_cases h : ImageReady s ∧ RawReady s
    · cases hf : codeTable s.params s.dtype s.pfmt with
      | some f => rw [deciBody_ready f s h hf]; exact .deci f h.1
      | none =>
        rw [deciBody_noCodec s h hf]
        exact .stops _ _ _ (.inr (.inl rfl)) (by decide) (by decide) fun _ => .inr (.inl rfl)
    · rw [deciBody_illegal s h]; exact .stops_same _ _ _ (by decide) (by decide)
  · show Effect s .enci (enciBody s)
    by_cases h : ImageReady s
    · cases hf : codeTable s.params s.dtype s.pfmt with
      | some f =>
        cases he : encodeRoutine f with
        | some enc => rw [enciBody_ready f enc s h hf he]; exact .enci f enc h he
        | none =>
          rw [enciBody_noEncoder f s h hf he]
          exact .stops _ _ _ (.inr (.inr ⟨f, rfl⟩)) (by decide) (by decide) fun _ => .inr (.inr rfl)
      | none =>
        rw [enciBody_noCodec s h hf]
        exact .stops _ _ _ (.inr (.inl rfl)) (by decide) (by decide) fun _ => .inr (.inr rfl)
    · rw [enciBody_illegal s h]; exact .stops_same _ _ _ (by decide) (by decide)

end Sys2Proof.Machine
end

