-- ==== Sys2Proof/Laws/PerInstr.lean ====
section
/-!
SUPPORT. The per-instruction family RoundTrip: decoding the word of a well-formed instruction gives it
back.
-/

namespace Sys2Proof.Laws.RoundTrip

/-- The decoder reads the instruction back from the word the encoder writes. -/
def Statement (i : Instr) : Prop := i.wellFormed = true → decode (encode i) = .ok i

theorem rsmp (sbits tbits : Nat) : Statement (.rsmp sbits tbits) := by
  intro h
  simp only [Instr.wellFormed, fitsNibble, Bool.and_eq_true, decide_eq_true_eq] at h
  have hw := commandWord_toNat 1 0 (sbits % 16) (tbits % 16) (by decide) (by decide) (by omega) (by omega)
  simp only [encode, decode, bits_eq, hw, Nat.reducePow, Nat.reduceSub, Nat.reduceAdd]
  have e1 : (1 + 0 * 16 + sbits % 16 * 256 + tbits % 16 * 65536) / 16777216 % 256 = 0 := by omega
  have e2 : (1 + 0 * 16 + sbits % 16 * 256 + tbits % 16 * 65536) / 1 % 16 = 1 := by omega
  have e3 : (1 + 0 * 16 + sbits % 16 * 256 + tbits % 16 * 65536) / 16 % 16 = 0 := by omega
  have e4 : (1 + 0 * 16 + sbits % 16 * 256 + tbits % 16 * 65536) / 4096 % 16 = 0 := by omega
  have e5 : (1 + 0 * 16 + sbits % 16 * 256 + tbits % 16 * 65536) / 1048576 % 16 = 0 := by omega
  have e6 : (1 + 0 * 16 + sbits % 16 * 256 + tbits % 16 * 65536) / 256 % 16 = sbits := by omega
  have e7 : (1 + 0 * 16 + sbits % 16 * 256 + tbits % 16 * 65536) / 65536 % 16 = tbits := by omega
  simp only [e1, e2, e3, e4, e5, e6, e7, ne_eq, not_true_eq_false, if_false, and_self, if_true]

theorem taddr (t bpt : Nat) : Statement (.taddr t bpt) := by
  intro h
  simp only [Instr.wellFormed, fitsNibble, fitsTileIndex, Bool.and_eq_true, decide_eq_true_eq] at h
  have hw := commandWord_toNat 2 0 (t % 64) (bpt % 16) (by decide) (by decide) (by omega) (by omega)
  simp only [encode, decode, bits_eq, hw, Nat.reducePow, Nat.reduceSub, Nat.reduceAdd]
  have e1 : (2 + 0 * 16 + t % 64 * 256 + bpt % 16 * 65536) / 16777216 % 256 = 0 := by omega
  have e2 : (2 + 0 * 16 + t % 64 * 256 + bpt % 16 * 65536) / 1 % 16 = 2 := by omega
  have e3 : (2 + 0 * 16 + t % 64 * 256 + bpt % 16 * 65536) / 16 % 16 = 0 := by omega
  have e4 : (2 + 0 * 16 + t % 64 * 256 + bpt % 16 * 65536) / 16384 % 4 = 0 := by omega
  have e5 : (2 + 0 * 16 + t % 64 * 256 + bpt % 16 * 65536) / 1048576 % 16 = 0 := by omega
  have e6 : (2 + 0 * 16 + t % 64 * 256 + bpt % 16 * 65536) / 256 % 64 = t := by omega
  have e7 : (2 + 0 * 16 + t % 64 * 256 + bpt % 16 * 65536) / 65536 % 16 = bpt := by omega
  simp only [e1, e2, e3, e4, e5, e6, e7, ne_eq, not_true_eq_false, if_false, and_self, if_true]

theorem bdec (af : Bool) : Statement (.bdec af) := by intro _; cases af <;> decide

theorem lookup : Statement .lookup := by intro _; decide

theorem dectRgba4444 : Statement .dectRgba4444 := by intro _; decide

theorem dectRgba5551 : Statement .dectRgba5551 := by intro _; decide

theorem dectRgba8888 : Statement .dectRgba8888 := by intro _; decide

theorem dectRgb565 : Statement .dectRgb565 := by intro _; decide

theorem dectRgb888 : Statement .dectRgb888 := by intro _; decide

theorem dectEtc1 : Statement .dectEtc1 := by intro _; decide

theorem dectEtc1a4 : Statement .dectEtc1a4 := by intro _; decide

theorem dectA8 : Statement .dectA8 := by intro _; decide

theorem dectA4 : Statement .dectA4 := by intro _; decide

theorem dectL8 : Statement .dectL8 := by intro _; decide

theorem dectL4 : Statement .dectL4 := by intro _; decide

theorem dectLa88 : Statement .dectLa88 := by intro _; decide

theorem dectLa44 : Statement .dectLa44 := by intro _; decide

theorem enctRgba4444 : Statement .enctRgba4444 := by intro _; decide

theorem enctRgba5551 : Statement .enctRgba5551 := by intro _; decide

theorem enctRgba8888 : Statement .enctRgba8888 := by intro _; decide

theorem enctRgb565 : Statement .enctRgb565 := by intro _; decide

theorem enctRgb888 : Statement .enctRgb888 := by intro _; decide

theorem enctEtc1 : Statement .enctEtc1 := by intro _; decide

theorem enctEtc1a4 : Statement .enctEtc1a4 := by intro _; decide

theorem enctA8 : Statement .enctA8 := by intro _; decide

theorem enctA4 : Statement .enctA4 := by intro _; decide

theorem enctL8 : Statement .enctL8 := by intro _; decide

theorem enctL4 : Statement .enctL4 := by intro _; decide

theorem enctLa88 : Statement .enctLa88 := by intro _; decide

theorem enctLa44 : Statement .enctLa44 := by intro _; decide

theorem deci : Statement .deci := by intro _; decide

theorem enci : Statement .enci := by intro _; decide

end Sys2Proof.Laws.RoundTrip
end

