-- ==== Sys2Proof/Tests/Slice0.lean ====
section
/-!
SUPPORT. The model's own tests: ill-formed terms that the check refuses, every constructor's decoding on a
word written out from R101 to R103 and R111, vectors of spec/95_test_vectors.md (each test names its
vector), and a state that meets the hypotheses of each statement.
-/

namespace Sys2Proof.Tests

-- The tests are elaborated one after the other, so that they do not all wait in threads of their own.
set_option Elab.async false

open Sys2Proof Sys2Proof.Machine

/-! ## Small states -/

/-- Capacities large enough never to fault, and a legal CODE_TABLE with the pair the source fixes. -/
def testParams : Params where
  rawCap := 0x100000#64
  pixCap := 0x100000#64
  outCap := 0x100000#64
  codes := #v[(0#32, 0#32), (1#32, 0#32), (2#32, 0#32), (3#32, 0#32), (0x1401#32, 0x6754#32), (5#32, 0#32),
    (6#32, 0#32), (7#32, 0#32), (8#32, 0#32), (9#32, 0#32), (10#32, 0#32), (11#32, 0#32), (12#32, 0#32)]

/-- "Start from reset" (95_test_vectors.md), with known parameters. -/
def start : State := { State.reset with params := testParams }

/-- An image of `w` by `h` texels with the given raw bytes, all of `len` bytes valid. -/
def image (w h len : Nat) (bytes : List Byte) : State :=
  { start with
    width := BitVec.ofNat 32 w, height := BitVec.ofNat 32 h, rawLen := BitVec.ofNat 64 len
    raw := Memory.writeBytes [] 0 bytes }

/-- A one-texel image whose texel has the given bytes. -/
def texelImage (b g r a : Byte) : State :=
  { image 1 1 0 [] with pix := Memory.writeBytes [] 0 [b, g, r, a] }

/-- The state a step or a command answers with, or `start` if it stops. -/
def after : Host.Outcome State Fault Refusal → State
  | .next s => s
  | .fault _ => start
  | .refused _ => start

/-- The state with one action to come. -/
def doing (act : HostAction) (s : State) : State := { s with pending := [act] }

/-- The first `n` bytes of OUT. -/
def outBytes (s : State) (n : Nat) : List Byte := Memory.readBytes .out s.out 0 n

/-! ## WellFormed: one ill-formed term for each check, at the first value past its field -/

theorem test_illFormed_sbits : (Instr.rsmp 16 8).wellFormed = false := by decide
theorem test_illFormed_tbits : (Instr.rsmp 8 16).wellFormed = false := by decide
theorem test_illFormed_tile : (Instr.taddr 64 1).wellFormed = false := by decide
theorem test_illFormed_bpt : (Instr.taddr 0 16).wellFormed = false := by decide
theorem test_wellFormed_edges :
    (Instr.rsmp 15 15).wellFormed = true ∧ (Instr.taddr 63 15).wellFormed = true := by decide

/-! ## Decode: words written out from the fields OP, FMT, A, B, RSV (R101, R102, R103) -/

theorem test_decode_lookup : decode 0x00000000#32 = .ok .lookup := by decide
theorem test_decode_rsmp : decode 0x00080401#32 = .ok (.rsmp 4 8) := by decide
theorem test_decode_taddr : decode 0x00043F02#32 = .ok (.taddr 63 4) := by decide
theorem test_decode_bdec : decode 0x00000003#32 = .ok (.bdec false) := by decide
theorem test_decode_bdec_alpha : decode 0x00000103#32 = .ok (.bdec true) := by decide
theorem test_decode_dectRgba4444 : decode 0x00000004#32 = .ok .dectRgba4444 := by decide
theorem test_decode_dectRgba5551 : decode 0x00000014#32 = .ok .dectRgba5551 := by decide
theorem test_decode_dectRgba8888 : decode 0x00000024#32 = .ok .dectRgba8888 := by decide
theorem test_decode_dectRgb565 : decode 0x00000034#32 = .ok .dectRgb565 := by decide
theorem test_decode_dectRgb888 : decode 0x00000044#32 = .ok .dectRgb888 := by decide
theorem test_decode_dectEtc1 : decode 0x00000054#32 = .ok .dectEtc1 := by decide
theorem test_decode_dectEtc1a4 : decode 0x00000064#32 = .ok .dectEtc1a4 := by decide
theorem test_decode_dectA8 : decode 0x00000074#32 = .ok .dectA8 := by decide
theorem test_decode_dectA4 : decode 0x00000084#32 = .ok .dectA4 := by decide
theorem test_decode_dectL8 : decode 0x00000094#32 = .ok .dectL8 := by decide
theorem test_decode_dectL4 : decode 0x000000A4#32 = .ok .dectL4 := by decide
theorem test_decode_dectLa88 : decode 0x000000B4#32 = .ok .dectLa88 := by decide
theorem test_decode_dectLa44 : decode 0x000000C4#32 = .ok .dectLa44 := by decide
theorem test_decode_enctRgba4444 : decode 0x00000005#32 = .ok .enctRgba4444 := by decide
theorem test_decode_enctRgba5551 : decode 0x00000015#32 = .ok .enctRgba5551 := by decide
theorem test_decode_enctRgba8888 : decode 0x00000025#32 = .ok .enctRgba8888 := by decide
theorem test_decode_enctRgb565 : decode 0x00000035#32 = .ok .enctRgb565 := by decide
theorem test_decode_enctRgb888 : decode 0x00000045#32 = .ok .enctRgb888 := by decide
theorem test_decode_enctEtc1 : decode 0x00000055#32 = .ok .enctEtc1 := by decide
theorem test_decode_enctEtc1a4 : decode 0x00000065#32 = .ok .enctEtc1a4 := by decide
theorem test_decode_enctA8 : decode 0x00000075#32 = .ok .enctA8 := by decide
theorem test_decode_enctA4 : decode 0x00000085#32 = .ok .enctA4 := by decide
theorem test_decode_enctL8 : decode 0x00000095#32 = .ok .enctL8 := by decide
theorem test_decode_enctL4 : decode 0x000000A5#32 = .ok .enctL4 := by decide
theorem test_decode_enctLa88 : decode 0x000000B5#32 = .ok .enctLa88 := by decide
theorem test_decode_enctLa44 : decode 0x000000C5#32 = .ok .enctLa44 := by decide
theorem test_decode_deci : decode 0x00000006#32 = .ok .deci := by decide
theorem test_decode_enci : decode 0x00000007#32 = .ok .enci := by decide
theorem test_decode_rejects :
    decode 0x00000008#32 = .error .reservedOp ∧ decode 0x01000000#32 = .error .reservedField ∧
    decode 0x00000010#32 = .error .reservedField ∧ decode 0x00081001#32 = .error .reservedField ∧
    decode 0x00400002#32 = .error .reservedField ∧ decode 0x00004002#32 = .error .reservedField ∧
    decode 0x00000203#32 = .error .reservedField ∧ decode 0x00010003#32 = .error .reservedField ∧
    decode 0x000000D4#32 = .error .dectNoCodec ∧ decode 0x000000F5#32 = .error .enctNoCodec := by decide
theorem test_decodeTableWord :
    decodeTableWord 32 0x00040502 = some (.taddr 5 4) ∧ decodeTableWord 32 0x00000008 = none := by decide

/-! ## The first step after reset runs the word it is given -/

theorem test_reset_runs_rsmp :
    step (State.reset.withFetchWord 32 0x00080401) = exec (.rsmp 4 8) State.reset := by rfl
theorem test_reset_runs_lookup :
    answersNext (step (State.reset.withFetchWord 32 0)) = true := by rfl
theorem test_reset_runs_dect :
    answersNext (step (State.reset.withFetchWord 32 0x94)) = true := by rfl
theorem test_reset_runs_deci :
    answersNext (step (State.reset.withFetchWord 32 6)) = true := by rfl

/-! ## Commands (95_test_vectors.md) -/

/-- L2-LK, first row. -/
theorem test_lookup_found :
    (after (exec .lookup { start with dtype := 0x1401#32, pfmt := 0x6754#32 })).fmtsel = 0x14#32 := by
  decide +kernel
/-- L2-LK, second row. -/
theorem test_lookup_missing :
    let t := after (exec .lookup { start with dtype := 0x1401#32, pfmt := 0x6752#32, fmtsel := 0x14#32 })
    t.fmtsel = 0#32 ∧ t.status = 1#32 := by decide +kernel
/-- L2-RS: 0x2A5 from six bits to eight. -/
theorem test_rsmp : (after (exec (.rsmp 6 8) { start with rsVal := 0x2A5#32 })).rsRes = 150#32 := by decide
/-- P3, step 8. -/
theorem test_rsmp_illegal :
    let t := after (exec (.rsmp 0 8) { start with status := 0x10#32, rsRes := 24#32 })
    t.status = 0x14#32 ∧ t.faultCmd = 0x00080001#32 ∧ t.faultInfo = 0#64 ∧ t.rsRes = 24#32 := by decide
/-- P3, step 4. -/
theorem test_taddr_inside :
    let t := after (exec (.taddr 5 4) { image 16 16 0 [] with tileX := 8#32, tileY := 8#32 })
    t.taPix = 139#64 ∧ t.taOff = 556#64 ∧ t.status = 0x10#32 := by decide
/-- P3, step 5. -/
theorem test_taddr_outside :
    let t := after (exec (.taddr 63 4) { image 10 10 0 [] with tileX := 8#32, tileY := 8#32, status := 0x10#32 })
    t.taPix = 165#64 ∧ t.taOff = 660#64 ∧ t.status = 0#32 := by decide
/-- V-ETC-4: a differential sum that is not clamped. -/
theorem test_bdec :
    (after (exec (.bdec false) { start with bdDesc := 0x83FB041F0000FFFF#64 })).bdTex.toList =
      List.replicate 8 0xFF8CFF08#32 ++ List.replicate 8 0xFFFFFFB6#32 := by decide +kernel
/-- V-ETC-5. -/
theorem test_bdec_alpha :
    (after (exec (.bdec true) { start with
      bdDesc := 0xF0880F740F0F00FF#64, bdAlpha := 0xFEDCBA9876543210#64 })).bdTex.toList.take 8 =
      [0x00D55E00#32, 0x44FFB22A#32, 0x880070E7#32, 0xCC18A0FF#32,
       0x11D55E00#32, 0x55FFB22A#32, 0x990070E7#32, 0xDD18A0FF#32] := by decide +kernel

/-! ## DECT: the units of L2-DC -/

theorem test_dectRgba4444 :
    let t := after (exec .dectRgba4444 (image 1 1 128 [90#8, 240#8]))
    pixRead t.pix 0 = ⟨85#8, 0#8, 255#8, 170#8⟩ ∧ t.cur = 128#64 := by decide +kernel
theorem test_dectRgba5551 :
    let t := after (exec .dectRgba5551 (image 1 1 128 [193#8, 7#8]))
    pixRead t.pix 0 = ⟨0#8, 255#8, 0#8, 255#8⟩ ∧ t.cur = 128#64 := by decide +kernel
theorem test_dectRgba8888 :
    let t := after (exec .dectRgba8888 (image 1 1 256 [128#8, 16#8, 32#8, 48#8]))
    pixRead t.pix 0 = ⟨16#8, 32#8, 48#8, 128#8⟩ ∧ t.cur = 256#64 := by decide +kernel
theorem test_dectRgb565 :
    let t := after (exec .dectRgb565 (image 1 1 128 [0#8, 4#8]))
    pixRead t.pix 0 = ⟨0#8, 130#8, 0#8, 255#8⟩ ∧ t.cur = 128#64 := by decide +kernel
theorem test_dectRgb888 :
    let t := after (exec .dectRgb888 (image 1 1 192 [1#8, 2#8, 3#8]))
    pixRead t.pix 0 = ⟨1#8, 2#8, 3#8, 255#8⟩ ∧ t.cur = 192#64 := by decide +kernel
theorem test_dectA8 :
    let t := after (exec .dectA8 (image 1 1 64 [64#8]))
    pixRead t.pix 0 = ⟨255#8, 255#8, 255#8, 64#8⟩ ∧ t.cur = 64#64 := by decide +kernel
theorem test_dectL8 :
    let t := after (exec .dectL8 (image 1 1 64 [127#8]))
    pixRead t.pix 0 = ⟨127#8, 127#8, 127#8, 255#8⟩ ∧ t.cur = 64#64 := by decide +kernel
theorem test_dectLa88 :
    let t := after (exec .dectLa88 (image 1 1 128 [128#8, 32#8]))
    pixRead t.pix 0 = ⟨32#8, 32#8, 32#8, 128#8⟩ ∧ t.cur = 128#64 := by decide +kernel
theorem test_dectLa44 :
    let t := after (exec .dectLa44 (image 1 1 64 [147#8]))
    pixRead t.pix 0 = ⟨153#8, 153#8, 153#8, 51#8⟩ ∧ t.cur = 64#64 := by decide +kernel
theorem test_dectA4 :
    let t := after (exec .dectA4 (image 2 1 32 [0x3C#8]))
    pixRead t.pix 0 = ⟨255#8, 255#8, 255#8, 204#8⟩ ∧ pixRead t.pix 1 = ⟨255#8, 255#8, 255#8, 51#8⟩ := by
  decide +kernel
theorem test_dectL4 :
    let t := after (exec .dectL4 (image 2 1 32 [0x5A#8]))
    pixRead t.pix 0 = ⟨170#8, 170#8, 170#8, 255#8⟩ ∧ pixRead t.pix 1 = ⟨85#8, 85#8, 85#8, 255#8⟩ := by
  decide +kernel
/-- V-ETC-3 as the first block of a tile, texel (0, 1). -/
theorem test_dectEtc1 :
    let t := after (exec .dectEtc1 (image 8 2 32
      [0xAA#8, 0xAA#8, 0xFF#8, 0xFF#8, 0x4A#8, 0x28#8, 0xA2#8, 0x57#8]))
    (pixRead t.pix 0).word = 0xFF499C20#32 ∧ (pixRead t.pix 8).word = 0xFF35880C#32 := by decide +kernel
/-- P5, first block: the alpha word comes before the colour word. -/
theorem test_dectEtc1a4 :
    let t := after (exec .dectEtc1a4 (image 8 2 64
      [0x10#8, 0x32#8, 0x54#8, 0x76#8, 0x98#8, 0xBA#8, 0xDC#8, 0xFE#8,
       0xFF#8, 0x00#8, 0x0F#8, 0x0F#8, 0x74#8, 0x0F#8, 0x88#8, 0xF0#8]))
    (pixRead t.pix 0).word = 0x00D55E00#32 ∧ (pixRead t.pix 8).word = 0x11D55E00#32 ∧ t.cur = 64#64 := by
  decide +kernel
/-- L2-F: RawUnderrun of `dect.rgb888`. -/
theorem test_dect_underrun :
    let t := after (exec .dectRgb888 (image 8 8 100 []))
    t.status = 5#32 ∧ t.faultCmd = 0x44#32 ∧ t.faultInfo = 0#64 ∧ t.cur = 0#64 := by decide +kernel

/-! ## ENCT: the texels of L2-EN -/

theorem test_enctRgba4444 :
    let t := after (exec .enctRgba4444 (texelImage 8#8 9#8 247#8 128#8))
    outBytes t 2 = [8#8, 241#8] ∧ t.outLen = 128#64 := by decide +kernel
theorem test_enctRgba5551 :
    let t := after (exec .enctRgba5551 (texelImage 4#8 5#8 255#8 255#8))
    outBytes t 2 = [65#8, 248#8] ∧ t.outLen = 128#64 := by decide +kernel
theorem test_enctRgba8888 :
    let t := after (exec .enctRgba8888 (texelImage 16#8 32#8 48#8 128#8))
    outBytes t 4 = [128#8, 16#8, 32#8, 48#8] ∧ t.outLen = 256#64 := by decide +kernel
theorem test_enctRgb565 :
    let t := after (exec .enctRgb565 (texelImage 100#8 100#8 100#8 9#8))
    outBytes t 2 = [44#8, 99#8] ∧ t.outLen = 128#64 := by decide +kernel
theorem test_enctRgb888 :
    let t := after (exec .enctRgb888 (texelImage 1#8 2#8 3#8 0#8))
    outBytes t 3 = [1#8, 2#8, 3#8] ∧ t.outLen = 192#64 := by decide +kernel
theorem test_enctA8 :
    let t := after (exec .enctA8 (texelImage 9#8 9#8 9#8 64#8))
    outBytes t 1 = [64#8] ∧ t.outLen = 64#64 := by decide +kernel
theorem test_enctL8 :
    let t := after (exec .enctL8 (texelImage 10#8 20#8 30#8 7#8))
    outBytes t 1 = [20#8] ∧ t.outLen = 64#64 := by decide +kernel
theorem test_enctLa88 :
    let t := after (exec .enctLa88 (texelImage 0#8 0#8 255#8 7#8))
    outBytes t 2 = [7#8, 85#8] ∧ t.outLen = 128#64 := by decide +kernel
theorem test_enctLa44 :
    let t := after (exec .enctLa44 (texelImage 48#8 96#8 144#8 255#8))
    outBytes t 1 = [111#8] ∧ t.outLen = 64#64 := by decide +kernel
theorem test_enctEtc1_unsupported :
    let t := after (exec .enctEtc1 (texelImage 1#8 2#8 3#8 4#8))
    t.status = 2#32 ∧ t.faultCmd = 0x55#32 ∧ t.outLen = 0#64 := by decide +kernel
theorem test_enctEtc1a4_unsupported :
    let t := after (exec .enctEtc1a4 (texelImage 1#8 2#8 3#8 4#8))
    t.status = 2#32 ∧ t.faultCmd = 0x65#32 ∧ t.outLen = 0#64 := by decide +kernel
theorem test_enctA4_unsupported :
    let t := after (exec .enctA4 (texelImage 1#8 2#8 3#8 4#8))
    t.status = 2#32 ∧ t.faultCmd = 0x85#32 ∧ t.outLen = 0#64 := by decide +kernel
theorem test_enctL4_unsupported :
    let t := after (exec .enctL4 (texelImage 1#8 2#8 3#8 4#8))
    t.status = 2#32 ∧ t.faultCmd = 0xA5#32 ∧ t.outLen = 0#64 := by decide +kernel

/-! ## DECI and ENCI -/

/-- The RGB888 descriptor of P1. -/
def rgb888Image (w h len : Nat) (bytes : List Byte) : State :=
  { image w h len bytes with dtype := 0x1401#32, pfmt := 0x6754#32 }

/-- L2-SQ, zero width. -/
theorem test_deci_no_tiles :
    let t := after (exec .deci { rgb888Image 0 5 0 [] with cur := 77#64, tileX := 3#32 })
    t.status = 0#32 ∧ t.fmtsel = 0x14#32 ∧ t.cur = 0#64 ∧ t.tileX = 3#32 := by decide +kernel
/-- L2-F: RawUnderrun inside `deci`, on the second tile. -/
theorem test_deci_underrun :
    let t := after (exec .deci (rgb888Image 16 8 300 []))
    t.status = 5#32 ∧ t.faultCmd = 6#32 ∧ t.faultInfo = 192#64 ∧ t.cur = 192#64 ∧ t.tileX = 8#32 ∧
      t.fmtsel = 0x14#32 := by decide +kernel
/-- L2-SQ, output length. -/
theorem test_enci_length :
    let t := after (exec .enci (rgb888Image 16 8 0 []))
    t.status = 0#32 ∧ t.outLen = 384#64 ∧ t.tileX = 8#32 ∧ t.tileY = 0#32 := by decide +kernel
/-- P4, step 1. -/
theorem test_enci_overflow :
    let s := rgb888Image 16 8 0 []
    let t := after (exec .enci { s with params := { testParams with outCap := 300#64 } })
    t.status = 6#32 ∧ t.faultCmd = 7#32 ∧ t.faultInfo = 192#64 ∧ t.outLen = 192#64 ∧ t.tileX = 8#32 := by
  decide +kernel

/-! ## Host actions -/

/-- L2-F: a reserved word. -/
theorem test_issue_reserved :
    let t := after (step (doing (.issue 0x00000010#32) { start with fmtsel := 0x14#32 }))
    t.status = 3#32 ∧ t.faultCmd = 0x10#32 ∧ t.fmtsel = 0x14#32 := by decide +kernel
/-- L2-F, priority: the static checks come before the missing codec. -/
theorem test_issue_unknown_format :
    (after (step (doing (.issue 0xD4#32) start))).status = 1#32 ∧
    (after (step (doing (.issue 0xD4#32) { start with width := 0x80000000#32 }))).status = 4#32 := by
  decide +kernel
/-- P3, steps 9 and 11. -/
theorem test_gate_and_reset :
    let s := { start with status := 0x14#32, rsRes := 24#32 }
    (after (step (doing (.issue 3#32) s))).bdTex = s.bdTex ∧
    (after (step (doing (.wr 17#8 7#64) s))).bdDesc = 7#64 ∧
    (after (step (doing (.rd 0#8) s))).reply = .word 0x14#64 ∧
    (after (step (doing .reset s))).status = 0#32 := by decide +kernel
/-- R31, R32: a read-only register and a reserved index ignore writes; a reserved index reads 0. -/
theorem test_wr_ignored :
    (after (step (doing (.wr 14#8 5#64) start))).rsRes = 0#32 ∧
    after (step (doing (.wr 200#8 5#64) start)) = start ∧ readRegister start 35 = 0#64 := by decide +kernel
/-- R70: an address at the capacity does not exist. -/
theorem test_mem_outside :
    step (doing (.memWrite .out 0x100000 [1#8]) start) = .fault .outsideSpace ∧
    (after (step (doing (.memWrite .raw 0xFFFFF [1#8]) start))).raw = [(0xFFFFF, 1#8)] :=
  ⟨rfl, by decide +kernel⟩

/-! ## Memory keeps its form -/

theorem test_memory_form :
    Memory.writeBytes [] 2 [1#8, 2#8] = [(2, 1#8), (3, 2#8)] ∧
    Memory.write [(2, 1#8), (4, 2#8)] 3 9#8 = [(2, 1#8), (3, 9#8), (4, 2#8)] ∧
    Memory.wf (Memory.write [(2, 1#8), (4, 2#8)] 0 9#8) := by decide
theorem test_reset_memory_wf :
    Memory.wf State.reset.raw ∧ Memory.wf State.reset.pix ∧ Memory.wf State.reset.out := by decide

/-! ## STEX (L1-6) -/

/-- A file of 448 bytes has its data at 448 mod 256 = 0xC0 under the formula (C5). -/
theorem test_stex_start : stexDataStart (List.replicate 448 0#8) = 0xC0 := by decide +kernel
theorem test_stex_magic : stexRead [0x53#8, 0x54#8, 0x45#8, 0x59#8] = .error .magicMismatch := by decide
/-- A file of one data byte: 3553 at 0x08, the length at 0x1C and 0x80 at 0x20, the data at 0x80 (R295). -/
theorem test_stex_save :
    let file := stexSave 8#32 8#32 0x1401#32 0x6754#32 { start with outLen := 1#64, out := [(0, 0x6F#8)] }
    (file.drop 8).take 4 = [0xE1#8, 0x0D#8, 0#8, 0#8] ∧
    (file.drop 0x1C).take 8 = [1#8, 0#8, 0#8, 0#8, 0x80#8, 0#8, 0#8, 0#8] ∧
    file.drop 0x80 = [0x6F#8] := by decide +kernel
theorem test_assemblerText :
    assemblerText 0x00080501#32 = some "rsmp 5, 8" ∧ assemblerText 0x00000103#32 = some "bdec.a" ∧
    assemblerText 0x000000C5#32 = some "enct.la44" ∧ assemblerText 8#32 = none := by decide +kernel

/-! ## Witnesses: states that meet the hypotheses of the statements, clause by clause -/

theorem ready (s : State) (h1 : s.width.toNat < 2 ^ 31) (h2 : s.height.toNat < 2 ^ 31)
    (h3 : s.width.toNat * s.height.toNat * 4 ≤ s.params.pixCap.toNat) : ImageReady s := ⟨h1, h2, h3⟩

theorem witness_DecodeOfEncode :
    (Instr.rsmp 15 15).wellFormed = true ∧ (Instr.taddr 63 15).wellFormed = true ∧
    (Instr.bdec true).wellFormed = true ∧ Instr.enci.wellFormed = true := by decide
theorem witness_EncodeOfDecode : decode 0x000F3F02#32 = .ok (.taddr 63 15) := by decide
/-- One word for each clause: reserved OP, RSV, and a must-be-zero field of each operation. -/
theorem witness_ReservedWordsRaiseIllegalCommand :
    (doing (.issue 0x0000000F#32) start).pending = [.issue 0x0000000F#32] ∧ start.err = 0#4 ∧
    0x0000000F % 16 ≥ 8 ∧ 0x01000000 / 16777216 ≠ 0 ∧ (0x10 % 16 = 0 ∧ 0x10 / 16 % 16 ≠ 0) ∧
    (0x106 % 16 = 6 ∧ 0x106 / 256 % 256 ≠ 0) ∧ (0x10007 % 16 = 7 ∧ 0x10007 / 65536 % 256 ≠ 0) ∧
    (0x1001 % 16 = 1 ∧ 0x1001 / 256 % 256 / 16 ≠ 0) ∧ (0x4002 % 16 = 2 ∧ 0x4002 / 256 % 256 / 64 ≠ 0) ∧
    (0x203 % 16 = 3 ∧ 0x203 / 256 % 256 / 2 ≠ 0) ∧ (0x104 % 16 = 4 ∧ 0x104 / 256 % 256 ≠ 0) ∧
    (0x10005 % 16 = 5 ∧ 0x10005 / 65536 % 256 ≠ 0) := by decide
theorem witness_UnknownFormatsRaiseCodecNotFound :
    start.err = 0#4 ∧ (13 ≤ 13 ∧ 13 ≤ 15) ∧ (13 ≤ 15 ∧ 15 ≤ 15) ∧ DectReady start ∧ EnctReady start ∧
    ¬DectReady { start with width := 0x80000000#32 } ∧
    ¬EnctReady { start with tileY := 0x80000000#32 } := by
  unfold DectReady EnctReady ImageReady RawReady OriginReady
  decide
theorem witness_StepRunsDecodedInstruction :
    start.err = 0#4 ∧ (doing (.issue 6#32) start).pending = .issue 6#32 :: [] ∧ decode 6#32 = .ok .deci ∧
    (Instr.taddr 63 15).wellFormed = true ∧ start.pending = [] := by decide
/-- A state with a fault pending. -/
def faulted : State := { start with status := 6#32, faultCmd := 7#32, faultInfo := 192#64 }
theorem witness_StickyFaultGate :
    faulted.err ≠ 0#4 ∧ (doing (.issue 0#32) faulted).pending = .issue 0#32 :: [] ∧
    (doing (.wr 17#8 7#64) faulted).pending = .wr 17#8 7#64 :: [] ∧
    (doing (.rd 0#8) faulted).pending = .rd 0#8 :: [] ∧
    (0 + [1#8].length ≤ faulted.params.cap .raw) ∧ (0xFFFFF + 1 ≤ faulted.params.cap .out) ∧
    (doing (.rd 0#8) faulted).pending.head? ≠ some .reset ∧
    (doing .reset faulted).pending = .reset :: [] := by decide
theorem witness_StickyFaultGate_steps :
    step (doing (.rd 0#8) faulted) = .next { faulted with reply := .word 6#64 } := by rfl
theorem witness_HostRegisterAccess :
    (doing (.wr 4#8 0x100000001#64) start).pending = .wr 4#8 0x100000001#64 :: [] ∧
    (doing (.wr 18#8 1#64) start).pending = .wr 18#8 1#64 :: [] ∧
    (doing (.wr 255#8 1#64) start).pending = .wr 255#8 1#64 :: [] ∧
    (doing (.rd 35#8) start).pending = .rd 35#8 :: [] ∧ 35 ≤ (35#8).toNat := by decide
theorem witness_ResetZeroesRegisters : (doing .reset faulted).pending = .reset :: [] := by decide
/-- Both sides of the capacity, for a write and for a read. -/
theorem witness_HostMemoryAccess :
    (doing (.memWrite .pix 0xFFFFF [1#8]) start).pending = .memWrite .pix 0xFFFFF [1#8] :: [] ∧
    [1#8] ≠ [] ∧ 0xFFFFF + [1#8].length ≤ start.params.cap .pix ∧
    start.params.cap .pix < 0x100000 + [1#8].length ∧
    (doing (.memRead .raw 0xFFFFE 2) start).pending = .memRead .raw 0xFFFFE 2 :: [] ∧ 0 < 2 ∧
    0xFFFFE + 2 ≤ start.params.cap .raw ∧ start.params.cap .raw < 0xFFFFF + 2 := by decide
/-- A command that raises nothing and one that raises a fault. -/
theorem witness_FaultRegistersNameTheCommand :
    start.err = 0#4 ∧ (∃ t, step (doing (.issue 3#32) start) = .next t ∧ t.err = 0#4) ∧
    (∃ t, step (doing (.issue 8#32) start) = .next t ∧ t.err = 3#4) :=
  ⟨by decide, ⟨_, rfl, by decide +kernel⟩, ⟨_, rfl, by decide +kernel⟩⟩
/-- One state for each check of R175, at the first value that fails it. -/
theorem witness_StaticChecks :
    ¬DectReady { start with width := 0x80000000#32 } ∧ ¬DectReady { start with tileX := 0x80000000#32 } ∧
    ¬DectReady { start with rawLen := 0x100001#64 } ∧ ¬EnctReady { start with height := 0x80000000#32 } ∧
    ¬EnctReady (image 0x40001 1 0 []) ∧
    ¬(ImageReady { start with rawLen := 0x100001#64 } ∧ RawReady { start with rawLen := 0x100001#64 }) ∧
    ¬ImageReady (image 1 0x40001 0 []) := by
  unfold DectReady EnctReady ImageReady RawReady OriginReady
  decide
/-- A descriptor of the table, one that is not in it, one without an encoder; enough bytes, and too few. -/
theorem witness_ImageFaultPriority :
    let s := rgb888Image 8 8 192 []
    (ImageReady s ∧ RawReady s) ∧ codeTable s.params s.dtype s.pfmt = some .rgb888 ∧
    tileBytes .rgb888 * tileCount s ≤ s.rawLen.toNat ∧
    ¬(tileBytes .rgb888 * tileCount (rgb888Image 16 8 192 []) ≤ s.rawLen.toNat) ∧
    ¬(ImageReady { s with width := 0x80000000#32 } ∧ RawReady { s with width := 0x80000000#32 }) ∧
    codeTable s.params 0x1401#32 0x6752#32 = none ∧ codeTable s.params 5#32 0#32 = some .etc1 ∧
    encodeRoutine .etc1 = none ∧ tileBytes .rgb888 * tileCount s ≤ s.params.outCap.toNat ∧
    tileBytes .rgb888 * tileCount s > 191 := by
  unfold ImageReady RawReady
  decide +kernel
theorem witness_ImageFaultPriority_runs :
    (∃ t, exec .deci (rgb888Image 8 8 192 []) = .next t) ∧ (∃ t, exec .enci (rgb888Image 8 8 0 []) = .next t) ∧
    ∃ enc, encodeRoutine .rgb888 = some enc := ⟨⟨_, rfl⟩, ⟨_, rfl⟩, ⟨_, rfl⟩⟩
/-- The ends of each range, in it and out of it. -/
theorem witness_RsmpResult :
    (1 ≤ 1 ∧ 1 ≤ 8 ∧ 0 ≤ 8) ∧ (1 ≤ 8 ∧ 8 ≤ 8 ∧ 8 ≤ 8) ∧ ¬(1 ≤ 0 ∧ 0 ≤ 8 ∧ 8 ≤ 8) ∧
    ¬(1 ≤ 9 ∧ 9 ≤ 8 ∧ 8 ≤ 8) ∧ ¬(1 ≤ 8 ∧ 8 ≤ 8 ∧ 9 ≤ 8) ∧ (15 < 16) ∧
    ((0x00081001#32).toNat % 16 = 1 ∧ (0x00081001#32).toNat / 4096 % 16 ≠ 0) := by decide
theorem witness_Resample : 1 ≤ 1 ∧ 1 ≤ 8 ∧ 0 ≤ 8 ∧ 1 ≤ 8 ∧ 8 ≤ 8 := by decide
theorem witness_TaddrResult :
    let s := { image 16 16 0 [] with tileX := 8#32, tileY := 8#32 }
    (63 < 64 ∧ 15 < 16) ∧ (ImageReady s ∧ OriginReady s ∧ 15 ≠ 0 ∧ ((7 + 8) * 16 + (7 + 8)) * 15 < 2 ^ 64) ∧
    ¬(ImageReady s ∧ OriginReady s ∧ 0 ≠ 0 ∧ 0 < 2 ^ 64) ∧
    ((0x00404002#32).toNat % 16 = 2 ∧ (0x00404002#32).toNat / 16384 % 4 ≠ 0) := by
  unfold ImageReady OriginReady
  decide
/-- A state in which the byte offset does not fit in 64 bits: a legal image of no rows. -/
theorem witness_TaddrResult_overflow :
    let s := { image 0x7FFFFFFF 0 0 [] with tileX := 0x7FFFFFFF#32, tileY := 0x7FFFFFFF#32 }
    ImageReady s ∧ OriginReady s ∧
    ¬((tileOrder 0 / 8 + s.tileY.toNat) * s.width.toNat + (tileOrder 0 % 8 + s.tileX.toNat)) * 15 < 2 ^ 64 := by
  unfold ImageReady OriginReady
  decide
theorem witness_InBoundsFlagIsByteCheck :
    let s := image 8 8 0 []
    63 < 64 ∧ 1 ≤ 15 ∧ 15 < 16 ∧ ImageReady s ∧ OriginReady s ∧
    pixelIndex s.width.toNat s.tileX.toNat s.tileY.toNat (tileRow 63) (tileCol 63) * 15 < 2 ^ 64 := by
  unfold ImageReady OriginReady
  decide
theorem witness_TileTexelsArePermutation : 16 % 8 = 0 ∧ 8 % 8 = 0 ∧ 0 < 16 := by decide
/-- A texel inside, one just past the end, one past the last column, one past the last row. -/
theorem witness_RowWrapAndClipping :
    let p := fun row col => (row + 0) * 10 + (col + 8)
    (7 < 8) ∧ p 9 1 < 10 * 10 ∧ 10 * 10 ≤ p 9 2 ∧ 10 ≤ 2 + 8 ∧ 10 ≤ 7 + 3 := by decide
theorem testParams_legal : testParams.legal := by decide +kernel
theorem witness_CodeTableIsInjective : testParams.legal := testParams_legal
theorem witness_LookupResult :
    testParams.legal ∧ testParams.codes.toList[Fmt.rgb888.index]? = some (0x1401#32, 0x6754#32) ∧
    (0x1401#32, 0x6752#32) ∉ testParams.codes.toList ∧
    ((0x10#32).toNat % 16 = 0 ∧ (0x10#32).toNat ≠ 0) := by decide +kernel
/-- A descriptor in each mode, and the ends of the ranges of `exp5`. -/
theorem witness_BaseColours :
    (0x0000000000000000#64).toNat / 2 ^ 33 % 2 = 0 ∧ (0x83FB041F0000FFFF#64).toNat / 2 ^ 33 % 2 = 1 ∧
    ((0 : Int) ≤ 31 ∧ (31 : Int) ≤ 31) ∧ ((-4 : Int) ≤ -4 ∧ (-4 : Int) ≤ -1) := by decide
theorem witness_BlockRangeFacts :
    diffMode 0#64 = false ∧ (baseA 0#64).r ∈ [(baseA 0#64).r] ∧ diffMode 0x83FB041F0000FFFF#64 = true := by
  decide
theorem witness_BdecResult :
    3 < 4 ∧ ((0x203#32).toNat % 16 = 3 ∧ (0x203#32).toNat / 512 ≠ 0) ∧
    ((0x13#32).toNat % 16 = 3 ∧ (0x13#32).toNat / 16 % 16 ≠ 0) := by decide
/-- Exactly the bytes of one tile left, and one byte too few. -/
theorem witness_DectDecodesOneTile :
    let s := image 8 8 256 []
    DectReady s ∧ (∀ f ∈ Fmt.all, s.cur.toNat + tileBytes f ≤ s.rawLen.toNat) ∧
    s.cur.toNat + tileBytes .rgba8888 = s.rawLen.toNat := by
  unfold DectReady ImageReady RawReady OriginReady
  decide +kernel
theorem witness_DectStoresTexelsInOrder :
    let s := image 8 8 64 []
    DectReady s ∧ s.cur.toNat + tileBytes .l8 ≤ s.rawLen.toNat ∧ (∃ t, exec (.dect .l8) s = .next t) ∧
    ((decodeTexels s.raw s.cur.toNat .l8)[63]?.map fun q =>
      (q.row, q.col, decide (pixelIndex 8 0 0 q.row q.col < 8 * 8))) = some (7, 7, true) := by
  refine ⟨?_, by decide +kernel, ⟨_, rfl⟩, by decide +kernel⟩
  unfold DectReady ImageReady RawReady OriginReady
  decide +kernel
theorem witness_FormatsDecode : 0 < 64 ∧ 63 < 64 ∧ 3 < 4 := by decide
theorem witness_DectRawUnderrun :
    let s := image 8 8 31 []
    DectReady s ∧ ∀ f ∈ Fmt.all, s.rawLen.toNat < s.cur.toNat + tileBytes f := by
  unfold DectReady ImageReady RawReady OriginReady
  decide +kernel
/-- The nine formats with an encoder. -/
theorem witness_EnctAppendsOneTile :
    let s := { image 8 8 0 [] with outLen := 0xFFF00#64 }
    EnctReady s ∧ (∀ f ∈ Fmt.all, s.outLen.toNat + tileBytes f ≤ s.params.outCap.toNat) ∧
    s.outLen.toNat + tileBytes .rgba8888 = s.params.outCap.toNat := by
  unfold EnctReady ImageReady OriginReady
  decide +kernel
theorem witness_encoders :
    ∀ f ∈ [Fmt.rgba4444, .rgba5551, .rgba8888, .rgb565, .rgb888, .a8, .l8, .la88, .la44],
      ∃ enc, encodeRoutine f = some enc := by
  intro f hf
  simp only [List.mem_cons, List.not_mem_nil, or_false] at hf
  rcases hf with rfl | rfl | rfl | rfl | rfl | rfl | rfl | rfl | rfl <;> exact ⟨_, rfl⟩
theorem witness_AbsentEncodersAreUnsupported : EnctReady (image 8 8 0 []) := by
  unfold EnctReady ImageReady OriginReady
  decide
theorem witness_EnctOutOverflow :
    let s := { image 8 8 0 [] with outLen := 0xFFF01#64 }
    EnctReady s ∧ s.params.outCap.toNat < s.outLen.toNat + tileBytes .rgba8888 := by
  unfold EnctReady ImageReady OriginReady
  decide
theorem witness_TilesInRowMajorOrder : 3 < (tiles 10 10).length := by decide
/-- An image of four tiles, and one of no tile; exactly enough raw bytes. -/
theorem witness_DeciDecodesTheImage :
    let s := rgb888Image 10 10 768 []
    let z := rgb888Image 0 5 0 []
    (ImageReady s ∧ RawReady s) ∧ codeTable s.params s.dtype s.pfmt = some .rgb888 ∧
    tileBytes .rgb888 * tileCount s = s.rawLen.toNat ∧ (ImageReady z ∧ RawReady z) ∧
    tileBytes .rgb888 * tileCount z ≤ z.rawLen.toNat := by
  unfold ImageReady RawReady
  decide +kernel
theorem witness_EnciEncodesTheImage :
    let s := rgb888Image 10 10 0 []
    ImageReady s ∧ codeTable s.params s.dtype s.pfmt = some .rgb888 ∧
    tileBytes .rgb888 * tileCount s ≤ s.params.outCap.toNat := by
  unfold ImageReady
  decide +kernel
theorem witness_ImageCommandsRejectDescriptors :
    let s := { rgb888Image 8 8 192 [] with pfmt := 0x6752#32 }
    let e := { rgb888Image 8 8 192 [] with dtype := 10#32, pfmt := 0#32 }
    ImageReady s ∧ RawReady s ∧ codeTable s.params s.dtype s.pfmt = none ∧ ImageReady e ∧
    codeTable e.params e.dtype e.pfmt = some .l4 ∧ encodeRoutine .l4 = none := by
  unfold ImageReady RawReady
  decide +kernel
/-- ENCI of L4 finds the entry and writes FMTSEL before it raises UnsupportedOperation (R173, R36). -/
theorem test_enci_unsupported :
    let e := { rgb888Image 8 8 0 [] with dtype := 10#32, pfmt := 0#32, fmtsel := 0x14#32 }
    let t := after (exec .enci e)
    t.status = 2#32 ∧ t.faultCmd = 7#32 ∧ t.fmtsel = 0x1A#32 := by decide +kernel
theorem witness_DeciEqualsWalkOfDect :
    let s := rgb888Image 10 10 768 []
    s.err = 0#4 ∧ (ImageReady s ∧ RawReady s) ∧ codeTable s.params s.dtype s.pfmt = some .rgb888 ∧
    tileBytes .rgb888 * tileCount s ≤ s.rawLen.toNat ∧ ∃ t, exec .deci s = .next t := by
  unfold ImageReady RawReady
  exact ⟨by decide, by decide +kernel, by decide +kernel, by decide +kernel, ⟨_, rfl⟩⟩
theorem witness_EnciEqualsWalkOfEnct :
    let s := rgb888Image 10 10 0 []
    s.err = 0#4 ∧ ImageReady s ∧ codeTable s.params s.dtype s.pfmt = some .rgb888 ∧
    (∃ enc, encodeRoutine .rgb888 = some enc) ∧
    tileBytes .rgb888 * tileCount s ≤ s.params.outCap.toNat ∧ ∃ t, exec .enci s = .next t := by
  unfold ImageReady
  exact ⟨by decide, by decide +kernel, by decide +kernel, ⟨_, rfl⟩, by decide +kernel, ⟨_, rfl⟩⟩
/-- Two states that differ in PIX alone. -/
theorem witness_DeciIgnoresOldPixels :
    let s₁ := rgb888Image 10 10 768 []
    let s₂ := { s₁ with pix := [(0, 7#8)] }
    99 < 10 * 10 ∧ (ImageReady s₁ ∧ RawReady s₁) ∧ s₁.width = s₂.width ∧ s₁.raw = s₂.raw ∧
    s₁.pix ≠ s₂.pix ∧ codeTable s₁.params s₁.dtype s₁.pfmt = some .rgb888 ∧
    tileBytes .rgb888 * tileCount s₁ ≤ s₁.rawLen.toNat ∧ (∃ t, exec .deci s₁ = .next t) ∧
    ∃ t, exec .deci s₂ = .next t := by
  unfold ImageReady RawReady
  exact ⟨by decide, by decide +kernel, rfl, rfl, by decide +kernel, by decide +kernel, by decide +kernel,
    ⟨_, rfl⟩, ⟨_, rfl⟩⟩
/-- A fault on the second tile. -/
theorem witness_DeciStopsAtTheFailingTile :
    let s := rgb888Image 16 8 300 []
    (ImageReady s ∧ RawReady s) ∧ codeTable s.params s.dtype s.pfmt = some .rgb888 ∧
    s.rawLen.toNat / tileBytes .rgb888 = 1 ∧ 1 < tileCount s ∧ ∃ t, exec .deci s = .next t := by
  unfold ImageReady RawReady
  exact ⟨by decide +kernel, by decide +kernel, by decide +kernel, by decide +kernel, ⟨_, rfl⟩⟩
theorem witness_EnciStopsAtTheFailingTile :
    let i := rgb888Image 16 8 0 []
    let s := { i with params := { testParams with outCap := 300#64 } }
    ImageReady s ∧ codeTable s.params s.dtype s.pfmt = some .rgb888 ∧
    (∃ enc, encodeRoutine .rgb888 = some enc) ∧
    s.params.outCap.toNat / tileBytes .rgb888 = 1 ∧ 1 < tileCount s ∧ ∃ t, exec .enci s = .next t := by
  unfold ImageReady
  exact ⟨by decide +kernel, by decide +kernel, ⟨_, rfl⟩, by decide +kernel, by decide +kernel, ⟨_, rfl⟩⟩
/-- For TexelRoundTripConditions see `witness_encoders`. -/
theorem witness_ImageRoundTrip :
    let s := rgb888Image 8 16 0 []
    ImageReady s ∧ s.width.toNat % 8 = 0 ∧ s.height.toNat % 8 = 0 ∧
    codeTable s.params s.dtype s.pfmt = some .rgb888 ∧ (∃ enc, encodeRoutine .rgb888 = some enc) ∧
    tileBytes .rgb888 * tileCount s ≤ s.params.outCap.toNat ∧
    tileBytes .rgb888 * tileCount s ≤ s.params.rawCap.toNat ∧
    (∃ t, exec .enci s = .next t ∧ ∃ u, exec .deci { t with raw := t.out, rawLen := t.outLen } = .next u) ∧
    127 < s.width.toNat * s.height.toNat := by
  unfold ImageReady
  exact ⟨by decide +kernel, by decide +kernel, by decide +kernel, by decide +kernel, ⟨_, rfl⟩,
    by decide +kernel, by decide +kernel, ⟨_, rfl, ⟨_, rfl⟩⟩, by decide +kernel⟩
theorem witness_DirectionOfAccess :
    (∃ t, exec (.enct .l8) start = .next t) ∧ (∃ t, exec .enci start = .next t) ∧
    (∃ t, exec (.dect .l8) start = .next t) ∧ (∃ t, exec .deci start = .next t) ∧
    (∃ t, exec (.rsmp 4 8) start = .next t) ∧ (∃ t, exec (.taddr 0 1) start = .next t) ∧
    (∃ t, exec (.bdec true) start = .next t) ∧ ∃ t, exec .lookup start = .next t :=
  ⟨⟨_, rfl⟩, ⟨_, rfl⟩, ⟨_, rfl⟩, ⟨_, rfl⟩, ⟨_, rfl⟩, ⟨_, rfl⟩, ⟨_, rfl⟩, ⟨_, rfl⟩⟩
theorem witness_EveryStepKeepsInv :
    Inv (doing (.issue 3#32) start) ∧ ∃ t, step (doing (.issue 3#32) start) = .next t :=
  ⟨{ rawWithin := by decide
     pixWithin := by decide
     outWithin := by decide
     codesLegal := testParams_legal
     statusReserved := by decide
     errLegal := by decide
     fmtselReserved := by decide
     fmtselLegal := by decide
     fmtselInvalid := by decide
     rsResByte := by decide
     noFault := by decide
     noDetail := by decide }, ⟨_, rfl⟩⟩
theorem witness_SafeStatesNeverStop :
    (doing (.memRead .out 0 16) start).safe = true ∧
    (doing (.memRead .out 0x100000 1) start).safe = false ∧
    step (doing (.memRead .out 0x100000 1) start) = .fault .outsideSpace :=
  ⟨by decide +kernel, by decide +kernel, rfl⟩
theorem witness_StexDataComesBackByLength :
    (List.replicate 256 0#8).length % 0x100 = 0 ∧ (List.replicate 192 0#8).length % 0x100 ≠ 0 := by
  decide +kernel
theorem witness_StexHeaderReadsBack :
    (List.replicate 192 0#8).length < 2 ^ 32 ∧
    [0x53#8, 0x54#8, 0x45#8, 0x59#8].take 4 ≠ [0x53#8, 0x54#8, 0x45#8, 0x58#8] := by decide +kernel
theorem witness_StexSaveHoldsTheOutput :
    let s := doing (.memRead .out 0 1) { start with outLen := 1#64 }
    s.pending = [.memRead .out 0 s.outLen.toNat] ∧ s.outLen.toNat ≤ s.params.outCap.toNat ∧
    s.outLen.toNat < 2 ^ 32 ∧ 0 < s.outLen.toNat := by decide +kernel

end Sys2Proof.Tests
end

/-!
PROOFS. The statements of 00_scope.md: the host's memory accesses, CODE_TABLE, LOOKUP and the texels DECT
stores.
-/

namespace Sys2Proof

theorem encode_lookup : encode .lookup = 0#32 := by decide

/-- A word with OP 0 in which some other field is set is no LOOKUP (R103, R106). -/
theorem decode_reserved_lookup {c : Word32} (hop : bits c 3 0 = 0) (hc : c.toNat ≠ 0) :
    decode c = .error .reservedField := by
  have hfields := word_fields c
  unfold decode
  rw [hop]
  by_cases hrsv : bits c 31 24 = 0
  · have hset : ¬(bits c 7 4 = 0 ∧ bits c 15 8 = 0 ∧ bits c 23 16 = 0) := by omega
    simp [hrsv, hset]
  · simp [hrsv]

end Sys2Proof

namespace Sys2Proof.Machine

/-! ## The host's memory accesses (R70, R80, R100) -/

theorem accessFits_of_le {p : Params} {sp : Space} {a n : Nat} (h : a + n ≤ p.cap sp) :
    accessFits p sp a n = true := (accessFits_iff p sp a n).2 (.inr h)

theorem not_accessFits_of_lt {p : Params} {sp : Space} {a n : Nat} (hn : 0 < n) (h : p.cap sp < a + n) :
    accessFits p sp a n ≠ true := by
  rw [ne_eq, accessFits_iff]
  omega

theorem read_writeBytes_inside (sp : Space) (m : Memory) (a : Nat) (bs : List Byte) (i : Nat)
    (h : i < bs.length) : Memory.read sp (Memory.writeBytes m a bs) (a + i) = bs[i] := by
  rw [read_writeBytes, if_pos (by omega), Nat.add_sub_cancel_left, List.getD_eq_getElem _ _ h]

theorem read_writeBytes_outside (sp : Space) (m : Memory) (a b : Nat) (bs : List Byte)
    (h : b < a ∨ a + bs.length ≤ b) :
    Memory.read sp (Memory.writeBytes m a bs) b = Memory.read sp m b := by
  rw [read_writeBytes, if_neg (by omega)]

/-- Settles O11: an access within the capacity is one store or one read of its bytes, and any other stops
the machine. -/
theorem hostMemoryAccess : Obligations.HostMemoryAccess := by
  unfold Obligations.HostMemoryAccess
  intro s rest sp a
  constructor
  · intro bs hpending hne
    refine ⟨fun hfits => ?_, fun hpast => ?_⟩
    · exact ⟨_, step_memWrite hpending (accessFits_of_le hfits),
        read_writeBytes_inside sp (s.memory sp) a bs,
        fun b => read_writeBytes_outside sp (s.memory sp) a b bs⟩
    · exact step_memWrite_outside hpending (not_accessFits_of_lt (List.length_pos_iff.2 hne) hpast)
  · intro n hpending hn
    refine ⟨fun hfits => ?_, fun hpast => ?_⟩
    · exact step_memRead hpending (accessFits_of_le hfits)
    · exact step_memRead_outside hpending (not_accessFits_of_lt hn hpast)

/-! ## CODE_TABLE (R109) -/

theorem index_lt_codes_length (p : Params) (f : Fmt) : f.index < p.codes.toList.length := by
  have := index_le f
  rw [Vector.length_toList]
  omega

/-- A pair that is nowhere in the table, legal or not, resolves to no format. -/
theorem codeTable_of_not_mem {p : Params} {d q : Word32} (h : (d, q) ∉ p.codes.toList) :
    codeTable p d q = none :=
  Option.eq_none_iff_forall_ne_some.2 fun _ hf => h (List.mem_of_getElem? (codeTable_some hf))

theorem reset_codes : State.reset.params.codes.toList = List.ofFn fun i : Fin 13 => Config.codePair i.val :=
  Vector.toList_ofFn

/-- The table at reset is one that R109 allows, whatever the open rearrangement is. -/
theorem reset_params_legal : State.reset.params.legal := by
  constructor
  · rw [reset_codes, List.nodup_ofFn]
    exact fun i j h => Fin.ext (codePair_injective (by omega) (by omega) h)
  · rw [reset_codes, List.getElem?_ofFn, dif_pos (by decide), codePair_four, Config.rgb888Pair]

/-- Settles O27: in a legal table a format's only code pair is its entry. -/
theorem codeTableIsInjective : Obligations.CodeTableIsInjective := by
  unfold Obligations.CodeTableIsInjective
  refine ⟨reset_params_legal, fun p hp => ⟨fun e => ?_, codeTable_of_pair hp hp.2⟩⟩
  obtain ⟨⟨d, q⟩, hentry⟩ : ∃ c, p.codes.toList[e.index]? = some c :=
    ⟨_, List.getElem?_eq_getElem (index_lt_codes_length p e)⟩
  refine ⟨d, q, codeTable_of_pair hp hentry, fun d' q' h => ?_⟩
  have hsame : some (d', q') = some (d, q) := (codeTable_some h).symm.trans hentry
  simpa using hsame

/-! ## LOOKUP (R171) -/

theorem lookupBody_found {s : State} {f : Fmt} (h : codeTable s.params s.dtype s.pfmt = some f) :
    lookupBody s = .ok { s with fmtsel := fmtselOf f } := by
  simp only [lookupBody, resolve, h]

theorem lookupBody_missing {s : State} (h : codeTable s.params s.dtype s.pfmt = none) :
    lookupBody s = .raised .codecNotFound 0#64 { s with fmtsel := 0#32 } := by
  simp only [lookupBody, resolve, h]

/-- Settles O28: LOOKUP ends as its resolution does, and only the zero word of OP 0 is LOOKUP. -/
theorem lookupResult : Obligations.LookupResult := by
  unfold Obligations.LookupResult
  refine ⟨by decide, fun s hlegal => ⟨fun f hpair => ?_, fun hmissing => ?_⟩, fun c hop hc => ?_⟩
  · rw [exec_lookup, lookupBody_found (codeTable_of_pair hlegal hpair), command_eq, Res.finish_ok,
      fmtselOf_eq]
  · rw [exec_lookup, lookupBody_missing (codeTable_of_not_mem hmissing), command_eq, Res.finish_raised,
      encode_lookup]
  · exact decode_reserved_lookup (by simpa [bits_eq] using hop) hc

/-! ## The texels of a DECT (R176, R202) -/

/-- A DECT whose checks pass and whose bytes are there stores its texels and advances CUR. -/
theorem exec_dect_ok {s : State} {f : Fmt} (hready : DectReady s)
    (hbytes : s.cur.toNat + tileBytes f ≤ s.rawLen.toNat) :
    exec (.dect f) s = .next { s with
      pix := placeTexels s.frame s.pix (decodeTexels s.raw s.cur.toNat f)
      cur := BitVec.ofNat 64 (s.cur.toNat + tileBytes f) } := by
  rw [exec_dect, dectBody_ready f s hready, decodeTile_ok f s hbytes, command_eq, Res.finish_ok]

/-- Settles O33: the last store of the tile to a pixel index is the one that stands there. -/
theorem dectStoresTexelsInOrder : Obligations.DectStoresTexelsInOrder := by
  unfold Obligations.DectStoresTexelsInOrder
  refine ⟨fun _ _ => rfl, fun s t f hready hbytes hexec => ?_⟩
  intro index texels k q hq hin hlast
  obtain rfl := Host.Outcome.next.inj ((exec_dect_ok hready hbytes).symm.trans hexec)
  exact pixRead_placeTexels s.frame s.pix texels k q hq hin hlast

end Sys2Proof.Machine

/-!
PROOFS. The statements of 10_state.md: the invariant that every step keeps, the registers and the host's
access to them, which command writes which of them, and how TADDR, BDEC and the image commands end.
-/

namespace Sys2Proof

/-- The fields of a word are the command word they make up (R101). -/
theorem commandWord_fields {c : Word32} {op fmt a b : Nat} (hrsv : bits c 31 24 = 0)
    (hop : bits c 3 0 = op) (hfmt : bits c 7 4 = fmt) (ha : bits c 15 8 = a) (hb : bits c 23 16 = b) :
    commandWord op fmt a b = c := by
  subst hop hfmt ha hb
  apply BitVec.eq_of_toNat_eq
  have hfields := word_fields c
  rw [hfields, hrsv, commandWord_toNat] <;> simp only [bits_eq] <;> omega

theorem encode_rsmp_fields {c : Word32} (hrsv : bits c 31 24 = 0) (hop : bits c 3 0 = 1)
    (hfmt : bits c 7 4 = 0) (ha : bits c 15 12 = 0) (hb : bits c 23 20 = 0) :
    encode (.rsmp (bits c 11 8) (bits c 19 16)) = c := by
  refine commandWord_fields hrsv hop hfmt ?_ ?_
  · simp only [bits_eq] at ha ⊢
    omega
  · simp only [bits_eq] at hb ⊢
    omega

theorem encode_taddr_fields {c : Word32} (hrsv : bits c 31 24 = 0) (hop : bits c 3 0 = 2)
    (hfmt : bits c 7 4 = 0) (ha : bits c 15 14 = 0) (hb : bits c 23 20 = 0) :
    encode (.taddr (bits c 13 8) (bits c 19 16)) = c := by
  refine commandWord_fields hrsv hop hfmt ?_ ?_
  · simp only [bits_eq] at ha ⊢
    omega
  · simp only [bits_eq] at hb ⊢
    omega

theorem encode_bdec_fields {c : Word32} (hrsv : bits c 31 24 = 0) (hop : bits c 3 0 = 3)
    (hfmt : bits c 7 4 = 0) (ha : bits c 15 9 = 0) (hb : bits c 23 16 = 0) :
    encode (.bdec (bits c 8 8 == 1)) = c := by
  refine commandWord_fields hrsv hop hfmt ?_ hb
  simp only [bits_eq, beq_iff_eq] at ha ⊢
  split <;> omega

/-- A word that decodes to an instruction is that instruction's word (R107). -/
theorem encode_of_decode {c : Word32} {i : Instr} (h : decode c = .ok i) : encode i = c := by
  rcases decode_cases c h with (h | h) | ⟨hrsv, h⟩
  · cases h
  · cases h
  rcases h with ⟨hop, hf, ha, hb, h⟩ | ⟨hop, hf, ha, hb, h⟩ | ⟨hop, hf, ha, hb, h⟩ | ⟨hop, hf, ha, hb, h⟩ |
    ⟨hop, ha, hb, ⟨f, hf, h⟩ | ⟨_, h⟩⟩ | ⟨hop, ha, hb, ⟨f, hf, h⟩ | ⟨_, h⟩⟩ | ⟨hop, hf, ha, hb, h⟩ |
    ⟨hop, hf, ha, hb, h⟩ <;> cases h
  · exact commandWord_fields hrsv hop hf ha hb
  · exact encode_rsmp_fields hrsv hop hf ha hb
  · exact encode_taddr_fields hrsv hop hf ha hb
  · exact encode_bdec_fields hrsv hop hf ha hb
  · rw [encode_dect]; exact commandWord_fields hrsv hop hf ha hb
  · rw [encode_enct]; exact commandWord_fields hrsv hop hf ha hb
  · exact commandWord_fields hrsv hop hf ha hb
  · exact commandWord_fields hrsv hop hf ha hb

end Sys2Proof

namespace Sys2Proof.Machine

/-! ## Stores within a capacity (R70, R74) -/

theorem writeBytes_within {m : Memory} {cap a : Nat} {bs : List Byte} (h : m.within cap)
    (hfit : bs.length = 0 ∨ a + bs.length ≤ cap) : Memory.within (Memory.writeBytes m a bs) cap := by
  obtain ⟨hwf, hlt⟩ := h
  refine ⟨writeBytes_wf a bs hwf, fun c hc => ?_⟩
  rcases mem_writeBytes hc with hnew | hold
  · omega
  · exact hlt c hold

theorem placeTexels_within {fr : Frame} {m : Memory} {cap : Nat} {qs : List Placed} (h : m.within cap)
    (hfit : fr.w * fr.h * 4 ≤ cap) : Memory.within (placeTexels fr m qs) cap := by
  obtain ⟨hwf, hlt⟩ := h
  refine ⟨placeTexels_wf fr qs hwf, fun c hc => ?_⟩
  rcases mem_placeTexels hc with hnew | hold
  · omega
  · exact hlt c hold

/-! ## The invariant across one change of the state -/

section
variable {s : State} (h : Inv s)
include h

/-- The invariant speaks of these registers, the memories and the parameters alone. -/
theorem Inv.congr {t : State} (hraw : t.raw = s.raw) (hpix : t.pix = s.pix) (hout : t.out = s.out)
    (hparams : t.params = s.params) (hstatus : t.status = s.status) (hfmtsel : t.fmtsel = s.fmtsel)
    (hrsRes : t.rsRes = s.rsRes) (hfaultCmd : t.faultCmd = s.faultCmd)
    (hfaultInfo : t.faultInfo = s.faultInfo) : Inv t := by
  cases t
  subst hraw hpix hout hparams hstatus hfmtsel hrsRes hfaultCmd hfaultInfo
  exact { h with }

theorem Inv.memoryWithin (sp : Space) : Memory.within (s.memory sp) (s.params.cap sp) := by
  cases sp
  · exact h.rawWithin
  · exact h.pixWithin
  · exact h.outWithin

theorem Inv.withMemory {sp : Space} {m : Memory} (hm : m.within (s.params.cap sp)) :
    Inv (s.withMemory sp m) := by
  cases sp
  · exact { h with rawWithin := hm }
  · exact { h with pixWithin := hm }
  · exact { h with outWithin := hm }

theorem Inv.fmtselOf (f : Fmt) : Inv { s with fmtsel := fmtselOf f } := by
  obtain ⟨hreserved, hfmt, hvalid⟩ := fmtselOf_fields f
  exact { h with
    fmtselReserved := hreserved
    fmtselLegal := hfmt.trans_le (index_le f)
    fmtselInvalid := fun hinvalid => absurd (hvalid.symm.trans hinvalid) (by decide) }

theorem Inv.fmtselZero : Inv { s with fmtsel := 0#32 } :=
  { h with
    fmtselReserved := show (0#32).extractLsb 31 5 = 0#27 by decide
    fmtselLegal := show ((0#32).extractLsb 3 0).toNat ≤ 12 by decide
    fmtselInvalid := fun _ => rfl }

theorem Inv.statusWithInb (b : Bool) : Inv { s with status := statusWithInb s.status b } := by
  have herr : State.err { s with status := Machine.statusWithInb s.status b } = s.err :=
    err_statusWithInb s.status b
  exact { h with
    statusReserved := (reserved_statusWithInb s.status b).trans h.statusReserved
    errLegal := herr ▸ h.errLegal
    noFault := herr ▸ h.noFault
    noDetail := herr ▸ h.noDetail }

theorem Inv.resetRegisters : Inv s.resetRegisters :=
  { h.fmtselZero with
    statusReserved := show (0#32).extractLsb 31 5 = 0#27 by decide
    errLegal := show ((0#32).extractLsb 3 0).toNat ≤ 6 by decide
    rsResByte := Nat.zero_le _
    noFault := fun _ => ⟨rfl, rfl⟩
    noDetail := fun _ _ => rfl }

/-- Raising a fault with the detail that R310 gives it. -/
theorem Inv.raise {f : BlockFault} {info : Word64} (c : Word32)
    (hinfo : f ≠ .rawUnderrun → f ≠ .outOverflow → info = 0#64) : Inv (s.raise f c info) :=
  { h with
    statusReserved := (reserved_statusWithErr _ _).trans h.statusReserved
    errLegal := by rw [raise_err]; exact code_le f
    noFault := fun hnone => absurd ((raise_err s f c info).symm.trans hnone) (code_ne_zero f)
    noDetail := by
      rw [raise_err]
      exact fun h5 h6 => hinfo (fun e => h5 (e ▸ rfl)) (fun e => h6 (e ▸ rfl)) }

end

/-! ## What a command raises (R310, R311) -/

/-- The detail of a fault raised in a state: the cursor, the output length or 0 (R310). -/
def BlockFault.detail (f : BlockFault) (s : State) : Word64 :=
  match f with
  | .rawUnderrun => s.cur
  | .outOverflow => s.outLen
  | .codecNotFound | .unsupportedOperation | .illegalCommand | .illegalOperand => 0#64

theorem BlockFault.detail_zero {f : BlockFault} {s : State} (hraw : f ≠ .rawUnderrun)
    (hout : f ≠ .outOverflow) : f.detail s = 0#64 := by
  cases f with
  | rawUnderrun => exact absurd rfl hraw
  | outOverflow => exact absurd rfl hout
  | _ => rfl

theorem BlockFault.detail_eq_code (f : BlockFault) (s : State) :
    f.detail s = if f.code = 5#4 then s.cur else if f.code = 6#4 then s.outLen else 0#64 := by
  cases f <;> rfl

theorem Effect.raised_info {s t : State} {i : Instr} {f : BlockFault} {info : Word64}
    (h : Effect s i (.raised f info t)) : info = f.detail t := by
  generalize hr : Res.raised f info t = r at h
  cases h with
  | stops i g u hu hraw hout _ =>
    cases hr
    exact (BlockFault.detail_zero hraw hout).symm
  | lookup | rsmp | taddr | bdec => cases hr
  | dect g =>
    rcases decodeTile_cases g s with ⟨_, k⟩ | ⟨_, k⟩ <;> cases hr.trans k
    rfl
  | enct g enc =>
    rcases encodeTile_cases g enc s with ⟨_, k⟩ | ⟨_, k⟩ <;> cases hr.trans k
    rfl
  | deci g =>
    obtain ⟨rfl, rfl⟩ := walkTiles_decode_raised hr.symm
    rfl
  | enci g enc =>
    obtain ⟨rfl, rfl⟩ := walkTiles_encode_raised hr.symm
    rfl

/-- DECT and ENCT of a format index that names no format stop before they change anything (R176, R177). -/
theorem noCodecBody_effect (decoding : Bool) (s : State) (i : Instr) : Effect s i (noCodecBody decoding s) := by
  unfold noCodecBody
  split
  · exact .stops_same _ _ _ (by decide) (by decide)
  · exact .stops_same _ _ _ (by decide) (by decide)

/-- What runs for a command word has the effect of some instruction and ends with the word issued; a word
that names no instruction stops as any instruction may. -/
theorem runWord_effect (c : Word32) (s : State) :
    ∃ i r, Effect s i r ∧ runWord c s = .next (r.finish c) := by
  unfold runWord
  cases hd : decode c with
  | ok i => exact ⟨i, _, body_effect i s, by simp only [exec_body, encode_of_decode hd]⟩
  | error e =>
    have illegal := Effect.stops_same s .lookup .illegalCommand (by decide) (by decide)
    cases e with
    | reservedOp => exact ⟨_, _, illegal, rfl⟩
    | reservedField => exact ⟨_, _, illegal, rfl⟩
    | dectNoCodec => exact ⟨_, _, noCodecBody_effect true s .lookup, rfl⟩
    | enctNoCodec => exact ⟨_, _, noCodecBody_effect false s .lookup, rfl⟩

/-! ## The invariant across a command -/

/-- A predicate that taking an origin and doing a tile keep is kept by the walk. -/
theorem walkTiles_keeps {tile : State → Res} {P : State → Prop} {os : List (Nat × Nat)}
    (horigin : ∀ s o, P s → P (s.atTile o)) (htile : ∀ s, P s → P (tile s).state) {s : State} (hs : P s) :
    P (walkTiles tile os s).state :=
  walkTiles_rel (R := fun s t => P s → P t) (fun _ => id) (fun _ _ _ hab hbc => hbc ∘ hab) os
    (fun s o _ => horigin s o) htile s hs

theorem decodeTile_inv {f : Fmt} {s : State} (h : Inv s ∧ ImageReady s) :
    Inv (decodeTile f s).state ∧ ImageReady (decodeTile f s).state := by
  obtain ⟨hinv, hready⟩ := h
  have hpix (qs : List Placed) : Memory.within (placeTexels s.frame s.pix qs) (s.params.cap .pix) :=
    placeTexels_within hinv.pixWithin hready.2.2
  rcases decodeTile_cases f s with ⟨_, k⟩ | ⟨_, k⟩ <;> rw [k]
  · exact ⟨{ hinv with pixWithin := hpix _ }, hready⟩
  · exact ⟨{ hinv with pixWithin := hpix _ }, hready⟩

theorem encodeTile_inv {f : Fmt} {enc : Texel → List Byte} (he : encodeRoutine f = some enc) {s : State}
    (h : Inv s) : Inv (encodeTile f enc s).state := by
  rcases encodeTile_cases f enc s with ⟨hroom, k⟩ | ⟨_, k⟩ <;> rw [k]
  · refine { h with outWithin := writeBytes_within h.outWithin (.inr ?_) }
    rw [encodedBytes_length he]
    exact hroom
  · exact h

theorem resample_le {v s t : Nat} (hs : 1 ≤ s) : resample v s t ≤ 2 ^ t - 1 := by
  have hpos : 0 < 2 ^ s - 1 := Nat.sub_pos_of_lt (Nat.one_lt_two_pow (by omega))
  have hmask : (v &&& (2 ^ s - 1)) * (2 ^ t - 1) ≤ (2 ^ s - 1) * (2 ^ t - 1) :=
    Nat.mul_le_mul_right _ Nat.and_le_right
  refine Nat.le_of_lt_succ (Nat.div_lt_of_lt_mul ?_)
  rw [Nat.shiftRight_one, Nat.mul_succ]
  omega

theorem resample_byte {v s t : Nat} (hs : 1 ≤ s) (ht : t ≤ 8) :
    (BitVec.ofNat 32 (resample v s t)).toNat ≤ 255 := by
  have hpow : 2 ^ t ≤ 2 ^ 8 := Nat.pow_le_pow_right (by decide) ht
  have := resample_le (v := v) (t := t) hs
  rw [BitVec.toNat_ofNat]
  omega

theorem Effect.inv_state {s : State} {i : Instr} {r : Res} (he : Effect s i r) (h : Inv s) :
    Inv r.state := by
  cases he with
  | stops i f t ht =>
    rcases ht with rfl | rfl | ⟨g, rfl⟩
    · exact h
    · exact h.fmtselZero
    · exact h.fmtselOf g
  | lookup f => exact h.fmtselOf f
  | rsmp sbits tbits hs _ ht => exact { h with rsResByte := resample_byte hs ht }
  | taddr t bpt pix off b => exact { h.statusWithInb b with }
  | bdec af tex => exact { h with }
  | dect f hready => exact (decodeTile_inv ⟨h, hready.1⟩).1
  | enct f enc henc => exact encodeTile_inv henc h
  | deci f hready =>
    have hstart : Inv { s with fmtsel := fmtselOf f, cur := 0#64 } := { h.fmtselOf f with }
    exact (walkTiles_keeps (tile := decodeTile f) (P := fun s => Inv s ∧ ImageReady s)
      (fun _ _ hs => ⟨{ hs.1 with }, hs.2⟩) (fun _ => decodeTile_inv) ⟨hstart, hready⟩).1
  | enci f enc _ henc =>
    have hstart : Inv { s with fmtsel := fmtselOf f, outLen := 0#64 } := { h.fmtselOf f with }
    exact walkTiles_keeps (fun _ _ hs => { hs with }) (fun _ => encodeTile_inv henc) hstart

theorem Effect.inv_finish {s : State} {i : Instr} {r : Res} (he : Effect s i r) (h : Inv s) (c : Word32) :
    Inv (r.finish c) := by
  have hstate := he.inv_state h
  cases r with
  | ok t => exact hstate
  | raised f info t =>
    refine hstate.raise c fun hraw hout => ?_
    rw [he.raised_info, BlockFault.detail_zero hraw hout]

/-! ## The invariant across a step -/

theorem writeRegister_inv {s : State} (h : Inv s) (n : Nat) (v : Word64) : Inv (writeRegister s n v) := by
  obtain ⟨hstatus, hfmtsel, hcmd, hinfo, hres, -, -, -, hraw, hpix, hout, hparams, -⟩ :=
    writeRegister_frame s n v
  exact h.congr hraw hpix hout hparams hstatus hfmtsel hres hcmd hinfo

theorem issueCommand_inv {s t : State} {c : Word32} (h : Inv s) (ht : issueCommand c s = .next t) : Inv t := by
  unfold issueCommand at ht
  by_cases herr : s.err = 0#4
  · obtain ⟨i, r, he, hrun⟩ := runWord_effect c s
    rw [gate_clear _ herr, hrun] at ht
    cases ht
    exact he.inv_finish h c
  · rw [gate_faulted _ herr] at ht
    cases ht
    exact h

theorem hostWrite_inv {s t : State} {sp : Space} {a : Nat} {bs : List Byte} (h : Inv s)
    (ht : hostWrite s sp a bs = .next t) : Inv t := by
  by_cases hfits : accessFits s.params sp a bs.length = true
  · rw [hostWrite_fits hfits] at ht
    cases ht
    exact h.withMemory (writeBytes_within (h.memoryWithin sp) ((accessFits_iff ..).1 hfits))
  · rw [hostWrite_outside hfits] at ht
    cases ht

theorem hostRead_inv {s t : State} {sp : Space} {a n : Nat} (h : Inv s)
    (ht : hostRead s sp a n = .next t) : Inv t := by
  by_cases hfits : accessFits s.params sp a n = true
  · rw [hostRead_fits hfits] at ht
    cases ht
    exact { h with }
  · rw [hostRead_outside hfits] at ht
    cases ht

theorem perform_inv {s t : State} {act : HostAction} (h : Inv s) (ht : perform act s = .next t) : Inv t := by
  cases act with
  | issue c => exact issueCommand_inv h ht
  | wr n v => cases ht; exact writeRegister_inv h n.toNat v
  | rd n => cases ht; exact { h with }
  | memWrite sp a bs => exact hostWrite_inv h ht
  | memRead sp a n => exact hostRead_inv h ht
  | reset => cases ht; exact h.resetRegisters

/-- Settles O56: each action of the host keeps the invariant, a command by what its body can come to. -/
theorem everyStepKeepsInv : Obligations.EveryStepKeepsInv := by
  unfold Obligations.EveryStepKeepsInv
  intro s t h hstep
  cases hpending : s.pending with
  | nil =>
    rw [step_idle s hpending] at hstep
    cases hstep
    exact h
  | cons act rest =>
    rw [step_action s act rest hpending] at hstep
    exact perform_inv (s := { s with pending := rest }) { h with } hstep

/-! ## The registers (R31, R32) -/

theorem readRegister_texel (s : State) (k : Nat) :
    readRegister s (19 + k) = ((s.bdTex.toList[k]?).getD 0#32).setWidth 64 := by
  rw [Nat.add_comm]
  rfl

theorem readRegister_reserved (s : State) {n : Nat} (hn : 35 ≤ n) : readRegister s n = 0#64 := by
  obtain ⟨k, rfl⟩ := Nat.exists_eq_add_of_le (show 19 ≤ n by omega)
  rw [readRegister_texel, List.getElem?_eq_none (by rw [Vector.length_toList]; omega)]
  rfl

/-- Settles O8: the numbered registers by evaluation, the texel registers and the numbers past them by index. -/
theorem registerNumbers : Obligations.RegisterNumbers := by
  unfold Obligations.RegisterNumbers
  refine fun s => ⟨rfl, fun k => ?_, fun n => readRegister_reserved s⟩
  rw [readRegister_texel, List.getElem?_eq_getElem (by simp)]
  simp

theorem readRegister_writeRegister_same (s : State) (n : Nat) (v : Word64) :
    readRegister (writeRegister s n v) n =
      if n ∈ [4, 5, 6, 7, 11, 12, 13] then (v.setWidth 32).setWidth 64
      else if n ∈ [8, 9, 10, 17, 18] then v
      else readRegister s n := by
  unfold writeRegister
  split
  case h_13 => simp_all
  all_goals rfl

theorem readRegister_writeRegister_other (s : State) {n k : Nat} (v : Word64) (h : k ≠ n) :
    readRegister (writeRegister s n v) k = readRegister s k := by
  unfold writeRegister
  split
  case h_13 => rfl
  all_goals
    unfold readRegister
    split <;> first | rfl | exact absurd rfl h

/-- Settles O9: what register n reads after a write to it, and what every other register reads. -/
theorem hostRegisterAccess : Obligations.HostRegisterAccess := by
  unfold Obligations.HostRegisterAccess
  refine fun s rest n => ⟨fun v hpending => ?_, step_rd, readRegister_reserved s⟩
  obtain ⟨-, -, -, -, -, -, -, -, hraw, hpix, hout, hparams, htodo, hreply, hdraws⟩ :=
    writeRegister_frame { s with pending := rest } n.toNat v
  refine ⟨_, step_wr hpending, fun k hk => ?_, ?_, hraw, hpix, hout, hparams, hdraws, hreply, htodo⟩
  · rw [readRegister_writeRegister_other _ v (BitVec.toNat_ne.1 hk)]
    rfl
  · rw [readRegister_writeRegister_same]
    split_ifs
    · rw [BitVec.toNat_setWidth_of_le (by decide), BitVec.toNat_setWidth]
    · rfl
    · rfl

/-! ## What a command writes (R31, R34, R89) -/

/-- The "written by" column of R31 between the states before and after a command, with the flags of R34 and
the direction of access of R89. -/
def WritesAsListed (i : Instr) (s t : State) : Prop :=
  (t.width = s.width ∧ t.height = s.height ∧ t.dtype = s.dtype ∧ t.pfmt = s.pfmt ∧
    t.rawLen = s.rawLen ∧ t.rsVal = s.rsVal ∧ t.bdDesc = s.bdDesc ∧ t.bdAlpha = s.bdAlpha ∧
    t.raw = s.raw ∧ t.params = s.params ∧ t.pending = s.pending ∧ t.reply = s.reply) ∧
  (i ≠ .lookup → i ≠ .deci → i ≠ .enci → t.fmtsel = s.fmtsel) ∧
  ((∀ f, i ≠ .dect f) → i ≠ .deci → t.cur = s.cur ∧ t.pix = s.pix) ∧
  ((∀ f, i ≠ .enct f) → i ≠ .enci → t.outLen = s.outLen ∧ t.out = s.out) ∧
  (i ≠ .deci → i ≠ .enci → t.tileX = s.tileX ∧ t.tileY = s.tileY) ∧
  ((∀ a b, i ≠ .rsmp a b) → t.rsRes = s.rsRes) ∧
  ((∀ a b, i ≠ .taddr a b) → t.taPix = s.taPix ∧ t.taOff = s.taOff ∧ t.inb = s.inb) ∧
  ((∀ a, i ≠ .bdec a) → t.bdTex = s.bdTex)

theorem WritesAsListed.refl (i : Instr) (s : State) : WritesAsListed i s s := by
  simp [WritesAsListed]

theorem WritesAsListed.fmtsel {i : Instr} (hi : i = .lookup ∨ i = .deci ∨ i = .enci) (s : State)
    (v : Word32) : WritesAsListed i s { s with fmtsel := v } := by
  rcases hi with rfl | rfl | rfl <;> simp [WritesAsListed, State.inb]

/-- Recording a fault adds nothing to what a command writes: INB is kept (R34, R311). -/
theorem WritesAsListed.finish {i : Instr} {s : State} {r : Res} (h : WritesAsListed i s r.state)
    (c : Word32) : WritesAsListed i s (r.finish c) := by
  cases r with
  | ok t => exact h
  | raised f info t => simpa [WritesAsListed, Res.state] using h

theorem Effect.writesAsListed {s : State} {i : Instr} {r : Res} (he : Effect s i r) :
    WritesAsListed i s r.state := by
  cases he with
  | stops i f t ht _ _ hi =>
    by_cases hsame : t = s
    · exact hsame ▸ .refl i s
    · rcases ht with rfl | rfl | ⟨g, rfl⟩
      · exact .refl i t
      · exact .fmtsel (hi hsame) s _
      · exact .fmtsel (hi hsame) s _
  | lookup f => exact .fmtsel (.inl rfl) s _
  | rsmp sbits tbits => simp [WritesAsListed, Res.state, State.inb]
  | taddr t bpt pix off b => simp [WritesAsListed, Res.state]
  | bdec af tex => simp [WritesAsListed, Res.state, State.inb]
  | dect f =>
    have hown : ¬∀ g, Instr.dect f ≠ Instr.dect g := fun h => h f rfl
    rcases decodeTile_cases f s with ⟨_, k⟩ | ⟨_, k⟩ <;>
      simp [k, WritesAsListed, Res.state, State.inb, hown]
  | enct f enc =>
    have hown : ¬∀ g, Instr.enct f ≠ Instr.enct g := fun h => h f rfl
    rcases encodeTile_cases f enc s with ⟨_, k⟩ | ⟨_, k⟩ <;>
      simp [k, WritesAsListed, Res.state, State.inb, hown]
  | deci f =>
    rw [walkTiles_decode_frame]
    simp [WritesAsListed, State.inb]
  | enci f enc =>
    rw [walkTiles_encode_frame]
    simp [WritesAsListed, State.inb]

/-- Settles O13: every command ends, with what its body has written. -/
theorem onlyListedCommandsWrite : Obligations.OnlyListedCommandsWrite := by
  unfold Obligations.OnlyListedCommandsWrite
  exact fun i s => ⟨_, exec_body i s, (body_effect i s).writesAsListed.finish (encode i)⟩

/-! ## The fault registers (R37, R310) -/

theorem code_pos (f : BlockFault) : 1 ≤ f.code.toNat := by cases f <;> decide

/-- Before its end a command writes none of ERR, FAULT_CMD and FAULT_INFO (R311). -/
theorem Effect.state_faults {s : State} {i : Instr} {r : Res} (he : Effect s i r) :
    r.state.err = s.err ∧ r.state.faultCmd = s.faultCmd ∧ r.state.faultInfo = s.faultInfo := by
  cases he with
  | stops i f t ht => rcases ht with rfl | rfl | ⟨g, rfl⟩ <;> exact ⟨rfl, rfl, rfl⟩
  | lookup | rsmp | bdec => exact ⟨rfl, rfl, rfl⟩
  | taddr t bpt pix off b => exact ⟨err_statusWithInb s.status b, rfl, rfl⟩
  | dect f => rcases decodeTile_cases f s with ⟨_, k⟩ | ⟨_, k⟩ <;> rw [k] <;> exact ⟨rfl, rfl, rfl⟩
  | enct f enc =>
    rcases encodeTile_cases f enc s with ⟨_, k⟩ | ⟨_, k⟩ <;> rw [k] <;> exact ⟨rfl, rfl, rfl⟩
  | deci f => rw [walkTiles_decode_frame]; exact ⟨rfl, rfl, rfl⟩
  | enci f enc => rw [walkTiles_encode_frame]; exact ⟨rfl, rfl, rfl⟩

/-- Settles O14: only the end of a command writes the fault registers, with the detail its fault has. -/
theorem faultRegistersNameTheCommand : Obligations.FaultRegistersNameTheCommand := by
  unfold Obligations.FaultRegistersNameTheCommand
  intro s t c rest hpending hclear hstep
  obtain ⟨i, r, he, hrun⟩ := runWord_effect c { s with pending := rest }
  obtain rfl := Host.Outcome.next.inj (hrun.symm.trans ((step_issue hpending hclear).symm.trans hstep))
  cases r with
  | ok u =>
    obtain ⟨herr, hcmd, hinfo⟩ := he.state_faults
    exact .inl ⟨herr.trans hclear, hcmd, hinfo⟩
  | raised f info u =>
    rw [Res.finish_raised, raise_err]
    exact .inr ⟨code_pos f, code_le f, rfl, he.raised_info.trans (f.detail_eq_code u)⟩

/-! ## TADDR's flag (R35, R153) -/

theorem taddrBody_legal {t bpt : Nat} {s : State} (h : taddrLegal t bpt s = true) :
    taddrBody t bpt s = .ok { s with
      taPix := BitVec.ofNat 64 (taddrPixel t s)
      taOff := BitVec.ofNat 64 (taddrPixel t s * bpt)
      status := statusWithInb s.status (inBounds (taddrPixel t s) s.width.toNat s.height.toNat) } :=
  if_pos h

/-- Settles O24: the byte offset and the bound on it are BPT times the pixel index and its bound. -/
theorem inBoundsFlagIsByteCheck : Obligations.InBoundsFlagIsByteCheck := by
  unfold Obligations.InBoundsFlagIsByteCheck
  intro s t bpt _ hbpt _ himage horigin hfits
  have hlegal : taddrLegal t bpt s = true :=
    (taddrLegal_iff t bpt s).2 ⟨himage, horigin, Nat.ne_of_gt hbpt, hfits⟩
  refine ⟨_, by rw [exec_taddr, taddrBody_legal hlegal, command_eq, Res.finish_ok], ?_⟩
  have hoff : taddrPixel t s * bpt < 2 ^ 64 := hfits
  have hpix : taddrPixel t s < 2 ^ 64 := (Nat.le_mul_of_pos_right _ hbpt).trans_lt hoff
  have hinb : (statusWithInb s.status
      (inBounds (taddrPixel t s) s.width.toNat s.height.toNat)).getLsbD 4 = true ↔
        taddrPixel t s < s.width.toNat * s.height.toNat := by
    rw [inb_statusWithInb, inBounds, decide_eq_true_eq]
  simp only [State.inb, hinb, BitVec.toNat_ofNat, Nat.mod_eq_of_lt hoff, Nat.mod_eq_of_lt hpix,
    Nat.mul_lt_mul_right hbpt, and_self]

end Sys2Proof.Machine

namespace Sys2Proof

/-- A word with OP 3 in which FMT, B or a bit of A above AF is set is no BDEC (R103, R106). -/
theorem decode_reserved_bdec {c : Word32} (hop : bits c 3 0 = 3)
    (hc : bits c 7 4 ≠ 0 ∨ c.toNat / 512 ≠ 0) : decode c = .error .reservedField := by
  have hfields : bits c 31 24 ≠ 0 ∨ ¬(bits c 7 4 = 0 ∧ bits c 15 9 = 0 ∧ bits c 23 16 = 0) := by
    have hlt := c.isLt
    simp only [bits_eq] at *
    omega
  unfold decode
  rw [hop]
  by_cases hrsv : bits c 31 24 = 0
  · simp [hrsv, hfields.resolve_left (not_not_intro hrsv)]
  · simp [hrsv]

end Sys2Proof

namespace Sys2Proof.Machine

/-! ## The texel registers (R47, R267 to R271) -/

theorem Texel.word_eq (x : Texel) :
    x.word = BitVec.ofNat 32 (x.b.toNat + 256 * x.g.toNat + 65536 * x.r.toNat + 16777216 * x.a.toNat) := by
  apply BitVec.eq_of_toNat_eq
  have hb := x.b.isLt
  have hg := x.g.isLt
  have hr := x.r.isLt
  have ha := x.a.isLt
  simp only [Texel.word, BitVec.toNat_append, BitVec.toNat_ofNat]
  rw [← Nat.shiftLeft_add_eq_or_of_lt hr, ← Nat.shiftLeft_add_eq_or_of_lt hg,
    ← Nat.shiftLeft_add_eq_or_of_lt hb]
  simp only [Nat.shiftLeft_eq]
  omega

theorem blockChannel_toNat (base m : Int) :
    (blockChannel base m).toNat = (max 0 (min 255 (base + m))).toNat := by
  have hclamp : clamp8 (base + m) = max 0 (min 255 (base + m)) := by
    unfold clamp8
    omega
  rw [blockChannel, hclamp, BitVec.toNat_ofInt]
  omega

theorem dup4_eq {n : Nat} (h : n < 16) : dup4 n = 17 * n := by
  rw [dup4, ← Nat.shiftLeft_add_eq_or_of_lt (show n < 2 ^ 4 from h), Nat.shiftLeft_eq]
  omega

theorem blockAlpha_some_toNat (m : Word64) (px py : Nat) :
    (blockAlpha (some m) px py).toNat = 17 * (m.toNat / 2 ^ (4 * (px * 4 + py)) % 16) := by
  have hnibble : (m.toNat >>> ((px * 4 + py) * 4)) &&& 0xF = m.toNat / 2 ^ (4 * (px * 4 + py)) % 16 := by
    rw [Nat.shiftRight_eq_div_pow, Nat.mul_comm]
    exact Nat.and_two_pow_sub_one_eq_mod _ 4
  rw [blockAlpha, hnibble, dup4_eq (Nat.mod_lt _ (by decide)), BitVec.toNat_ofNat]
  omega

theorem getLsbD_toNat {w : Nat} (v : BitVec w) (i : Nat) : (v.getLsbD i).toNat = v.toNat / 2 ^ i % 2 := by
  rw [BitVec.getLsbD, Nat.toNat_testBit]

theorem columnIndex_eq (d : Word64) (px py : Nat) :
    columnIndex d px py = d.toNat / 2 ^ (px * 4 + py) % 2 + 2 * (d.toNat / 2 ^ (px * 4 + py + 16) % 2) := by
  have hbit : d.toNat / 2 ^ (px * 4 + py) % 2 < 2 ^ 1 := Nat.mod_lt _ (by decide)
  rw [columnIndex, getLsbD_toNat, getLsbD_toNat, Nat.or_comm, ← Nat.shiftLeft_add_eq_or_of_lt hbit,
    Nat.shiftLeft_eq]
  omega

theorem tableA_eq (d : Word64) : tableA d = d.toNat / 2 ^ 37 % 8 := bits_eq d 39 37

theorem tableB_eq (d : Word64) : tableB d = d.toNat / 2 ^ 34 % 8 := bits_eq d 36 34

theorem inSubBlockA_iff (d : Word64) (px py : Nat) :
    inSubBlockA d px py = true ↔ if d.toNat / 2 ^ 32 % 2 = 1 then py < 2 else px < 2 := by
  have hflip : flipMode d = decide (d.toNat / 2 ^ 32 % 2 = 1) := by
    rw [flipMode, BitVec.getLsbD, Nat.testBit_eq_decide_div_mod_eq]
  unfold inSubBlockA
  rw [hflip]
  split_ifs <;> simp_all

theorem blockRegisters_get (d : Word64) (mask : Option Word64) {px py : Nat} (hx : px < 4) (hy : py < 4) :
    (blockRegisters d mask).toList[py * 4 + px]? = some (blockTexel d mask px py).word := by
  have hlt : py * 4 + px < 16 := by omega
  have hmod : (py * 4 + px) % 4 = px := by omega
  have hdiv : (py * 4 + px) / 4 = py := by omega
  rw [blockRegisters, Vector.toList_ofFn, List.getElem?_ofFn, dif_pos hlt, hmod, hdiv]

theorem blockAlpha_toNat (af : Bool) (m : Word64) (px py : Nat) :
    (blockAlpha (if af then some m else none) px py).toNat =
      if af then 17 * (m.toNat / 2 ^ (4 * (px * 4 + py)) % 16) else 255 := by
  cases af
  · rfl
  · exact blockAlpha_some_toNat m px py

/-- Settles O31: the channels, the alpha and the choices of each texel are those of `blockTexel`, as numbers. -/
theorem bdecResult : Obligations.BdecResult := by
  unfold Obligations.BdecResult
  refine ⟨by decide, fun s af => ⟨_, exec_bdec af s, rfl, fun px py hx hy => ?_⟩, fun c hop hc => ?_⟩
  · refine (blockRegisters_get _ _ hx hy).trans ?_
    simp only [Texel.word_eq, blockTexel, blockChannel_toNat, blockAlpha_toNat, columnIndex_eq, tableA_eq,
      tableB_eq, ← inSubBlockA_iff]
  · exact decode_reserved_bdec (by simpa [bits_eq] using hop) (by simpa [bits_eq] using hc)

/-! ## How the image commands end (R172, R173, R174) -/

theorem encode_deci : encode .deci = 6#32 := by decide

theorem encode_enci : encode .enci = 7#32 := by decide

/-- The state after a walk of the image that ended in a format: FMTSEL names it, and TILE_X and TILE_Y are
the last origin, or unchanged where there is no tile (R36, R43, R174). -/
def State.afterImage (s : State) (f : Fmt) : State :=
  { s with
    fmtsel := BitVec.ofNat 32 (16 + f.index)
    tileX := if tileCount s = 0 then s.tileX else BitVec.ofNat 32 (8 * ((s.width.toNat + 7) / 8 - 1))
    tileY := if tileCount s = 0 then s.tileY else BitVec.ofNat 32 (8 * ((s.height.toNat + 7) / 8 - 1)) }

/-- A DECI whose descriptor has a format and whose raw bytes are there decodes every tile (R172). -/
theorem exec_deci_ok {s : State} {f : Fmt} (himage : ImageReady s) (hraw : RawReady s)
    (hcode : codeTable s.params s.dtype s.pfmt = some f)
    (hbytes : tileBytes f * tileCount s ≤ s.rawLen.toNat) :
    exec .deci s = .next { s.afterImage f with
      pix := decodedPix f s.width.toNat s.height.toNat s.raw (imageTiles s) 0 s.pix
      cur := BitVec.ofNat 64 (tileBytes f * tileCount s) } := by
  have hwalk := walkTiles_decode f (imageTiles s) { s with fmtsel := fmtselOf f, cur := 0#64 }
    (imageTiles_fit himage) (by simpa [imageTiles_length] using hbytes)
  rw [exec_deci, deciBody_ready f s ⟨himage, hraw⟩ hcode, hwalk, command_eq, Res.finish_ok,
    imageTiles_length, atLastTile_image, fmtselOf_eq]
  simp [State.afterImage]

/-- An ENCI whose descriptor has a format with an encoder, and whose output fits OUT, encodes every tile
(R173). -/
theorem exec_enci_ok {s : State} {f : Fmt} {enc : Texel → List Byte} (himage : ImageReady s)
    (hcode : codeTable s.params s.dtype s.pfmt = some f) (henc : encodeRoutine f = some enc)
    (hroom : tileBytes f * tileCount s ≤ s.params.outCap.toNat) :
    exec .enci s = .next { s.afterImage f with
      out := encodedOut f enc s.width.toNat s.height.toNat s.pix (imageTiles s) 0 s.draws s.out
      outLen := BitVec.ofNat 64 (tileBytes f * tileCount s)
      draws := s.draws + 64 * tileCount s } := by
  have hwalk := walkTiles_encode f enc (imageTiles s) { s with fmtsel := fmtselOf f, outLen := 0#64 }
    (imageTiles_fit himage) (by simpa [imageTiles_length] using hroom)
  rw [exec_enci, enciBody_ready f enc s himage hcode henc, hwalk, command_eq, Res.finish_ok,
    imageTiles_length, atLastTile_image, fmtselOf_eq]
  simp [State.afterImage]

/-- Settles O44: the walk decodes every tile, and no tile reaches past the image. -/
theorem deciDecodesTheImage : Obligations.DeciDecodesTheImage := by
  unfold Obligations.DeciDecodesTheImage
  exact fun s f himage hraw hcode hbytes =>
    ⟨_, exec_deci_ok himage hraw hcode hbytes, fun a ha => read_decodedPix_past f _ _ _ _ _ _ a ha⟩

/-- Settles O45: the walk encodes every tile, and the tiles end at the output length. -/
theorem enciEncodesTheImage : Obligations.EnciEncodesTheImage := by
  unfold Obligations.EnciEncodesTheImage
  refine fun s f enc himage hcode henc hroom =>
    ⟨_, _, exec_enci_ok himage hcode henc hroom, fun a ha => ?_⟩
  refine read_encodedOut_other henc _ _ _ _ _ _ _ a (.inr ?_)
  rw [imageTiles_length, Nat.zero_add]
  exact ha

/-- Settles O46: the commands fail after FMTSEL is written (R36). -/
theorem imageCommandsRejectDescriptors : Obligations.ImageCommandsRejectDescriptors := by
  unfold Obligations.ImageCommandsRejectDescriptors
  refine fun s himage => ⟨fun hmissing => ⟨fun hraw => ?_, ?_⟩, fun f hcode hnone => ?_⟩
  · rw [exec_deci, deciBody_noCodec s ⟨himage, hraw⟩ hmissing, command_eq, Res.finish_raised, encode_deci]
  · rw [exec_enci, enciBody_noCodec s himage hmissing, command_eq, Res.finish_raised, encode_enci]
  · rw [exec_enci, enciBody_noEncoder f s himage hcode hnone, command_eq, Res.finish_raised, encode_enci,
      fmtselOf_eq]

end Sys2Proof.Machine

/-!
PROOFS. The statements of 20_memory.md: what DECT and ENCT read and write of the three spaces, the block
formats, which host access stops the machine, the written container, and the direction of access.
-/

namespace Sys2Proof.Machine

/-! ## How DECT and ENCT end (R176, R177) -/

/-- Settles O32: a tile's texels store to bytes of the tile alone. -/
theorem dectDecodesOneTile : Obligations.DectDecodesOneTile := by
  unfold Obligations.DectDecodesOneTile
  exact ⟨by decide, fun s f hready hbytes => ⟨_, exec_dect_ok hready hbytes, fun a ha =>
    placeTexels_frame (fr := s.frame) (fun _ => decodeTexels_place) ha⟩⟩

/-- A DECT whose raw bytes are short leaves draws in its texels and records the cursor (R176, R313). -/
theorem exec_dect_underrun {s : State} {f : Fmt} (hready : DectReady s)
    (hshort : s.rawLen.toNat < s.cur.toNat + tileBytes f) :
    exec (.dect f) s = .next
      ({ s with pix := placeTexels s.frame s.pix (underrunTexels s.draws), draws := s.draws + 64 }.raise
        .rawUnderrun (encode (.dect f)) s.cur) := by
  rw [exec_dect, dectBody_ready f s hready, decodeTile_raised f s hshort, command_eq, Res.finish_raised]

/-- Settles O38: the draws of a short tile stand at bytes of the tile alone. -/
theorem dectRawUnderrun : Obligations.DectRawUnderrun := by
  unfold Obligations.DectRawUnderrun
  exact fun s f hready hshort => ⟨_, _, exec_dect_underrun hready hshort, fun a ha =>
    placeTexels_frame (fr := s.frame) (fun _ => underrunTexels_place) ha⟩

theorem enctBody_encoder {s : State} {f : Fmt} {enc : Texel → List Byte} (hready : EnctReady s)
    (henc : encodeRoutine f = some enc) : enctBody f s = encodeTile f enc s := by
  rw [enctBody_ready f s hready, henc]

/-- An ENCT that fits appends the tile's bytes and advances OUT_LEN (R177). -/
theorem exec_enct_ok {s : State} {f : Fmt} {enc : Texel → List Byte} (hready : EnctReady s)
    (henc : encodeRoutine f = some enc) (hroom : s.outLen.toNat + tileBytes f ≤ s.params.outCap.toNat) :
    exec (.enct f) s = .next { s with
      out := Memory.writeBytes s.out s.outLen.toNat (encodedBytes enc s)
      outLen := BitVec.ofNat 64 (s.outLen.toNat + tileBytes f)
      draws := s.draws + 64 } := by
  rw [exec_enct, enctBody_encoder hready henc, encodeTile_ok f enc s hroom, command_eq, Res.finish_ok]

/-- Settles O42: the tile is encoded only if it fits. -/
theorem enctOutOverflow : Obligations.EnctOutOverflow := by
  unfold Obligations.EnctOutOverflow
  intro s f enc hready henc hfull
  rw [exec_enct, enctBody_encoder hready henc, encodeTile_raised f enc s hfull, command_eq,
    Res.finish_raised]

/-- Inside the image an encoder reads the texel from PIX (R203). -/
theorem loadTexel_inside {fr : Frame} {pix : Memory} {draws t : Nat}
    (h : fr.pixel (tileRow t) (tileCol t) < fr.w * fr.h) :
    loadTexel fr pix draws t = pixRead pix (fr.pixel (tileRow t) (tileCol t)) :=
  if_pos (decide_eq_true h)

/-- The bytes of a tile, each unit by the texel it encodes (R203). -/
theorem encodedBytes_unit {f : Fmt} {enc : Texel → List Byte} (henc : encodeRoutine f = some enc)
    (s : State) {t i : Nat} (ht : t < 64) (hi : i < tileBytes f / 64) :
    (encodedBytes enc s).getD (t * (tileBytes f / 64) + i) 0#8 =
      (enc (loadTexel s.frame s.pix s.draws t)).getD i 0#8 := by
  refine flatMap_units_getD _ 64 _ t i 0#8 (fun u => ?_) ht hi
  have := encodeRoutine_length henc (loadTexel s.frame s.pix s.draws u)
  omega

/-- Settles O39: the tile's bytes are its units, one after the other, and stand where OUT ended. -/
theorem enctAppendsOneTile : Obligations.EnctAppendsOneTile := by
  unfold Obligations.EnctAppendsOneTile
  intro s f enc hready henc hroom
  have hbytes : (encodedBytes enc s).length = tileBytes f := encodedBytes_length henc s
  refine ⟨_, _, exec_enct_ok hready henc hroom, fun a ha => ?_, fun t ht => ?_⟩
  · exact read_writeBytes_outside _ _ _ _ _ (hbytes ▸ ha)
  · have hunit := encodeRoutine_length henc (loadTexel s.frame s.pix s.draws t)
    refine ⟨loadTexel s.frame s.pix s.draws t, fun hin => loadTexel_inside hin, hunit, fun i hi => ?_⟩
    have hlt : t * (tileBytes f / 64) + i < (encodedBytes enc s).length := by
      have := Nat.mul_le_mul_right (tileBytes f / 64) (Nat.succ_le_of_lt ht)
      rw [Nat.succ_mul] at this
      omega
    rw [Nat.add_assoc, read_writeBytes_inside _ _ _ _ _ hlt, ← List.getD_eq_getElem _ 0#8 hlt,
      encodedBytes_unit henc s ht (by omega), List.getD_eq_getElem _ _ hi]

/-! ## The block words and the block order (R77, R157, R275, R276) -/

theorem readBytes_succ (sp : Space) (m : Memory) (a n : Nat) :
    Memory.readBytes sp m a (n + 1) = Memory.read sp m a :: Memory.readBytes sp m (a + 1) n := by
  simp [Memory.readBytes, List.range_succ_eq_map, Nat.add_comm, Nat.add_left_comm]

/-- The little-endian integer of some bytes of a space, as the sum that R76 writes. -/
theorem littleEndian_readBytes (sp : Space) (m : Memory) (a n : Nat) :
    littleEndian (Memory.readBytes sp m a n) =
      ∑ i ∈ Finset.range n, (Memory.read sp m (a + i)).toNat * 2 ^ (8 * i) := by
  induction n generalizing a with
  | zero => rfl
  | succ n ih =>
    rw [readBytes_succ, littleEndian, ih, Finset.sum_range_succ', Finset.mul_sum, Nat.add_comm]
    congr 1
    · refine Finset.sum_congr rfl fun i _ => ?_
      rw [Nat.mul_succ, Nat.pow_add, Nat.add_assoc, Nat.add_comm 1 i]
      ring
    · simp

theorem word64_eq (raw : Memory) (a : Nat) :
    word64 raw a = BitVec.ofNat 64
      (∑ i ∈ Finset.range 8, (Memory.read .raw raw (a + i)).toNat * 2 ^ (8 * i)) := by
  rw [word64, rawRead, littleEndian_readBytes]

/-- Texel (px, py) of block b stands where the tile order puts it: the order fills block by block, and in a
block interleaves the bits of px and py (R157, R276). -/
theorem tileOrder_block : ∀ b < 4, ∀ px < 4, ∀ py < 4,
    tileOrder (16 * b + px % 2 + 2 * (py % 2) + 4 * (px / 2) + 8 * (py / 2)) =
      8 * (4 * (b / 2) + py) + (4 * (b % 2) + px) := by decide

/-- Settles O37: a tile is its four blocks in order, each from the words at its place in RAW. -/
theorem blockFormatsDecode : Obligations.BlockFormatsDecode := by
  unfold Obligations.BlockFormatsDecode
  refine ⟨by decide, fun raw c b px py hb hx hy => ?_⟩
  simp only [← word64_eq]
  exact ⟨tileOfBlocks_get _ _ b px py hb hx hy, tileOfBlocks_get _ _ b px py hb hx hy,
    tileOrder_block b hb px hx py hy⟩

/-! ## Which host actions stop the machine (R70) -/

/-- No command stops the machine, and none touches the host's own side (R319, R350). -/
theorem runWord_next (c : Word32) (s : State) :
    ∃ t, runWord c s = .next t ∧ t.params = s.params ∧ t.pending = s.pending := by
  obtain ⟨i, r, he, hrun⟩ := runWord_effect c s
  obtain ⟨⟨-, -, -, -, -, -, -, -, -, hparams, hpending, -⟩, -⟩ := he.writesAsListed.finish c
  exact ⟨_, hrun, hparams, hpending⟩

theorem issueCommand_next (c : Word32) (s : State) :
    ∃ t, issueCommand c s = .next t ∧ t.params = s.params ∧ t.pending = s.pending := by
  by_cases herr : s.err = 0#4
  · rw [issueCommand, gate_clear _ herr]
    exact runWord_next c s
  · exact ⟨s, gate_faulted _ herr, rfl, rfl⟩

/-- An action that accesses only existing addresses comes to a next state, with the same parameters and the
same actions to come. -/
theorem perform_legal {act : HostAction} {s : State} (h : actionLegal s.params act = true) :
    ∃ t, perform act s = .next t ∧ t.params = s.params ∧ t.pending = s.pending := by
  cases act with
  | issue c => exact issueCommand_next c s
  | wr n v =>
    obtain ⟨-, -, -, -, -, -, -, -, -, -, -, hparams, hpending, -⟩ := writeRegister_frame s n.toNat v
    exact ⟨_, rfl, hparams, hpending⟩
  | rd n => exact ⟨_, rfl, rfl, rfl⟩
  | memWrite sp a bs => exact ⟨_, hostWrite_fits h, s.withMemory_params .., s.withMemory_pending ..⟩
  | memRead sp a n => exact ⟨_, hostRead_fits h, rfl, rfl⟩
  | reset => exact ⟨_, rfl, s.resetRegisters_params, s.resetRegisters_pending⟩

/-- Any other action stops the machine (notes/assumptions/9.md). -/
theorem perform_illegal {act : HostAction} {s : State} (h : actionLegal s.params act = false) :
    perform act s = .fault .outsideSpace := by
  cases act with
  | issue | wr | rd | reset => cases h
  | memWrite sp a bs => exact hostWrite_outside (ne_true_of_eq_false h)
  | memRead sp a n => exact hostRead_outside (ne_true_of_eq_false h)

/-- What a step can do: wait, take a legal action, or stop at one that is not. -/
theorem step_cases (s : State) :
    (s.pending = [] ∧ step s = .next s) ∨
    ∃ act rest, s.pending = act :: rest ∧
      ((actionLegal s.params act = true ∧
          ∃ t, step s = .next t ∧ t.params = s.params ∧ t.pending = rest) ∨
        (actionLegal s.params act = false ∧ step s = .fault .outsideSpace)) := by
  cases hpending : s.pending with
  | nil => exact .inl ⟨rfl, step_idle s hpending⟩
  | cons act rest =>
    refine .inr ⟨act, rest, rfl, ?_⟩
    rw [step_action s act rest hpending]
    cases hlegal : actionLegal s.params act with
    | true => exact .inl ⟨rfl, perform_legal (s := { s with pending := rest }) hlegal⟩
    | false => exact .inr ⟨rfl, perform_illegal (s := { s with pending := rest }) hlegal⟩

theorem safe_of_pending {s : State} {act : HostAction} {rest : List HostAction}
    (hpending : s.pending = act :: rest) :
    s.safe = (actionLegal s.params act && rest.all (actionLegal s.params)) := by
  rw [State.safe, hpending, List.all_cons]

/-- Settles O57: the only stop is an illegal action, and a safe state has none to come. -/
theorem safeStatesNeverStop : Obligations.SafeStatesNeverStop := by
  unfold Obligations.SafeStatesNeverStop
  intro s
  rcases step_cases s with ⟨_, hstep⟩ | ⟨act, rest, hpending, ⟨hlegal, t, hstep, hparams, hrest⟩ |
    ⟨hillegal, hstep⟩⟩ <;> rw [hstep]
  · exact ⟨fun hsafe => ⟨s, rfl, hsafe⟩, nofun, nofun⟩
  · refine ⟨fun hsafe => ⟨t, rfl, ?_⟩, nofun, nofun⟩
    rw [safe_of_pending hpending, hlegal, Bool.true_and] at hsafe
    rw [State.safe, hparams, hrest, hsafe]
  · refine ⟨fun hsafe => ?_, nofun, fun _ _ => ⟨act, rest, hpending, hillegal⟩⟩
    rw [safe_of_pending hpending, hillegal, Bool.false_and] at hsafe
    cases hsafe

/-! ## The written container (R295) -/

/-- The words of a written header, from offset 4 on. -/
def stexWords (w h dt pf : Word32) (dataLength : Nat) : List Nat :=
  [0, 3553, w.toNat, h.toNat, dt.toNat, pf.toNat, stexLengthField dataLength, 0x80]

/-- A saved file is the magic, the header's words, the padding and the output. -/
theorem stexSave_eq_words (w h dt pf : Word32) (s : State) :
    stexSave w h dt pf s = stexMagic ++ ((stexWords w h dt pf s.outLen.toNat).flatMap stexWord ++
      (List.replicate 0x5C 0#8 ++ encodedOutput s)) := by
  simp [stexSave, stexHeader, stexWords]

/-- Word k of a sequence of 4-byte words stands 4k bytes into it. -/
theorem field_of_words {file front back : List Byte} {ws : List Nat} {k n o : Nat}
    (hfile : file = front ++ (ws.flatMap stexWord ++ back)) (hk : ws[k]? = some n)
    (ho : front.length + 4 * k = o) : (file.drop o).take 4 = stexWord n := by
  obtain ⟨hlt, rfl⟩ := List.getElem?_eq_some_iff.1 hk
  have hsplit : ws.flatMap stexWord =
      (ws.take k).flatMap stexWord ++ (stexWord ws[k] ++ (ws.drop (k + 1)).flatMap stexWord) := by
    rw [← List.flatMap_cons, ← List.flatMap_append, ← List.drop_eq_getElem_cons hlt,
      List.take_append_drop]
  refine field_at (front := front ++ (ws.take k).flatMap stexWord)
    (back := (ws.drop (k + 1)).flatMap stexWord ++ back) ?_ ?_
  · rw [hfile, hsplit]
    simp only [List.append_assoc]
  · simp [List.length_flatMap, Nat.min_eq_left hlt.le]
    omega

/-- The field of a saved file at the place of a header word reads as that word. -/
theorem stexSave_field {w h dt pf : Word32} {s : State} {k n o : Nat}
    (hk : (stexWords w h dt pf s.outLen.toNat)[k]? = some n) (hn : n < 2 ^ 32) (ho : 4 + 4 * k = o) :
    littleEndian (((stexSave w h dt pf s).drop o).take 4) = n := by
  rw [field_of_words (stexSave_eq_words w h dt pf s) hk ho, stexWord_value hn]

@[simp] theorem stexSave_data (w h dt pf : Word32) (s : State) :
    (stexSave w h dt pf s).drop 0x80 = encodedOutput s := by
  rw [stexSave_eq_stexWrite, stexWrite_data]

/-- Between the header's words and the data there are only zero bytes. -/
theorem stexSave_padding (w h dt pf : Word32) (s : State) :
    ((stexSave w h dt pf s).drop 0x24).take 0x5C = List.replicate 0x5C 0#8 := by
  have hfront : (stexMagic ++ (stexWords w h dt pf s.outLen.toNat).flatMap stexWord).length = 0x24 := rfl
  rw [stexSave_eq_words, ← List.append_assoc, List.drop_left' hfront, List.take_left' (by simp)]

theorem encodedOutput_get {s : State} {i : Nat} (h : i < s.outLen.toNat) :
    (encodedOutput s)[i]? = some (Memory.read .out s.out i) := by
  simp [encodedOutput, Memory.readBytes, h]

/-- Settles O60: each field is a word of the header, and past the header stands what the host's read of the
output returns. -/
theorem stexSaveHoldsTheOutput : Obligations.StexSaveHoldsTheOutput := by
  unfold Obligations.StexSaveHoldsTheOutput
  intro w h dt pf s file n field
  have hword {k o v : Nat} (hk : (stexWords w h dt pf n)[k]? = some v) (hv : v < 2 ^ 32)
      (ho : 4 + 4 * k = o) : field o = v := stexSave_field hk hv ho
  refine ⟨?_, rfl, hword (k := 0) rfl (by decide) rfl, hword (k := 1) rfl (by decide) rfl,
    hword (k := 2) rfl w.isLt rfl, hword (k := 3) rfl h.isLt rfl, hword (k := 4) rfl dt.isLt rfl,
    hword (k := 5) rfl pf.isLt rfl, fun hn => ?_, hword (k := 7) rfl (by decide) rfl,
    stexSave_padding w h dt pf s, fun i hi => ?_, fun rest hpending hcap => ?_⟩
  · rw [show file = _ from stexSave_eq_stexWrite w h dt pf s, stexWrite_length, encodedOutput_length]
  · exact hword (k := 6) (congrArg some (stexLengthField_short hn)) hn rfl
  · rw [← List.getElem?_drop, show file.drop 0x80 = _ from stexSave_data w h dt pf s]
    exact encodedOutput_get hi
  · rw [show file.drop 0x80 = _ from stexSave_data w h dt pf s]
    exact step_fetchOutput hpending hcap

/-! ## Two runs from different memories (R89) -/

/-- Two states with the same registers, whose memories are related space by space. -/
inductive Alike (Q : Space → Memory → Memory → Prop) (s : State) : State → Prop
  | mk {raw pix out : Memory} (hraw : Q .raw s.raw raw) (hpix : Q .pix s.pix pix) (hout : Q .out s.out out) :
      Alike Q s { s with raw := raw, pix := pix, out := out }

/-- Two command bodies that ended the same way, in states alike. -/
inductive Res.Alike (Q : Space → Memory → Memory → Prop) : Res → Res → Prop
  | ok {s s' : State} (h : Machine.Alike Q s s') : Res.Alike Q (.ok s) (.ok s')
  | raised {s s' : State} (f : BlockFault) (info : Word64) (h : Machine.Alike Q s s') :
      Res.Alike Q (.raised f info s) (.raised f info s')

section
variable {Q : Space → Memory → Memory → Prop} {s s' : State}

/-! ### What states alike have in common -/

section
variable (h : Alike Q s s')
include h

theorem Alike.tileChecks (decoding : Bool) : tileChecks decoding s' = tileChecks decoding s := by
  cases h; rfl

theorem Alike.imageChecks (decoding : Bool) : imageChecks decoding s' = imageChecks decoding s := by
  cases h; rfl

theorem Alike.imageTiles : imageTiles s' = imageTiles s := by cases h; rfl

theorem Alike.atTile (o : Nat × Nat) : Alike Q (s.atTile o) (s'.atTile o) := by
  obtain ⟨hraw, hpix, hout⟩ := h; exact .mk hraw hpix hout

theorem Alike.fmtsel (v : Word32) : Alike Q { s with fmtsel := v } { s' with fmtsel := v } := by
  obtain ⟨hraw, hpix, hout⟩ := h; exact .mk hraw hpix hout

theorem Alike.cur (v : Word64) : Alike Q { s with cur := v } { s' with cur := v } := by
  obtain ⟨hraw, hpix, hout⟩ := h; exact .mk hraw hpix hout

theorem Alike.outLen (v : Word64) : Alike Q { s with outLen := v } { s' with outLen := v } := by
  obtain ⟨hraw, hpix, hout⟩ := h; exact .mk hraw hpix hout

theorem Alike.raise (f : BlockFault) (c : Word32) (info : Word64) :
    Alike Q (s.raise f c info) (s'.raise f c info) := by
  obtain ⟨hraw, hpix, hout⟩ := h; exact .mk hraw hpix hout

end

/-! ### Commands in lockstep -/

theorem Res.Alike.finish {r r' : Res} (h : Res.Alike Q r r') (c : Word32) :
    Machine.Alike Q (r.finish c) (r'.finish c) := by
  cases h with
  | ok h => exact h
  | raised f info h => exact h.raise f c info

theorem exec_alike {i : Instr} {t : State} (h : Res.Alike Q (body i s) (body i s'))
    (hexec : exec i s = .next t) : ∃ t', exec i s' = .next t' ∧ Alike Q t t' := by
  rw [exec_body] at hexec
  cases hexec
  exact ⟨_, exec_body i s', h.finish _⟩

theorem walkTiles_alike {tile : State → Res}
    (htile : ∀ {u u' : State}, Alike Q u u' → Res.Alike Q (tile u) (tile u')) (os : List (Nat × Nat))
    (h : Alike Q s s') : Res.Alike Q (walkTiles tile os s) (walkTiles tile os s') := by
  induction os generalizing s s' with
  | nil => exact .ok h
  | cons o os ih =>
    have hfirst := htile (h.atTile o)
    rw [walkTiles_cons, walkTiles_cons]
    generalize tile (s.atTile o) = r, tile (s'.atTile o) = r' at hfirst
    cases hfirst with
    | ok h => exact ih h
    | raised f info h => exact .raised f info h

theorem resolve_alike {go : Fmt → State → Res}
    (hgo : ∀ {u u' : State} (f : Fmt), Alike Q u u' → Res.Alike Q (go f u) (go f u')) (h : Alike Q s s') :
    Res.Alike Q (resolve s go) (resolve s' go) := by
  have hcode : codeTable s'.params s'.dtype s'.pfmt = codeTable s.params s.dtype s.pfmt := by cases h; rfl
  unfold resolve
  rw [hcode]
  cases codeTable s.params s.dtype s.pfmt with
  | some f => exact hgo f (h.fmtsel _)
  | none => exact .raised _ _ (h.fmtsel _)

/-! ### Commands that touch no memory space -/

theorem rsmpBody_alike (sbits tbits : Nat) (h : Alike Q s s') :
    Res.Alike Q (rsmpBody sbits tbits s) (rsmpBody sbits tbits s') := by
  obtain ⟨hraw, hpix, hout⟩ := h
  unfold rsmpBody
  split
  · exact .ok (.mk hraw hpix hout)
  · exact .raised _ _ (.mk hraw hpix hout)

theorem taddrBody_alike (t bpt : Nat) (h : Alike Q s s') :
    Res.Alike Q (taddrBody t bpt s) (taddrBody t bpt s') := by
  have hlegal : taddrLegal t bpt s' = taddrLegal t bpt s := by cases h; rfl
  unfold taddrBody
  rw [hlegal]
  obtain ⟨hraw, hpix, hout⟩ := h
  split
  · exact .ok (.mk hraw hpix hout)
  · exact .raised _ _ (.mk hraw hpix hout)

theorem bdecBody_alike (af : Bool) (h : Alike Q s s') : Res.Alike Q (bdecBody af s) (bdecBody af s') := by
  obtain ⟨hraw, hpix, hout⟩ := h
  exact .ok (.mk hraw hpix hout)

theorem lookupBody_alike (h : Alike Q s s') : Res.Alike Q (lookupBody s) (lookupBody s') :=
  resolve_alike (fun _ h => .ok h) h

/-! ### Decoding: the same RAW, whatever OUT holds -/

section
variable (hread : ∀ {m m' : Memory}, Q .raw m m' → m' = m)
  (hstore : ∀ {m m' : Memory} (fr : Frame) (qs : List Placed), Q .pix m m' →
    Q .pix (placeTexels fr m qs) (placeTexels fr m' qs))
include hread hstore

theorem decodeTile_alike (f : Fmt) (h : Alike Q s s') :
    Res.Alike Q (decodeTile f s) (decodeTile f s') := by
  obtain ⟨hraw, hpix, hout⟩ := h
  obtain rfl := hread hraw
  unfold decodeTile
  split
  · exact .raised _ _ (.mk hraw (hstore _ _ hpix) hout)
  · exact .ok (.mk hraw (hstore _ _ hpix) hout)

theorem dectBody_alike (f : Fmt) (h : Alike Q s s') : Res.Alike Q (dectBody f s) (dectBody f s') := by
  unfold dectBody
  rw [h.tileChecks]
  split
  · exact decodeTile_alike hread hstore f h
  · exact .raised _ _ h

theorem deciBody_alike (h : Alike Q s s') : Res.Alike Q (deciBody s) (deciBody s') := by
  unfold deciBody
  rw [h.imageChecks]
  split
  · refine resolve_alike (fun f h => ?_) h
    rw [h.imageTiles]
    exact walkTiles_alike (decodeTile_alike hread hstore f) _ (h.cur _)
  · exact .raised _ _ h

end

/-! ### Encoding: the same PIX and OUT, whatever RAW holds -/

section
variable (hread : ∀ {m m' : Memory}, Q .pix m m' → m' = m)
  (hstore : ∀ {m m' : Memory} (a : Nat) (bs : List Byte), Q .out m m' →
    Q .out (Memory.writeBytes m a bs) (Memory.writeBytes m' a bs))
include hread hstore

theorem encodeTile_alike (f : Fmt) (enc : Texel → List Byte) (h : Alike Q s s') :
    Res.Alike Q (encodeTile f enc s) (encodeTile f enc s') := by
  obtain ⟨hraw, hpix, hout⟩ := h
  obtain rfl := hread hpix
  unfold encodeTile
  split
  · exact .raised _ _ (.mk hraw hpix hout)
  · exact .ok (.mk hraw hpix (hstore _ _ hout))

theorem enctBody_alike (f : Fmt) (h : Alike Q s s') : Res.Alike Q (enctBody f s) (enctBody f s') := by
  unfold enctBody
  rw [h.tileChecks]
  split
  · cases encodeRoutine f with
    | some enc => exact encodeTile_alike hread hstore f enc h
    | none => exact .raised _ _ h
  · exact .raised _ _ h

theorem enciBody_alike (h : Alike Q s s') : Res.Alike Q (enciBody s) (enciBody s') := by
  unfold enciBody
  rw [h.imageChecks]
  split
  · refine resolve_alike (fun f h => ?_) h
    cases encodeRoutine f with
    | some enc =>
      rw [h.imageTiles]
      exact walkTiles_alike (encodeTile_alike hread hstore f enc) _ (h.outLen _)
    | none => exact .raised _ _ h
  · exact .raised _ _ h

end

end

/-! ### The memories compared -/

/-- One space's memory is replaced, the others are the same. -/
def Replaced (sp : Space) (m : Memory) : Space → Memory → Memory → Prop :=
  fun sp' a b => b = if sp' = sp then m else a

theorem alike_withMemory (s : State) (sp : Space) (m : Memory) :
    Alike (Replaced sp m) s (s.withMemory sp m) := by
  cases sp
  · exact .mk (raw := m) (pix := s.pix) (out := s.out) rfl rfl rfl
  · exact .mk (raw := s.raw) (pix := m) (out := s.out) rfl rfl rfl
  · exact .mk (raw := s.raw) (pix := s.pix) (out := m) rfl rfl rfl

theorem Alike.eq_withMemory {s s' : State} {sp : Space} {m : Memory} (h : Alike (Replaced sp m) s s') :
    s' = s.withMemory sp m := by
  obtain ⟨rfl, rfl, rfl⟩ := h
  cases sp <;> rfl

/-- A command that takes alike states to alike states runs the same with one space's memory replaced. -/
theorem exec_withMemory {i : Instr} {s t : State} {sp : Space} {m : Memory} (hexec : exec i s = .next t)
    (hbody : ∀ {s'}, Alike (Replaced sp m) s s' → Res.Alike (Replaced sp m) (body i s) (body i s')) :
    exec i (s.withMemory sp m) = .next (t.withMemory sp m) := by
  obtain ⟨t', hexec', halike⟩ := exec_alike (hbody (alike_withMemory s sp m)) hexec
  rw [hexec', halike.eq_withMemory]

/-- What PIX can hold in two runs that began with PIX holding `p` and `m` and had the same RAW: a byte that
both have written alike, or one that neither has written. RAW and OUT are the same in both. -/
def PixFrom (p m : Memory) : Space → Memory → Memory → Prop
  | .pix, a, b => ∀ x, Memory.read .pix b x = Memory.read .pix a x ∨
      (Memory.read .pix a x = Memory.read .pix p x ∧ Memory.read .pix b x = Memory.read .pix m x)
  | .raw, a, b | .out, a, b => b = a

/-- A byte some texel stores to is the same in both runs; any other is as it was. -/
theorem PixFrom.placeTexels {p m a b : Memory} (h : PixFrom p m .pix a b) (fr : Frame) (qs : List Placed) :
    PixFrom p m .pix (placeTexels fr a qs) (placeTexels fr b qs) := by
  intro x
  by_cases hstored : ∃ q ∈ qs, fr.pixelOf q < fr.w * fr.h ∧ x / 4 = fr.pixelOf q
  · exact .inl (read_placeTexels_covered fr b a qs x hstored)
  · have hother : ∀ q ∈ qs, ¬(fr.pixelOf q < fr.w * fr.h ∧ x / 4 = fr.pixelOf q) :=
      fun q hq hp => hstored ⟨q, hq, hp⟩
    rw [read_placeTexels_other fr a qs x hother, read_placeTexels_other fr b qs x hother]
    exact h x

theorem alike_pixFrom (s : State) (m : Memory) : Alike (PixFrom s.pix m) s { s with pix := m } :=
  .mk (raw := s.raw) (pix := m) (out := s.out) rfl (fun _ => .inr ⟨rfl, rfl⟩) rfl

/-! ### The families of commands, by their OP field (R102) -/

/-- The OP field of an instruction's word. -/
def opField (i : Instr) : Nat := bits (encode i) 3 0

theorem opField_commandWord {op fmt a b : Nat} (h1 : op < 16) (h2 : fmt < 16) (h3 : a < 256) (h4 : b < 256) :
    bits (commandWord op fmt a b) 3 0 = op := by
  rw [bits_eq, commandWord_toNat op fmt a b h1 h2 h3 h4]
  omega

theorem opField_rsmp (sbits tbits : Nat) : opField (.rsmp sbits tbits) = 1 :=
  opField_commandWord (op := 1) (fmt := 0) (a := sbits % 16) (b := tbits % 16) (by decide) (by decide)
    (by omega) (by omega)

theorem opField_taddr (t bpt : Nat) : opField (.taddr t bpt) = 2 :=
  opField_commandWord (op := 2) (fmt := 0) (a := t % 64) (b := bpt % 16) (by decide) (by decide)
    (by omega) (by omega)

theorem opField_bdec (af : Bool) : opField (.bdec af) = 3 := by cases af <;> decide

theorem opField_dect (f : Fmt) : opField (.dect f) = 4 := by
  rw [opField, encode_dect]
  exact opField_commandWord (by decide) (Nat.lt_of_le_of_lt (index_le f) (by decide)) (by decide) (by decide)

theorem opField_enct (f : Fmt) : opField (.enct f) = 5 := by
  rw [opField, encode_enct]
  exact opField_commandWord (by decide) (Nat.lt_of_le_of_lt (index_le f) (by decide)) (by decide) (by decide)

theorem opField_deci : opField .deci = 6 := by decide

theorem opField_enci : opField .enci = 7 := by decide

theorem opField_of_encode {i : Instr} (hi : (∃ f, i = .enct f) ∨ i = .enci) :
    opField i = 5 ∨ opField i = 7 := by
  rcases hi with ⟨f, rfl⟩ | rfl
  · exact .inl (opField_enct f)
  · exact .inr opField_enci

theorem opField_of_decode {i : Instr} (hi : (∃ f, i = .dect f) ∨ i = .deci) :
    opField i = 4 ∨ opField i = 6 := by
  rcases hi with ⟨f, rfl⟩ | rfl
  · exact .inl (opField_dect f)
  · exact .inr opField_deci

theorem opField_of_register {i : Instr}
    (hi : (∃ a b, i = .rsmp a b) ∨ (∃ a b, i = .taddr a b) ∨ (∃ a, i = .bdec a) ∨ i = .lookup) :
    opField i < 4 := by
  rcases hi with ⟨a, b, rfl⟩ | ⟨a, b, rfl⟩ | ⟨a, rfl⟩ | rfl
  · rw [opField_rsmp]; decide
  · rw [opField_taddr]; decide
  · rw [opField_bdec]; decide
  · decide

section
variable {i : Instr} {s t : State} (hexec : exec i s = .next t)
include hexec

theorem exec_writesAsListed : WritesAsListed i s t := by
  obtain rfl := Host.Outcome.next.inj ((exec_body i s).symm.trans hexec)
  exact (body_effect i s).writesAsListed.finish (encode i)

/-- No command writes RAW. -/
theorem exec_keeps_raw : t.raw = s.raw := by
  obtain ⟨⟨-, -, -, -, -, -, -, -, hraw, -⟩, -⟩ := exec_writesAsListed hexec
  exact hraw

/-- Only DECT and DECI write PIX. -/
theorem exec_keeps_pix (hdect : opField i ≠ 4) (hdeci : opField i ≠ 6) : t.pix = s.pix := by
  obtain ⟨-, -, hpix, -⟩ := exec_writesAsListed hexec
  exact (hpix (fun f hi => hdect (hi ▸ opField_dect f)) (fun hi => hdeci (hi ▸ opField_deci))).2

/-- Only ENCT and ENCI write OUT. -/
theorem exec_keeps_out (henct : opField i ≠ 5) (henci : opField i ≠ 7) : t.out = s.out := by
  obtain ⟨-, -, -, hout, -⟩ := exec_writesAsListed hexec
  exact (hout (fun f hi => henct (hi ▸ opField_enct f)) (fun hi => henci (hi ▸ opField_enci))).2

end

/-! ### What each family reads and writes -/

/-- ENCT and ENCI in states that differ in RAW alone. -/
theorem encode_body_alike {i : Instr} (hi : (∃ f, i = .enct f) ∨ i = .enci) {m : Memory} {s s' : State}
    (h : Alike (Replaced .raw m) s s') : Res.Alike (Replaced .raw m) (body i s) (body i s') := by
  have hstore {a b : Memory} (n : Nat) (bs : List Byte) (hab : b = a) :
      Memory.writeBytes b n bs = Memory.writeBytes a n bs := by rw [hab]
  rcases hi with ⟨f, rfl⟩ | rfl
  · rw [body_enct, body_enct]
    exact enctBody_alike id hstore f h
  · exact enciBody_alike id hstore h

/-- DECT and DECI in states with the same RAW. -/
theorem decode_body_alike {i : Instr} (hi : (∃ f, i = .dect f) ∨ i = .deci)
    {Q : Space → Memory → Memory → Prop} (hread : ∀ {a b : Memory}, Q .raw a b → b = a)
    (hstore : ∀ {a b : Memory} (fr : Frame) (qs : List Placed), Q .pix a b →
      Q .pix (placeTexels fr a qs) (placeTexels fr b qs)) {s s' : State} (h : Alike Q s s') :
    Res.Alike Q (body i s) (body i s') := by
  rcases hi with ⟨f, rfl⟩ | rfl
  · rw [body_dect, body_dect]
    exact dectBody_alike hread hstore f h
  · exact deciBody_alike hread hstore h

/-- RSMP, TADDR, BDEC and LOOKUP, whatever the memories hold. -/
theorem register_body_alike {i : Instr}
    (hi : (∃ a b, i = .rsmp a b) ∨ (∃ a b, i = .taddr a b) ∨ (∃ a, i = .bdec a) ∨ i = .lookup)
    {Q : Space → Memory → Memory → Prop} {s s' : State} (h : Alike Q s s') :
    Res.Alike Q (body i s) (body i s') := by
  rcases hi with ⟨a, b, rfl⟩ | ⟨a, b, rfl⟩ | ⟨a, rfl⟩ | rfl
  · exact rsmpBody_alike a b h
  · exact taddrBody_alike a b h
  · exact bdecBody_alike a h
  · exact lookupBody_alike h

/-- Settles O54: each family runs in lockstep from memories that differ only where it does not read. -/
theorem directionOfAccess : Obligations.DirectionOfAccess := by
  unfold Obligations.DirectionOfAccess
  refine fun i s t m hexec => ⟨fun hi => ?_, fun hi => ?_, fun hi => ?_⟩
  · have hop := opField_of_encode hi
    exact ⟨exec_withMemory (sp := .raw) hexec (encode_body_alike hi), exec_keeps_raw hexec,
      exec_keeps_pix hexec (by omega) (by omega)⟩
  · have hop := opField_of_decode hi
    have hsame {a b : Memory} (fr : Frame) (qs : List Placed) (hab : b = a) :
        placeTexels fr b qs = placeTexels fr a qs := by rw [hab]
    have hkept {a b : Memory} (fr : Frame) (qs : List Placed) (hab : PixFrom s.pix m .pix a b) :=
      hab.placeTexels fr qs
    refine ⟨exec_withMemory (sp := .out) hexec (decode_body_alike hi id hsame),
      exec_keeps_out hexec (by omega) (by omega), exec_keeps_raw hexec, ?_⟩
    obtain ⟨t', hexec', halike⟩ := exec_alike (decode_body_alike hi id hkept (alike_pixFrom s m)) hexec
    obtain ⟨rfl, hpix, rfl⟩ := halike
    exact ⟨_, hexec', hpix⟩
  · have hop := opField_of_register hi
    refine ⟨?_, exec_keeps_raw hexec, exec_keeps_pix hexec (by omega) (by omega),
      exec_keeps_out hexec (by omega) (by omega)⟩
    have hraw := exec_withMemory (sp := .raw) (m := m) hexec (register_body_alike hi)
    have hpix := exec_withMemory (sp := .pix) (m := m) hraw (register_body_alike hi)
    exact exec_withMemory (sp := .out) (m := m) hpix (register_body_alike hi)

end Sys2Proof.Machine

/-!
PROOFS. The statements of 30_encoding.md: the decoder and the encoder undo each other, the reserved
encodings and the unknown formats, the step that runs an instruction, the invariant at reset, and the
reading of a written container.
-/

namespace Sys2Proof

/-! ## Decoding what was encoded, and encoding what was decoded (R107) -/

/-- Settles O2: RSMP and TADDR by their operands' fields, BDEC by its one bit; every other instruction has no
operand and its word is a constant (R111). -/
theorem decodeOfEncode : Obligations.DecodeOfEncode := by
  unfold Obligations.DecodeOfEncode
  intro i h
  cases i with
  | rsmp sbits tbits => exact Laws.RoundTrip.rsmp sbits tbits h
  | taddr t bpt => exact Laws.RoundTrip.taddr t bpt h
  | bdec af => exact Laws.RoundTrip.bdec af h
  | _ => decide

/-- A word that is the word of a well-formed instruction decodes to it. -/
theorem decode_of_encode_eq {c : Word32} {i : Instr} (hi : i.wellFormed = true) (h : encode i = c) :
    decode c = .ok i := h ▸ decodeOfEncode i hi

theorem bits_lt {n : Nat} (v : BitVec n) (hi lo : Nat) : bits v hi lo < 2 ^ (hi - lo + 1) := BitVec.isLt _

theorem rsmp_fields_wellFormed (c : Word32) :
    (Instr.rsmp (bits c 11 8) (bits c 19 16)).wellFormed = true := by
  have hs : bits c 11 8 < 16 := bits_lt c 11 8
  have ht : bits c 19 16 < 16 := bits_lt c 19 16
  simp [Instr.wellFormed, fitsNibble, hs, ht]

theorem taddr_fields_wellFormed (c : Word32) :
    (Instr.taddr (bits c 13 8) (bits c 19 16)).wellFormed = true := by
  have ht : bits c 13 8 < 64 := bits_lt c 13 8
  have hb : bits c 19 16 < 16 := bits_lt c 19 16
  simp [Instr.wellFormed, fitsTileIndex, fitsNibble, ht, hb]

/-- An operand the decoder reads comes from its field, so it fits it (R103). -/
theorem wellFormed_of_decode {c : Word32} {i : Instr} (h : decode c = .ok i) : i.wellFormed = true := by
  rcases decode_cases c h with (h | h) | ⟨-, h⟩
  · cases h
  · cases h
  rcases h with ⟨-, -, -, -, h⟩ | ⟨-, -, -, -, h⟩ | ⟨-, -, -, -, h⟩ | ⟨-, -, -, -, h⟩ |
    ⟨-, -, -, ⟨f, -, h⟩ | ⟨-, h⟩⟩ | ⟨-, -, -, ⟨f, -, h⟩ | ⟨-, h⟩⟩ | ⟨-, -, -, -, h⟩ |
    ⟨-, -, -, -, h⟩ <;> cases h
  · rfl
  · exact rsmp_fields_wellFormed c
  · exact taddr_fields_wellFormed c
  · rfl
  · exact dect_wellFormed f
  · exact enct_wellFormed f
  · rfl
  · rfl

/-- Settles O3: the decoder drops no bit of the word, and reads operands that fit their fields. -/
theorem encodeOfDecode : Obligations.EncodeOfDecode := by
  unfold Obligations.EncodeOfDecode
  exact fun c i h => ⟨encode_of_decode h, wellFormed_of_decode h⟩

/-! ## The unknown formats (R105, R113) -/

theorem commandWord_format (op fmt : Nat) : commandWord op fmt 0 0 = BitVec.ofNat 32 (op + fmt * 16) := by
  simp [commandWord]

theorem decode_dect_noCodec {fmt : Nat} (hlo : 13 ≤ fmt) (hhi : fmt ≤ 15) :
    decode (commandWord 4 fmt 0 0) = .error .dectNoCodec := by
  interval_cases fmt <;> decide

theorem decode_enct_noCodec {fmt : Nat} (hlo : 13 ≤ fmt) (hhi : fmt ≤ 15) :
    decode (commandWord 5 fmt 0 0) = .error .enctNoCodec := by
  interval_cases fmt <;> decide

/-! ## The reserved encodings (R106) -/

/-- The reserved encodings of R106: OP 8 to 15, RSV not 0, or a field that R103 marks 0 and that is not. -/
def ReservedWord (c : Word32) : Prop :=
  8 ≤ bits c 3 0 ∨ bits c 31 24 ≠ 0 ∨
  ((bits c 3 0 = 0 ∨ bits c 3 0 = 6 ∨ bits c 3 0 = 7) ∧
    (bits c 7 4 ≠ 0 ∨ bits c 15 8 ≠ 0 ∨ bits c 23 16 ≠ 0)) ∨
  (bits c 3 0 = 1 ∧ (bits c 7 4 ≠ 0 ∨ bits c 15 12 ≠ 0 ∨ bits c 23 20 ≠ 0)) ∨
  (bits c 3 0 = 2 ∧ (bits c 7 4 ≠ 0 ∨ bits c 15 14 ≠ 0 ∨ bits c 23 20 ≠ 0)) ∨
  (bits c 3 0 = 3 ∧ (bits c 7 4 ≠ 0 ∨ bits c 15 9 ≠ 0 ∨ bits c 23 16 ≠ 0)) ∨
  ((bits c 3 0 = 4 ∨ bits c 3 0 = 5) ∧ (bits c 15 8 ≠ 0 ∨ bits c 23 16 ≠ 0))

/-- The fields of a word by division (R101), and those parts of A and B that R103 marks 0. -/
theorem fields_toNat (c : Word32) :
    bits c 3 0 = c.toNat % 16 ∧ bits c 7 4 = c.toNat / 16 % 16 ∧ bits c 15 8 = c.toNat / 256 % 256 ∧
    bits c 23 16 = c.toNat / 65536 % 256 ∧ bits c 31 24 = c.toNat / 16777216 ∧
    bits c 15 12 = c.toNat / 256 % 256 / 16 ∧ bits c 15 14 = c.toNat / 256 % 256 / 64 ∧
    bits c 15 9 = c.toNat / 256 % 256 / 2 ∧ bits c 23 20 = c.toNat / 65536 % 256 / 16 := by
  have := c.isLt
  simp only [bits_eq]
  omega

/-- A reserved encoding is rejected as one: every other answer of the decoder says that the marked fields
are 0. -/
theorem decode_reserved {c : Word32} (h : ReservedWord c) :
    decode c = .error .reservedOp ∨ decode c = .error .reservedField := by
  rcases decode_cases c rfl with hrejected | ⟨hrsv, hfields⟩
  · exact hrejected.symm
  · unfold ReservedWord at h
    omega

/-- A format index is the index of a format, or one of the three that name none. -/
theorem index_or_noCodec {n : Nat} (h : n < 16) : (∃ f : Fmt, n = f.index) ∨ (13 ≤ n ∧ n ≤ 15) := by
  cases hf : Fmt.ofIndex n with
  | some f => exact .inl ⟨f, Fmt.ofIndex_some hf⟩
  | none => exact .inr ⟨Fmt.ofIndex_none hf, Nat.le_of_lt_succ h⟩

/-- Any other word is a command of R103. -/
theorem decode_of_not_reserved {c : Word32} (h : ¬ReservedWord c) :
    (∃ i, decode c = .ok i) ∨
    (bits c 3 0 = 4 ∧ 13 ≤ bits c 7 4 ∧ decode c = .error .dectNoCodec) ∨
    (bits c 3 0 = 5 ∧ 13 ≤ bits c 7 4 ∧ decode c = .error .enctNoCodec) := by
  unfold ReservedWord at h
  have hrsv : bits c 31 24 = 0 := by omega
  obtain hop | hop | hop | hop | hop | hop | hop | hop :
      bits c 3 0 = 0 ∨ bits c 3 0 = 1 ∨ bits c 3 0 = 2 ∨ bits c 3 0 = 3 ∨ bits c 3 0 = 4 ∨
        bits c 3 0 = 5 ∨ bits c 3 0 = 6 ∨ bits c 3 0 = 7 := by omega
  · exact .inl ⟨_, decode_of_encode_eq (i := .lookup) rfl
      (commandWord_fields hrsv hop (by omega) (by omega) (by omega))⟩
  · exact .inl ⟨_, decode_of_encode_eq (rsmp_fields_wellFormed c)
      (encode_rsmp_fields hrsv hop (by omega) (by omega) (by omega))⟩
  · exact .inl ⟨_, decode_of_encode_eq (taddr_fields_wellFormed c)
      (encode_taddr_fields hrsv hop (by omega) (by omega) (by omega))⟩
  · exact .inl ⟨_, decode_of_encode_eq rfl
      (encode_bdec_fields hrsv hop (by omega) (by omega) (by omega))⟩
  · have hword : commandWord 4 (bits c 7 4) 0 0 = c := commandWord_fields hrsv hop rfl (by omega) (by omega)
    obtain ⟨f, hf⟩ | ⟨hlo, hhi⟩ := index_or_noCodec (bits_lt c 7 4)
    · exact .inl ⟨_, decode_of_encode_eq (dect_wellFormed f) (by rw [encode_dect, ← hf, hword])⟩
    · exact .inr (.inl ⟨hop, hlo, hword ▸ decode_dect_noCodec hlo hhi⟩)
  · have hword : commandWord 5 (bits c 7 4) 0 0 = c := commandWord_fields hrsv hop rfl (by omega) (by omega)
    obtain ⟨f, hf⟩ | ⟨hlo, hhi⟩ := index_or_noCodec (bits_lt c 7 4)
    · exact .inl ⟨_, decode_of_encode_eq (enct_wellFormed f) (by rw [encode_enct, ← hf, hword])⟩
    · exact .inr (.inr ⟨hop, hlo, hword ▸ decode_enct_noCodec hlo hhi⟩)
  · exact .inl ⟨_, decode_of_encode_eq (i := .deci) rfl
      (commandWord_fields hrsv hop (by omega) (by omega) (by omega))⟩
  · exact .inl ⟨_, decode_of_encode_eq (i := .enci) rfl
      (commandWord_fields hrsv hop (by omega) (by omega) (by omega))⟩

theorem reservedWord_iff (c : Word32) :
    ReservedWord c ↔ decode c = .error .reservedOp ∨ decode c = .error .reservedField := by
  refine ⟨decode_reserved, fun hrejected => ?_⟩
  by_contra h
  obtain ⟨i, hi⟩ | ⟨-, -, hi⟩ | ⟨-, -, hi⟩ := decode_of_not_reserved h <;> simp [hi] at hrejected

end Sys2Proof

namespace Sys2Proof.Machine

theorem runWord_reserved {c : Word32} (h : ReservedWord c) (s : State) :
    runWord c s = .next (s.raise .illegalCommand c 0#64) := by
  rcases decode_reserved h with hd | hd <;> simp only [runWord, hd]

/-- Settles O4: the decoder rejects exactly the reserved encodings as such, and the step records
IllegalCommand for each. -/
theorem reservedWordsRaiseIllegalCommand : Obligations.ReservedWordsRaiseIllegalCommand := by
  unfold Obligations.ReservedWordsRaiseIllegalCommand
  intro c op fmt a b reserved
  obtain ⟨hop, hfmt, ha, hb, hrsv, ha16, ha64, ha2, hb16⟩ := fields_toNat c
  have hreserved : ReservedWord c ↔ reserved := by
    rw [ReservedWord, hop, hfmt, ha, hb, hrsv, ha16, ha64, ha2, hb16]
  rw [← hreserved]
  refine ⟨reservedWord_iff c, fun h => ?_, fun h s rest hpending herr => ?_⟩
  · rw [show op = bits c 3 0 from hop.symm, show fmt = bits c 7 4 from hfmt.symm]
    obtain hi | ⟨h4, h13, -⟩ | ⟨h5, h13, -⟩ := decode_of_not_reserved h
    · exact .inl hi
    · exact .inr ⟨.inl h4, h13⟩
    · exact .inr ⟨.inr h5, h13⟩
  · rw [step_issue hpending herr, runWord_reserved h, State.raise, statusWithErr_of_zero _ _ herr]
    rfl

/-! ## The step of an unknown format (R176, R177, R314) -/

/-- A word that runs as a command without a codec raises CodecNotFound or IllegalOperand, as the static
checks say. -/
theorem step_noCodec {s : State} {c : Word32} {rest : List HostAction} {decoding : Bool} {Ready : Prop}
    (hpending : s.pending = .issue c :: rest) (herr : s.err = 0#4)
    (hrun : ∀ t, runWord c t = .next ((noCodecBody decoding t).finish c))
    (hready : tileChecks decoding { s with pending := rest } = true ↔ Ready) :
    (Ready → step s = .next ({ s with pending := rest }.raise .codecNotFound c 0#64)) ∧
    (¬Ready → step s = .next ({ s with pending := rest }.raise .illegalOperand c 0#64)) := by
  rw [step_issue hpending herr, hrun, noCodecBody, ← hready]
  exact ⟨fun h => by rw [if_pos h, Res.finish_raised], fun h => by rw [if_neg h, Res.finish_raised]⟩

/-- Settles O5: the six words name no codec, and the static checks decide between the two faults. -/
theorem unknownFormatsRaiseCodecNotFound : Obligations.UnknownFormatsRaiseCodecNotFound := by
  unfold Obligations.UnknownFormatsRaiseCodecNotFound
  intro s fmt rest hlo hhi herr dect enct
  have hdect : decode dect = .error .dectNoCodec :=
    (congrArg decode (commandWord_format 4 fmt)).symm.trans (decode_dect_noCodec hlo hhi)
  have henct : decode enct = .error .enctNoCodec :=
    (congrArg decode (commandWord_format 5 fmt)).symm.trans (decode_enct_noCodec hlo hhi)
  refine ⟨hdect, henct, fun hpending => ?_, fun hpending => ?_⟩
  · exact step_noCodec hpending herr (fun t => by rw [runWord, hdect]) (tileChecks_decode _)
  · exact step_noCodec hpending herr (fun t => by rw [runWord, henct]) (tileChecks_encode _)

/-! ## Reading a written container (R291 to R294) -/

/-- A written file is the magic, the header's words, the padding and the data. -/
theorem stexWrite_eq_words (w h dt pf : Word32) (data : List Byte) :
    stexWrite w h dt pf data = stexMagic ++ ((stexWords w h dt pf data.length).flatMap stexWord ++
      (List.replicate 0x5C 0#8 ++ data)) := by
  simp [stexWrite, stexHeader, stexWords]

/-- The reader's field at the place of a header word is that word. -/
theorem stexField_stexWrite {w h dt pf v : Word32} {data : List Byte} {k o : Nat}
    (hk : (stexWords w h dt pf data.length)[k]? = some v.toNat) (ho : 4 + 4 * k = o) :
    stexField (stexWrite w h dt pf data) o = v.setWidth 64 := by
  rw [stexField, field_of_words (stexWrite_eq_words w h dt pf data) hk ho, stexWord_value v.isLt,
    BitVec.ofNat_toNat]

theorem stexRead_of_magic {file : List Byte} (hmagic : file.take 4 = stexMagic)
    (hlen : 0x1C ≤ file.length) :
    stexRead file = .ok (.memWrite .raw 0 (stexData file) ::
      decodeImage (stexField file 0x0C) (stexField file 0x10) (stexField file 0x14) (stexField file 0x18)
        (BitVec.ofNat 64 (stexData file).length)) := by
  rw [stexRead, if_neg (not_not_intro hmagic), if_neg (Nat.not_lt.2 hlen)]

/-- Settles O59: the written file starts with the magic and its header's words are where the reader looks. -/
theorem stexHeaderReadsBack : Obligations.StexHeaderReadsBack := by
  unfold Obligations.StexHeaderReadsBack
  refine ⟨fun w h dt pf data _ => ?_, fun file hmagic => if_pos hmagic⟩
  have hlen : 0x1C ≤ (stexWrite w h dt pf data).length := by
    rw [stexWrite_length]
    omega
  rw [stexRead_of_magic rfl hlen, stexField_stexWrite (v := w) (k := 2) rfl rfl,
    stexField_stexWrite (v := h) (k := 3) rfl rfl, stexField_stexWrite (v := dt) (k := 4) rfl rfl,
    stexField_stexWrite (v := pf) (k := 5) rfl rfl]

/-! ## Words of the assembler table, and the pseudo-instructions (R111, R112) -/

theorem issueInstr_eq {i : Instr} {c : Word32} (h : encode i = c) : issueInstr i = .issue c :=
  congrArg HostAction.issue h

/-- Settles O1: the words decode by evaluation, and the words of the pseudo-instructions are the encodings of
their commands. -/
theorem decodesWordsOfTheSpec : Obligations.DecodesWordsOfTheSpec := by
  unfold Obligations.DecodesWordsOfTheSpec
  have hrsmp : encode (.rsmp 5 8) = 0x00080501#32 := by decide
  have hbdec : encode (.bdec false) = 0x00000003#32 := by decide
  have hbdecAlpha : encode (.bdec true) = 0x00000103#32 := by decide
  refine ⟨by decide, by decide, by decide, by decide, by decide, by decide, by decide, by decide, by decide,
    fun w h dt pf n => ⟨?_, ?_⟩, fun x y => rfl, fun v => ?_, fun d m => ⟨?_, ?_⟩⟩
  · rw [decodeImage, issueInstr_eq encode_deci]; rfl
  · rw [encodeImage, issueInstr_eq encode_enci]; rfl
  · rw [resampleValue, issueInstr_eq hrsmp]; rfl
  · rw [decompress, issueInstr_eq hbdec]; rfl
  · rw [decompressAlpha, issueInstr_eq hbdecAlpha]; rfl

/-! ## The step of an instruction (R107, R326) -/

theorem runWord_of_decode {c : Word32} {i : Instr} (h : decode c = .ok i) (s : State) :
    runWord c s = exec i s := by
  rw [runWord, h]

theorem tableWord_toNat (c : Word32) : tableWord 32 c.toNat = c := by
  rw [tableWord, Nat.mod_eq_of_lt c.isLt, BitVec.ofNat_toNat, BitVec.setWidth_eq]

theorem step_issueNext {s : State} (herr : s.err = 0#4) (c : Word32) :
    step (issueNext s c) = runWord c s :=
  step_issue (s := issueNext s c) rfl herr

/-- Settles O6: with the gate open a step runs the word it takes, and the word of a well-formed instruction
decodes to it. -/
theorem stepRunsDecodedInstruction : Obligations.StepRunsDecodedInstruction := by
  unfold Obligations.StepRunsDecodedInstruction
  refine ⟨fun s herr => ⟨fun c i rest hpending hdecode => ?_, fun i hi => ?_⟩, step_idle⟩
  · rw [step_issue hpending herr, runWord_of_decode hdecode]
  · rw [State.withFetchWord, tableWord_toNat, step_issueNext herr, runWord_of_decode (decodeOfEncode i hi)]

/-! ## The invariant at reset (R109, R340, R341) -/

theorem within_nil (cap : Nat) : Memory.within [] cap := ⟨List.Pairwise.nil, nofun⟩

/-- Settles O55: nothing is listed in the memories, the table is legal, and every register is 0. -/
theorem resetStateKeepsInv : Obligations.ResetStateKeepsInv :=
  { rawWithin := within_nil _
    pixWithin := within_nil _
    outWithin := within_nil _
    codesLegal := reset_params_legal
    statusReserved := by decide
    errLegal := by decide
    fmtselReserved := by decide
    fmtselLegal := by decide
    fmtselInvalid := fun _ => rfl
    rsResByte := by decide
    noFault := fun _ => ⟨rfl, rfl⟩
    noDetail := fun _ _ => rfl }

end Sys2Proof.Machine

/-!
PROOFS. The statements of 40_resampler.md: the resampler rounds to the nearest integer, its range, its special
cases and the round trip of a field through a byte, and how RSMP ends.
-/

namespace Sys2Proof

/-! ## Reserved words with an operation of R103 -/

/-- Only an OP past the table is rejected as an operation. -/
theorem le_opField_of_reservedOp {c : Word32} (h : decode c = .error .reservedOp) : 8 ≤ bits c 3 0 := by
  by_contra! hop
  unfold decode at h
  generalize bits c 3 0 = op at h hop
  interval_cases op
  all_goals
    simp only at h
    repeat' split at h
    all_goals cases h

/-- A reserved word whose OP is in the table has a field that must be 0 and is not. -/
theorem decode_reservedField {c : Word32} (h : ReservedWord c) (hop : bits c 3 0 < 8) :
    decode c = .error .reservedField :=
  (decode_reserved h).resolve_left fun hrejected => by
    have := le_opField_of_reservedOp hrejected
    omega

theorem encode_rsmp_word {sbits tbits : Nat} (hs : sbits < 16) (ht : tbits < 16) :
    encode (.rsmp sbits tbits) = BitVec.ofNat 32 (1 + sbits * 256 + tbits * 65536) := by
  simp [encode, commandWord, Nat.mod_eq_of_lt hs, Nat.mod_eq_of_lt ht]

end Sys2Proof

namespace Sys2Proof.Machine

/-! ## Rounding to the nearest integer -/

/-- The integer `r` is less than one half away from the quotient `e / m`. -/
def IsNearest (m e r : Nat) : Prop := 2 * e < 2 * (r * m) + m ∧ 2 * (r * m) < 2 * e + m

theorem IsNearest.le_of_le {m e e' r r' : Nat} (h : IsNearest m e r) (h' : IsNearest m e' r') (he : e ≤ e') :
    r ≤ r' := by
  obtain ⟨-, hr⟩ := h
  obtain ⟨hr', -⟩ := h'
  refine Nat.le_of_lt_succ (Nat.lt_of_mul_lt_mul_right (a := m) ?_)
  rw [Nat.succ_mul]
  omega

theorem IsNearest.unique {m e r r' : Nat} (h : IsNearest m e r) (h' : IsNearest m e r') : r = r' :=
  (h.le_of_le h' le_rfl).antisymm (h'.le_of_le h le_rfl)

theorem isNearest_mul {m : Nat} (hm : 0 < m) (r : Nat) : IsNearest m (r * m) r :=
  ⟨Nat.lt_add_of_pos_right hm, Nat.lt_add_of_pos_right hm⟩

theorem IsNearest.of_mul_right {q m e r : Nat} (h : IsNearest (q * m) (e * m) r) : IsNearest q e r := by
  obtain ⟨hlo, hhi⟩ := h
  constructor <;> refine Nat.lt_of_mul_lt_mul_right (a := m) ?_ <;> linarith

/-- With an odd divisor, adding its half before the division rounds to the nearest. -/
theorem isNearest_div_of_odd {m : Nat} (hm : m % 2 = 1) (e : Nat) : IsNearest m e ((e + m / 2) / m) := by
  have hdiv := Nat.div_add_mod' (e + m / 2) m
  have hmod := Nat.mod_lt (e + m / 2) (show 0 < m by omega)
  unfold IsNearest
  omega

/-- A value is the nearest one to the image of its image on a finer scale. -/
theorem IsNearest.swap {m M v r : Nat} (h : IsNearest m (v * M) r) (hmM : m ≤ M) : IsNearest M (r * m) v := by
  obtain ⟨hlo, hhi⟩ := h
  exact ⟨hhi.trans_le (Nat.add_le_add_left hmM _), hlo.trans_le (Nat.add_le_add_left hmM _)⟩

/-- If `k` is nearest to `u` on a coarser scale, then no value's image is nearer to `u` than that of `k`. -/
theorem IsNearest.dist_le {m M u k w r r' : Nat} (hk : IsNearest M (u * m) k)
    (hr : IsNearest m (k * M) r) (hr' : IsNearest m (w * M) r') : Nat.dist r u ≤ Nat.dist r' u := by
  obtain ⟨hklo, hkhi⟩ := hk
  obtain hw | rfl | hw := Nat.lt_trichotomy k w
  · have hle : r ≤ r' := hr.le_of_le hr' (Nat.mul_le_mul_right M hw.le)
    have hstep : k * M + M ≤ w * M := by simpa only [Nat.succ_mul] using Nat.mul_le_mul_right M hw
    have hmid : 2 * u < r + r' + 1 := by
      refine Nat.lt_of_mul_lt_mul_right (a := m) ?_
      obtain ⟨hlo, -⟩ := hr
      obtain ⟨hlo', -⟩ := hr'
      simp only [Nat.add_mul, Nat.mul_assoc, Nat.one_mul]
      omega
    unfold Nat.dist
    omega
  · rw [hr.unique hr']
  · have hle : r' ≤ r := hr'.le_of_le hr (Nat.mul_le_mul_right M hw.le)
    have hstep : w * M + M ≤ k * M := by simpa only [Nat.succ_mul] using Nat.mul_le_mul_right M hw
    have hmid : r + r' < 2 * u + 1 := by
      refine Nat.lt_of_mul_lt_mul_right (a := m) ?_
      obtain ⟨-, hhi⟩ := hr
      obtain ⟨-, hhi'⟩ := hr'
      simp only [Nat.add_mul, Nat.mul_assoc, Nat.one_mul]
      omega
    unfold Nat.dist
    omega

/-- The multiple of `q` nearest to `u` is nearer than any other. -/
theorem IsNearest.dist_lt {q u k w : Nat} (hk : IsNearest q u k) (hw : w ≠ k) :
    Nat.dist (k * q) u < Nat.dist (w * q) u := by
  obtain ⟨hlo, hhi⟩ := hk
  obtain hw | hw := Nat.lt_or_gt_of_ne hw
  · have hstep : w * q + q ≤ k * q := by simpa only [Nat.succ_mul] using Nat.mul_le_mul_right q hw
    unfold Nat.dist
    omega
  · have hstep : k * q + q ≤ w * q := by simpa only [Nat.succ_mul] using Nat.mul_le_mul_right q hw
    unfold Nat.dist
    omega

/-! ## The resampler (R130 to R134) -/

theorem resample_eq (v s t : Nat) :
    resample v s t = ((v % 2 ^ s) * (2 ^ t - 1) + (2 ^ s - 1) / 2) / (2 ^ s - 1) := by
  simp only [resample, Nat.and_two_pow_sub_one_eq_mod, Nat.shiftRight_one]

/-- A mask of at least one bit is odd (R133). -/
theorem mask_odd {s : Nat} (hs : 1 ≤ s) : (2 ^ s - 1) % 2 = 1 := by
  obtain ⟨k, rfl⟩ := Nat.exists_eq_add_of_le' hs
  have := Nat.two_pow_pos k
  omega

theorem resample_isNearest {s : Nat} (hs : 1 ≤ s) (v t : Nat) :
    IsNearest (2 ^ s - 1) ((v % 2 ^ s) * (2 ^ t - 1)) (resample v s t) := by
  rw [resample_eq]
  exact isNearest_div_of_odd (mask_odd hs) _

theorem resample_isNearest_of_lt {s v : Nat} (hs : 1 ≤ s) (hv : v < 2 ^ s) (t : Nat) :
    IsNearest (2 ^ s - 1) (v * (2 ^ t - 1)) (resample v s t) := by
  simpa only [Nat.mod_eq_of_lt hv] using resample_isNearest hs v t

/-- Where the rescale is exact, the resampler gives it. -/
theorem resample_of_exact {v s t r : Nat} (hs : 1 ≤ s)
    (h : (v % 2 ^ s) * (2 ^ t - 1) = r * (2 ^ s - 1)) : resample v s t = r := by
  have hmask := mask_odd hs
  exact (resample_isNearest hs v t).unique (h ▸ isNearest_mul (by omega) r)

theorem resample_lt {s t : Nat} (hs : 1 ≤ s) (v : Nat) : resample v s t < 2 ^ t :=
  Nat.lt_of_le_pred (Nat.two_pow_pos t) (resample_le hs)

/-- Settles O18: the quotient is at most the target mask. -/
theorem resampleRange : Obligations.ResampleRange := by
  unfold Obligations.ResampleRange
  intro v s t hs _ ht
  have hpow : 2 ^ t ≤ 2 ^ 8 := Nat.pow_le_pow_right (by decide) ht
  exact ⟨resample_le hs, Nat.sub_le_sub_right hpow 1⟩

/-- Settles O19: twice the exact numerator is even and the odd mask is not, so there is no tie. -/
theorem resampleRoundsToNearest : Obligations.ResampleRoundsToNearest := by
  unfold Obligations.ResampleRoundsToNearest
  intro v s t hs _ _ mask exact
  have hodd : mask % 2 = 1 := mask_odd hs
  refine ⟨hodd, fun htie => ?_, resample_isNearest hs v t⟩
  rw [Nat.mul_mod_mul_left] at htie
  omega

/-- Settles O20: in each of the special cases the rescale is exact. -/
theorem resampleSpecialCases : Obligations.ResampleSpecialCases := by
  unfold Obligations.ResampleSpecialCases
  have hnibble (v : Nat) : resample v 4 8 = v % 16 * 17 := resample_of_exact (by decide) (by omega)
  refine ⟨fun v s hs _ => resample_of_exact hs rfl, fun v => ⟨hnibble v, ?_⟩,
    fun v => resample_of_exact (by decide) (by omega), fun v s hs _ => resample_of_exact hs (by simp), by decide⟩
  rw [hnibble, dup4_eq (Nat.mod_lt v (by decide)), Nat.mul_comm]

/-! ## The round trip of a field through a wider one (R253) -/

/-- Up to a scale that is no coarser and down again is the identity. -/
theorem resample_up_down {s t v : Nat} (hs : 1 ≤ s) (hst : s ≤ t) (hv : v < 2 ^ s) :
    resample (resample v s t) t s = v := by
  have hmask : 2 ^ s - 1 ≤ 2 ^ t - 1 := Nat.sub_le_sub_right (Nat.pow_le_pow_right (by decide) hst) 1
  have hdown := resample_isNearest_of_lt (hs.trans hst) (resample_lt hs v) s
  exact hdown.unique ((resample_isNearest_of_lt hs hv t).swap hmask)

/-- Down and up again gives a representable value that no other is nearer to. -/
theorem dist_resample_down_up_le {s t u w : Nat} (hs : 1 ≤ s) (ht : 1 ≤ t) (hu : u < 2 ^ t) (hw : w < 2 ^ s) :
    Nat.dist (resample (resample u t s) s t) u ≤ Nat.dist (resample w s t) u :=
  (resample_isNearest_of_lt ht hu s).dist_le (resample_isNearest_of_lt hs (resample_lt ht u) t)
    (resample_isNearest_of_lt hs hw t)

/-- If the field's mask divides the wider one's, then going up is exact. -/
theorem resample_up_exact {s t v q : Nat} (hs : 1 ≤ s) (hq : 2 ^ t - 1 = q * (2 ^ s - 1)) (hv : v < 2 ^ s) :
    resample v s t = v * q :=
  resample_of_exact hs (by rw [Nat.mod_eq_of_lt hv, hq, Nat.mul_assoc])

/-- If the field's mask divides the wider one's, then the nearest representable value is unique. -/
theorem dist_resample_down_up_lt {s t u w q : Nat} (hs : 1 ≤ s) (ht : 1 ≤ t)
    (hq : 2 ^ t - 1 = q * (2 ^ s - 1)) (hu : u < 2 ^ t) (hw : w < 2 ^ s) (hne : w ≠ resample u t s) :
    Nat.dist (resample (resample u t s) s t) u < Nat.dist (resample w s t) u := by
  have hnearest : IsNearest q u (resample u t s) := by
    have hscaled := resample_isNearest_of_lt ht hu s
    rw [hq] at hscaled
    exact hscaled.of_mul_right
  rw [resample_up_exact hs hq (resample_lt ht u), resample_up_exact hs hq hw]
  exact hnearest.dist_lt hne

/-- Settles O21: the round trips by the rounding, the numbers of ties by counting. -/
theorem quantisationRoundTrip : Obligations.QuantisationRoundTrip := by
  unfold Obligations.QuantisationRoundTrip
  refine ⟨fun n hn => ?_, fun n hn u hu w hw hne => ?_, by decide +kernel⟩
  · obtain ⟨hlo, hhi⟩ : 1 ≤ n ∧ n ≤ 8 := by
      simp only [List.mem_cons, List.not_mem_nil, or_false] at hn
      omega
    exact ⟨fun v hv => resample_up_down hlo hhi hv,
      fun u hu w hw => dist_resample_down_up_le hlo (by decide) hu hw⟩
  · simp only [List.mem_cons, List.not_mem_nil, or_false] at hn
    obtain rfl | rfl := hn
    · exact dist_resample_down_up_lt (q := 255) (by decide) (by decide) rfl hu hw hne
    · exact dist_resample_down_up_lt (q := 17) (by decide) (by decide) rfl hu hw hne

/-! ## RSMP (R135) -/

/-- Settles O17: the two cases of the body, and the fields of the word. -/
theorem rsmpResult : Obligations.RsmpResult := by
  unfold Obligations.RsmpResult
  refine ⟨fun s sbits tbits hs ht => ?_, fun c hop hc => ?_⟩
  · rw [exec_rsmp, command_eq, encode_rsmp_word hs ht]
    obtain ⟨h1, h2, h3, hbody⟩ | ⟨hillegal, hbody⟩ := rsmpBody_cases sbits tbits s
    · rw [hbody, Res.finish_ok, resample_eq]
      exact ⟨fun _ _ _ => rfl, fun hillegal => absurd ⟨h1, h2, h3⟩ hillegal⟩
    · rw [hbody, Res.finish_raised]
      exact ⟨fun h1 h2 h3 => absurd ⟨h1, h2, h3⟩ hillegal, fun _ => rfl⟩
  · obtain ⟨hopField, hfmt, -, -, hrsv, ha, -, -, hb⟩ := fields_toNat c
    have hfields : bits c 31 24 ≠ 0 ∨ bits c 7 4 ≠ 0 ∨ bits c 15 12 ≠ 0 ∨ bits c 23 20 ≠ 0 := by omega
    have hreserved : ReservedWord c := hfields.elim (fun h => .inr (.inl h))
      fun h => .inr (.inr (.inr (.inl ⟨by omega, h⟩)))
    exact decode_reservedField hreserved (by omega)

end Sys2Proof.Machine

/-!
PROOFS. The statements of 41_tile_address.md: the tile order and the pixel indices it gives, how TADDR ends, and
what the store of one texel clips.
-/

namespace Sys2Proof

theorem encode_taddr_word {t bpt : Nat} (ht : t < 64) (hbpt : bpt < 16) :
    encode (.taddr t bpt) = BitVec.ofNat 32 (2 + t * 256 + bpt * 65536) := by
  simp [encode, commandWord, Nat.mod_eq_of_lt ht, Nat.mod_eq_of_lt hbpt]

/-- A word with OP 2 in which RSV, FMT, B[7:4] or A[7:6] is set is no TADDR (R103, R106). -/
theorem decode_reserved_taddr {c : Word32} (hop : c.toNat % 16 = 2)
    (hc : c.toNat / 16 % 16 ≠ 0 ∨ c.toNat / 16384 % 4 ≠ 0 ∨ c.toNat / 1048576 ≠ 0) :
    decode c = .error .reservedField := by
  obtain ⟨hopField, hfmt, -, -, hrsv, -, ha, -, hb⟩ := fields_toNat c
  have hfields : bits c 31 24 ≠ 0 ∨ bits c 7 4 ≠ 0 ∨ bits c 15 14 ≠ 0 ∨ bits c 23 20 ≠ 0 := by omega
  have hreserved : ReservedWord c := by unfold ReservedWord; omega
  exact decode_reservedField hreserved (by omega)

end Sys2Proof

namespace Sys2Proof.Machine

/-! ## TADDR (R153) -/

theorem taddrBody_illegal {t bpt : Nat} {s : State} (h : taddrLegal t bpt s = false) :
    taddrBody t bpt s = .raised .illegalOperand 0#64 s :=
  if_neg (by simp [h])

/-- Settles O23: the two cases of the body, and the fields of the word. -/
theorem taddrResult : Obligations.TaddrResult := by
  unfold Obligations.TaddrResult
  refine ⟨fun s t bpt ht hbpt => ?_, fun c => decode_reserved_taddr⟩
  rw [exec_taddr, command_eq, encode_taddr_word ht hbpt]
  refine ⟨fun hlegal => ?_, fun hillegal => ?_⟩
  · rw [taddrBody_legal ((taddrLegal_iff t bpt s).2 hlegal), Res.finish_ok]
    exact ⟨_, rfl, rfl, inb_statusWithInb _ _, err_statusWithInb _ _, reserved_statusWithInb _ _⟩
  · rw [taddrBody_illegal (Bool.eq_false_iff.2 (hillegal ∘ (taddrLegal_iff t bpt s).1)), Res.finish_raised]

/-! ## The tile order (R150, R151) -/

theorem tileCol_eq_bits : ∀ t < 64, tileCol t = t / 16 % 2 * 4 + t / 4 % 2 * 2 + t % 2 := by decide

theorem tileRow_eq_bits : ∀ t < 64, tileRow t = t / 32 % 2 * 4 + t / 8 % 2 * 2 + t / 2 % 2 := by decide

/-- Settles O22: the even bits of t are the column and the odd ones the row, and the table is the one written. -/
theorem tileOrderIsMorton : Obligations.TileOrderIsMorton := by
  unfold Obligations.TileOrderIsMorton
  exact ⟨fun t ht => ⟨tileCol_eq_bits t ht, tileRow_eq_bits t ht⟩, by decide⟩

/-- The tile order visits every raster position once. -/
theorem map_tileOrder_perm : ((List.range 64).map tileOrder).Perm (List.range 64) := by decide

/-! ## The pixel indices of a tile (R152, R156) -/

/-- The pixel index of a raster position of a tile. -/
def rasterPixel (w x y k : Nat) : Nat := pixelIndex w x y (k / 8) (k % 8)

theorem map_pixelIndex_perm (w x y : Nat) :
    ((List.range 64).map fun t => pixelIndex w x y (tileRow t) (tileCol t)).Perm
      ((List.range 64).map (rasterPixel w x y)) := by
  have h := map_tileOrder_perm.map (rasterPixel w x y)
  rwa [List.map_map] at h

/-- In an aligned tile the column can be read off the pixel index. -/
theorem pixelIndex_mod_eight {w x y row col : Nat} (hw : w % 8 = 0) (hx : x % 8 = 0) (hcol : col < 8) :
    pixelIndex w x y row col % 8 = col := by
  have hrows : (row + y) * w % 8 = 0 := by rw [Nat.mul_mod, hw, Nat.mul_zero, Nat.zero_mod]
  unfold pixelIndex
  omega

theorem rasterPixel_injective {w x y : Nat} (hw : w % 8 = 0) (hx : x % 8 = 0) (hpos : 0 < w) :
    Function.Injective (rasterPixel w x y) := by
  intro j k h
  have hmod (i : Nat) : rasterPixel w x y i % 8 = i % 8 :=
    pixelIndex_mod_eight hw hx (Nat.mod_lt i (by decide))
  have hcol : j % 8 = k % 8 := by rw [← hmod j, ← hmod k, h]
  have hrow : (j / 8 + y) * w = (k / 8 + y) * w := by
    simp only [rasterPixel, pixelIndex, hcol] at h
    omega
  have := Nat.eq_of_mul_eq_mul_right hpos hrow
  omega

/-- The raster positions, row by row. -/
theorem map_rasterPixel_range (w x y : Nat) :
    (List.range 64).map (rasterPixel w x y) =
      (List.range 8).flatMap fun r => (List.range 8).map fun c => (y + r) * w + x + c := by
  refine List.ext_getElem? fun k => ?_
  by_cases hk : k < 8 * 8
  · rw [flatMap_range_get (fun r c => (y + r) * w + x + c) 8 8 k hk]
    simp [hk, rasterPixel, pixelIndex, Nat.add_comm, Nat.add_left_comm, Nat.add_assoc]
  · rw [List.getElem?_eq_none (by simpa using hk), List.getElem?_eq_none (by simpa using hk)]

/-- Settles O25: the tile order rearranges the raster positions, and in an aligned tile different positions
have different pixel indices. -/
theorem tileTexelsArePermutation : Obligations.TileTexelsArePermutation := by
  unfold Obligations.TileTexelsArePermutation
  intro w x y hw hx
  have hperm := map_pixelIndex_perm w x y
  exact ⟨map_rasterPixel_range w x y ▸ hperm, fun hpos =>
    hperm.nodup_iff.2 (List.nodup_range.map (rasterPixel_injective hw hx hpos))⟩

/-! ## Clipping and row wrap (R154, R155, R202) -/

theorem placeTexel_inside {fr : Frame} {q : Placed} (h : fr.pixelOf q < fr.w * fr.h) (pix : Memory) :
    placeTexel fr pix q = pixWrite pix (fr.pixelOf q) q.texel :=
  if_pos (decide_eq_true h)

theorem placeTexel_outside {fr : Frame} {q : Placed} (h : fr.w * fr.h ≤ fr.pixelOf q) (pix : Memory) :
    placeTexel fr pix q = pix :=
  if_neg (mt of_decide_eq_true (Nat.not_lt.2 h))

/-- A column past the end of a row is a column of the next row. -/
theorem pixelIndex_row_wrap {w x y row col : Nat} (h : w ≤ col + x) :
    pixelIndex w x y row col = (row + 1 + y) * w + (col + x - w) := by
  have hnext : (row + 1 + y) * w = (row + y) * w + w := by rw [Nat.add_right_comm, Nat.succ_mul]
  unfold pixelIndex
  omega

/-- A row at or past the last one lies past the image, whatever the column. -/
theorem le_pixelIndex_of_row {w h x y row col : Nat} (hrow : h ≤ row + y) : w * h ≤ pixelIndex w x y row col :=
  calc w * h ≤ (row + y) * w := Nat.mul_comm w h ▸ Nat.mul_le_mul_right w hrow
    _ ≤ pixelIndex w x y row col := Nat.le_add_right _ _

/-- Settles O26: a store writes the four bytes of its pixel index or nothing, and the pixel index runs on from
row to row. -/
theorem rowWrapAndClipping : Obligations.RowWrapAndClipping := by
  unfold Obligations.RowWrapAndClipping
  refine fun fr pix q _ _ => ⟨(placeTexel_outside · pix), fun hinside => ?_, pixelIndex_row_wrap,
    le_pixelIndex_of_row⟩
  rw [placeTexel_inside hinside]
  exact ⟨pixRead_pixWrite _ _ _, fun a ha => (read_pixWrite _ _ _ _).trans (if_neg ha)⟩

end Sys2Proof.Machine

/-!
PROOFS. The statements of 42_registry_sequencer.md: which fault the image commands report, the tile traversal,
the image commands as walks of the tile commands, where a walk stops, and the round trip of texels and images.
-/

namespace Sys2Proof.Machine

/-! ## Which fault a command reports (R175, R314) -/

theorem exec_deci_illegal {s : State} (h : ¬(ImageReady s ∧ RawReady s)) :
    exec .deci s = .next (s.raise .illegalOperand 6#32 0#64) := by
  rw [exec_deci, deciBody_illegal s h, command_eq, Res.finish_raised, encode_deci]

theorem exec_enci_illegal {s : State} (h : ¬ImageReady s) :
    exec .enci s = .next (s.raise .illegalOperand 7#32 0#64) := by
  rw [exec_enci, enciBody_illegal s h, command_eq, Res.finish_raised, encode_enci]

/-- Settles O15: each body that fails its checks raises IllegalOperand in the state it began in. -/
theorem staticChecks : Obligations.StaticChecks := by
  unfold Obligations.StaticChecks
  refine fun s f => ⟨fun h => ?_, fun h => ?_, exec_deci_illegal, exec_enci_illegal⟩
  · rw [exec_dect, dectBody_illegal f s h, command_eq, Res.finish_raised]
  · rw [exec_enct, enctBody_illegal f s h, command_eq, Res.finish_raised]

theorem exec_deci_underrun {s : State} {f : Fmt} (hready : ImageReady s ∧ RawReady s)
    (hcode : codeTable s.params s.dtype s.pfmt = some f)
    (hshort : s.rawLen.toNat < tileBytes f * tileCount s) :
    ∃ info, ∃ u : State, exec .deci s = .next (u.raise .rawUnderrun (encode .deci) info) := by
  obtain ⟨info, u, hwalk⟩ := walkTiles_decode_short f (imageTiles s)
    { s with fmtsel := fmtselOf f, cur := 0#64 } (by simpa [imageTiles_length] using hshort) (Nat.zero_le _)
  exact ⟨info, u, by rw [exec_deci, deciBody_ready f s hready hcode, hwalk, command_eq, Res.finish_raised]⟩

theorem exec_enci_overflow {s : State} {f : Fmt} {enc : Texel → List Byte} (himage : ImageReady s)
    (hcode : codeTable s.params s.dtype s.pfmt = some f) (henc : encodeRoutine f = some enc)
    (hfull : s.params.outCap.toNat < tileBytes f * tileCount s) :
    ∃ info, ∃ u : State, exec .enci s = .next (u.raise .outOverflow (encode .enci) info) := by
  obtain ⟨info, u, hwalk⟩ := walkTiles_encode_full f enc (imageTiles s)
    { s with fmtsel := fmtselOf f, outLen := 0#64 } (by simpa [imageTiles_length] using hfull) (Nat.zero_le _)
  exact ⟨info, u, by rw [exec_enci, enciBody_ready f enc s himage hcode henc, hwalk, command_eq,
    Res.finish_raised]⟩

/-- The fault code in the state a command is known to end in. -/
theorem err_of_exec {i : Instr} {s t u : State} {e : BitVec 4} (hexec : exec i s = .next t)
    (hend : exec i s = .next u) (herr : u.err = e) : t.err = e := by
  obtain rfl := Host.Outcome.next.inj (hend.symm.trans hexec)
  exact herr

/-- Settles O16: the commands end in the first of these faults that applies, and the byte count decides the
last one. -/
theorem imageFaultPriority : Obligations.ImageFaultPriority := by
  unfold Obligations.ImageFaultPriority
  refine fun s t => ⟨fun hexec => ⟨fun hillegal => ?_, fun himage hraw => ⟨fun hnone => ?_, fun f hcode =>
    ?_⟩⟩, fun hexec => ⟨fun hillegal => ?_, fun himage => ?_⟩⟩
  · exact err_of_exec hexec (exec_deci_illegal hillegal) (raise_err ..)
  · exact err_of_exec hexec (((imageCommandsRejectDescriptors s himage).1 hnone).1 hraw) (raise_err ..)
  · split_ifs with hbytes
    · exact err_of_exec hexec (exec_deci_ok himage hraw hcode hbytes) rfl
    · obtain ⟨info, u, hend⟩ := exec_deci_underrun ⟨himage, hraw⟩ hcode (Nat.lt_of_not_le hbytes)
      exact err_of_exec hexec hend (raise_err ..)
  · exact err_of_exec hexec (exec_enci_illegal hillegal) (raise_err ..)
  · obtain ⟨hnocodec, hnoencoder⟩ := imageCommandsRejectDescriptors s himage
    refine ⟨fun hnone => ?_, fun f hcode => ⟨fun hnone => ?_, fun enc henc => ?_⟩⟩
    · exact err_of_exec hexec (hnocodec hnone).2 (raise_err ..)
    · exact err_of_exec hexec (hnoencoder f hcode hnone) (raise_err ..)
    · split_ifs with hroom
      · exact err_of_exec hexec (exec_enci_ok himage hcode henc hroom) rfl
      · obtain ⟨info, u, hend⟩ := exec_enci_overflow himage hcode henc (Nat.lt_of_not_le hroom)
        exact err_of_exec hexec hend (raise_err ..)

/-! ## The tile traversal (R174, R181) -/

/-- Settles O43: the traversal is a two-level list, row by row. -/
theorem tilesInRowMajorOrder : Obligations.TilesInRowMajorOrder := by
  unfold Obligations.TilesInRowMajorOrder
  exact fun w h => ⟨(tiles_length w h).trans (Nat.mul_comm _ _), tiles_get w h⟩

/-- Every texel of the image is a texel of some tile of the traversal, at its own column and row. -/
theorem exists_tile_of_pixel {w h p : Nat} (hp : p < w * h) :
    ∃ x y row col, (x, y) ∈ tiles w h ∧ row < 8 ∧ col < 8 ∧
      x + col = p % w ∧ y + row = p / w ∧ pixelIndex w x y row col = p := by
  have hw : 0 < w := Nat.pos_of_mul_pos_right (Nat.zero_lt_of_lt hp)
  have hcol : p % w < w := Nat.mod_lt p hw
  have hrow : p / w < h := Nat.div_lt_of_lt_mul hp
  refine ⟨8 * (p % w / 8), 8 * (p / w / 8), p / w % 8, p % w % 8, ?_, by omega, by omega, by omega,
    by omega, ?_⟩
  · refine mem_tiles.2 ⟨p % w / 8, p / w / 8, ?_, ?_, rfl⟩ <;> unfold tilesAcross <;> omega
  · rw [pixelIndex, Nat.mod_add_div, Nat.mod_add_div, Nat.div_add_mod']

theorem exists_tileByte {w h a : Nat} (ha : a < 4 * (w * h)) : ∃ o ∈ tiles w h, TileByte w h o.1 o.2 a := by
  obtain ⟨x, y, row, col, hmem, hrow, hcol, -, -, hp⟩ :=
    exists_tile_of_pixel (w := w) (h := h) (p := a / 4) (by omega)
  exact ⟨(x, y), hmem, row, col, hrow, hcol, hp ▸ by omega, hp.symm⟩

/-- Settles O49: every byte of the image is a byte of some tile, and a decoded byte does not depend on what
stood there. -/
theorem deciIgnoresOldPixels : Obligations.DeciIgnoresOldPixels := by
  unfold Obligations.DeciIgnoresOldPixels
  refine ⟨fun w h p => exists_tile_of_pixel, ?_⟩
  intro s₁ s₂ t₁ t₂ f himage hraw hw hh hdtype hpfmt hlen hrawEq hparams hcode hbytes hexec₁ hexec₂
  have himage₂ : ImageReady s₂ := by simpa only [ImageReady, ← hw, ← hh, ← hparams] using himage
  have hraw₂ : RawReady s₂ := by simpa only [RawReady, ← hlen, ← hparams] using hraw
  have hcount : tileCount s₂ = tileCount s₁ := by rw [tileCount, tileCount, hw, hh]
  have hend₁ := exec_deci_ok himage hraw hcode hbytes
  have hend₂ := exec_deci_ok (f := f) himage₂ hraw₂ (by rw [← hparams, ← hdtype, ← hpfmt, hcode])
    (by rw [hcount, ← hlen]; exact hbytes)
  obtain rfl := Host.Outcome.next.inj (hend₁.symm.trans hexec₁)
  obtain rfl := Host.Outcome.next.inj (hend₂.symm.trans hexec₂)
  refine ⟨by rw [hcount], rfl, fun a ha => ?_⟩
  simp only [imageTiles, ← hw, ← hh, ← hrawEq]
  exact read_decodedPix_covered f _ _ _ _ 0 _ _ a (exists_tileByte ha)

/-! ## The image commands as walks of the tile commands (R346) -/

/-- The host's walk of some tiles: each origin written to TILE_X and TILE_Y, and the tile's command. -/
def tileWalk (i : Instr) (os : List (Nat × Nat)) : List HostAction :=
  os.flatMap fun o =>
    [.wr 11#8 (BitVec.ofNat 64 o.1), .wr 12#8 (BitVec.ofNat 64 o.2), .issue (encode i)]

theorem setWidth_ofNat_word (n : Nat) : (BitVec.ofNat 64 n).setWidth 32 = BitVec.ofNat 32 n :=
  BitVec.setWidth_ofNat_of_le (by decide) n

/-- The state with other actions to come. -/
def State.withPending (s : State) (acts : List HostAction) : State := { s with pending := acts }

theorem step_write_tileX (s : State) (x : Nat) (rest : List HostAction) :
    step (s.withPending (.wr 11#8 (BitVec.ofNat 64 x) :: rest)) =
      .next (State.withPending { s with tileX := BitVec.ofNat 32 x } rest) := by
  rw [step_wr rfl, ← setWidth_ofNat_word]
  rfl

theorem step_write_tileY (s : State) (y : Nat) (rest : List HostAction) :
    step (s.withPending (.wr 12#8 (BitVec.ofNat 64 y) :: rest)) =
      .next (State.withPending { s with tileY := BitVec.ofNat 32 y } rest) := by
  rw [step_wr rfl, ← setWidth_ofNat_word]
  rfl

theorem step_issue_instr {i : Instr} (hi : i.wellFormed = true) {s : State} (herr : s.err = 0#4)
    (rest : List HostAction) :
    step (s.withPending (.issue (encode i) :: rest)) = exec i (s.withPending rest) :=
  (step_issue (s := s.withPending (.issue (encode i) :: rest)) rfl herr).trans
    (runWord_of_decode (decodeOfEncode i hi) _)

/-- The first tile of a walk takes three steps: two writes and the command. -/
theorem run_tileWalk_cons {i : Instr} (hi : i.wellFormed = true) {s t : State} {o : Nat × Nat}
    {os : List (Nat × Nat)} (herr : s.err = 0#4)
    (hexec : exec i ((s.atTile o).withPending (tileWalk i os)) = .next t) (k : Nat) :
    Host.Core.run Sys2Proof.core (k + 3) (s.withPending (tileWalk i (o :: os))) =
      Host.Core.run Sys2Proof.core k t :=
  (core_run_next _ _ _ (step_write_tileX s o.1 _)).trans <|
    (core_run_next _ _ _ (step_write_tileY _ o.2 _)).trans <|
      core_run_next _ _ _ ((step_issue_instr hi (s := s.atTile o) herr _).trans hexec)

/-- If the command of a tile does what `tile` does, then the host's walk of the tiles ends where the walk of
an image command does. `P` is what the tiles need of the state and keep. -/
theorem run_tileWalk {i : Instr} (hi : i.wellFormed = true) {tile : State → Res} {P : State → Prop}
    (herr : ∀ s, P s → s.err = 0#4) {os : List (Nat × Nat)}
    (htile : ∀ s u, ∀ o ∈ os, P s → tile (s.atTile o) = .ok u →
      P u ∧ ∀ rest, exec i ((s.atTile o).withPending rest) = .next (u.withPending rest))
    {s t : State} (hs : P s) (hwalk : walkTiles tile os s = .ok t) :
    Host.Core.run Sys2Proof.core (3 * os.length) (s.withPending (tileWalk i os)) =
      .next (t.withPending []) := by
  induction os generalizing s with
  | nil => cases hwalk; rfl
  | cons o os ih =>
    rw [walkTiles_cons] at hwalk
    cases hfirst : tile (s.atTile o) with
    | raised f info u => rw [hfirst] at hwalk; cases hwalk
    | ok u =>
      rw [hfirst] at hwalk
      obtain ⟨hu, hexec⟩ := htile s u o List.mem_cons_self hs hfirst
      rw [List.length_cons, Nat.mul_succ, run_tileWalk_cons hi (herr s hs) (hexec _)]
      exact ih (fun s u o ho => htile s u o (List.mem_cons_of_mem _ ho)) hu hwalk

theorem originReady_atTile (s : State) {o : Nat × Nat} (ho : o.1 < 2 ^ 31 ∧ o.2 < 2 ^ 31) :
    OriginReady (s.atTile o) := by
  simp only [OriginReady, State.atTile, BitVec.toNat_ofNat]
  omega

/-- The origins of a legal image pass the checks of DECT and ENCT (R38, R43). -/
theorem imageTiles_legal {s : State} (h : ImageReady s) :
    ∀ o ∈ imageTiles s, o.1 < 2 ^ 31 ∧ o.2 < 2 ^ 31 := by
  intro o ho
  obtain ⟨hw, hh, -⟩ := h
  have hlt := tiles_lt ho
  omega

/-- A tile that DECI decodes is decoded by a DECT at its origin, which leaves what the next one needs. -/
theorem exec_dect_of_decodeTile {s u : State} {f : Fmt} {o : Nat × Nat} (ho : o.1 < 2 ^ 31 ∧ o.2 < 2 ^ 31)
    (hs : s.err = 0#4 ∧ ImageReady s ∧ RawReady s) (h : decodeTile f (s.atTile o) = .ok u) :
    (u.err = 0#4 ∧ ImageReady u ∧ RawReady u) ∧
      ∀ rest, exec (.dect f) ((s.atTile o).withPending rest) = .next (u.withPending rest) := by
  obtain ⟨hbytes, k⟩ | ⟨_, k⟩ := decodeTile_cases f (s.atTile o) <;> cases h.symm.trans k
  refine ⟨hs, fun rest => ?_⟩
  have hready : DectReady ((s.atTile o).withPending rest) := ⟨hs.2.1, hs.2.2, originReady_atTile s ho⟩
  exact exec_dect_ok hready hbytes

/-- A tile that ENCI encodes is encoded by an ENCT at its origin, which leaves what the next one needs. -/
theorem exec_enct_of_encodeTile {s u : State} {f : Fmt} {enc : Texel → List Byte}
    (henc : encodeRoutine f = some enc) {o : Nat × Nat} (ho : o.1 < 2 ^ 31 ∧ o.2 < 2 ^ 31)
    (hs : s.err = 0#4 ∧ ImageReady s) (h : encodeTile f enc (s.atTile o) = .ok u) :
    (u.err = 0#4 ∧ ImageReady u) ∧
      ∀ rest, exec (.enct f) ((s.atTile o).withPending rest) = .next (u.withPending rest) := by
  obtain ⟨hroom, k⟩ | ⟨_, k⟩ := encodeTile_cases f enc (s.atTile o) <;> cases h.symm.trans k
  refine ⟨hs, fun rest => ?_⟩
  have hready : EnctReady ((s.atTile o).withPending rest) := ⟨hs.2, originReady_atTile s ho⟩
  exact exec_enct_ok hready henc hroom

/-- Settles O47: the walk of DECTs ends where DECI's own walk ends, and only DECI has written FMTSEL. -/
theorem deciEqualsWalkOfDect : Obligations.DeciEqualsWalkOfDect := by
  unfold Obligations.DeciEqualsWalkOfDect
  intro s t f herr himage hraw hcode hbytes hexec walk
  obtain rfl := Host.Outcome.next.inj ((exec_deci_ok himage hraw hcode hbytes).symm.trans hexec)
  have hwalk := walkTiles_decode f (imageTiles s) { s with cur := 0#64 } (imageTiles_fit himage)
    (by simpa [imageTiles_length] using hbytes)
  have hrun := run_tileWalk (dect_wellFormed f) (P := fun u => u.err = 0#4 ∧ ImageReady u ∧ RawReady u)
    (fun _ hu => hu.1) (fun _ _ o ho => exec_dect_of_decodeTile (imageTiles_legal himage o ho))
    (s := { s with cur := 0#64 }) ⟨herr, himage, hraw⟩ hwalk
  rw [Nat.add_comm, core_run_next _ _ _ (step_wr rfl), ← imageTiles_length]
  refine hrun.trans ?_
  rw [imageTiles_length, atLastTile_image]
  simp [State.withPending, State.afterImage, tileCount]

/-- Settles O48: the walk of ENCTs ends where ENCI's own walk ends, and only ENCI has written FMTSEL. -/
theorem enciEqualsWalkOfEnct : Obligations.EnciEqualsWalkOfEnct := by
  unfold Obligations.EnciEqualsWalkOfEnct
  intro s t f enc herr himage hcode henc hroom hexec walk
  obtain rfl := Host.Outcome.next.inj ((exec_enci_ok himage hcode henc hroom).symm.trans hexec)
  have hwalk := walkTiles_encode f enc (imageTiles s) { s with outLen := 0#64 } (imageTiles_fit himage)
    (by simpa [imageTiles_length] using hroom)
  have hrun := run_tileWalk (enct_wellFormed f) (P := fun u => u.err = 0#4 ∧ ImageReady u)
    (fun _ hu => hu.1) (fun _ _ o ho => exec_enct_of_encodeTile henc (imageTiles_legal himage o ho))
    (s := { s with outLen := 0#64 }) ⟨herr, himage⟩ hwalk
  rw [Nat.add_comm, core_run_next _ _ _ (step_wr rfl), ← imageTiles_length]
  refine hrun.trans ?_
  rw [imageTiles_length, atLastTile_image]
  simp [State.withPending, State.afterImage, tileCount]

/-! ## Where a walk of an image stops (R313) -/

/-- A walk ends with the fault of the first tile that raises one. -/
theorem walkTiles_stops {tile : State → Res} {os : List (Nat × Nat)} {s u v : State} {n : Nat} {o : Nat × Nat}
    {f : BlockFault} {info : Word64} (ho : os[n]? = some o) (hbefore : walkTiles tile (os.take n) s = .ok u)
    (htile : tile (u.atTile o) = .raised f info v) : walkTiles tile os s = .raised f info v := by
  obtain ⟨hlt, rfl⟩ := List.getElem?_eq_some_iff.1 ho
  have hsplit : os = os.take n ++ os[n] :: os.drop (n + 1) := by
    rw [← List.drop_eq_getElem_cons hlt, List.take_append_drop]
  rw [hsplit, walkTiles_append, hbefore]
  simp only [walkTiles_cons, htile]

/-- The first tile that does not fit begins within the space there is and ends past it. -/
theorem lt_tile_end {b : Nat} (hb : 0 < b) (len : Nat) : len < len / b * b + b := by
  rw [← Nat.succ_mul, Nat.mul_comm]
  exact Nat.lt_mul_div_succ len hb

theorem length_take_of_get {α : Type} {l : List α} {n : Nat} {x : α} (h : l[n]? = some x) :
    (l.take n).length = n :=
  List.length_take_of_le (List.getElem?_eq_some_iff.1 h).1.le

theorem toNat_ofNat_of_le {n : Nat} {v : Word64} (h : n ≤ v.toNat) : (BitVec.ofNat 64 n).toNat = n := by
  rw [BitVec.toNat_ofNat, Nat.mod_eq_of_lt (h.trans_lt v.isLt)]

section
variable {f : Fmt} {enc : Texel → List Byte} {os : List (Nat × Nat)} {s : State}
  (hfit : ∀ o ∈ os, o.1 < 2 ^ 32 ∧ o.2 < 2 ^ 32)
include hfit

/-- A walk of decodes from CUR 0 for which there are raw bytes enough ends at the bytes of its tiles. -/
theorem walkTiles_decode_cur (hcur : s.cur = 0#64) (hbytes : os.length * tileBytes f ≤ s.rawLen.toNat) :
    ∃ u, walkTiles (decodeTile f) os s = .ok u ∧ u.cur.toNat = os.length * tileBytes f ∧
      DecodeFrame s u := by
  have hsum : s.cur.toNat + tileBytes f * os.length = os.length * tileBytes f := by
    rw [hcur, Nat.mul_comm]
    exact Nat.zero_add _
  have hwalk := walkTiles_decode f os s hfit (hsum ▸ hbytes)
  have hframe := walkTiles_decode_frame f os s
  rw [hwalk] at hframe
  exact ⟨_, hwalk, (congrArg (BitVec.toNat ∘ BitVec.ofNat 64) hsum).trans (toNat_ofNat_of_le hbytes), hframe⟩

/-- A walk of encodes from OUT_LEN 0 for which there is room ends at the bytes of its tiles. -/
theorem walkTiles_encode_outLen (hlen : s.outLen = 0#64)
    (hroom : os.length * tileBytes f ≤ s.params.outCap.toNat) :
    ∃ u, walkTiles (encodeTile f enc) os s = .ok u ∧ u.outLen.toNat = os.length * tileBytes f ∧
      EncodeFrame s u := by
  have hsum : s.outLen.toNat + tileBytes f * os.length = os.length * tileBytes f := by
    rw [hlen, Nat.mul_comm]
    exact Nat.zero_add _
  have hwalk := walkTiles_encode f enc os s hfit (hsum ▸ hroom)
  have hframe := walkTiles_encode_frame f enc os s
  rw [hwalk] at hframe
  exact ⟨_, hwalk, (congrArg (BitVec.toNat ∘ BitVec.ofNat 64) hsum).trans (toNat_ofNat_of_le hroom), hframe⟩

variable {n : Nat} {o : Nat × Nat} (ho : os[n]? = some o)
include ho

/-- A walk of decodes does every tile that the raw bytes hold and stops at the next. -/
theorem walkTiles_decode_stops (hcur : s.cur = 0#64) (hn : s.rawLen.toNat / tileBytes f = n) :
    ∃ u, walkTiles (decodeTile f) (os.take n) s = .ok u ∧ u.cur.toNat = n * tileBytes f ∧
      DecodeFrame s u ∧
      walkTiles (decodeTile f) os s = .raised .rawUnderrun u.cur { u.atTile o with
        pix := placeTexels (u.atTile o).frame u.pix (underrunTexels u.draws), draws := u.draws + 64 } := by
  have hlen := length_take_of_get ho
  obtain ⟨u, hwalk, hend, hframe⟩ := walkTiles_decode_cur (f := f) (os := os.take n)
    (fun o h => hfit o (List.mem_of_mem_take h)) hcur (by rw [hlen, ← hn]; exact Nat.div_mul_le_self ..)
  rw [hlen] at hend
  refine ⟨u, hwalk, hend, hframe, walkTiles_stops ho hwalk (decodeTile_raised f (u.atTile o) ?_)⟩
  have hrawLen : u.rawLen = s.rawLen := by rw [hframe]
  show u.rawLen.toNat < u.cur.toNat + tileBytes f
  rw [hrawLen, hend, ← hn]
  exact lt_tile_end (tileBytes_pos f) _

/-- A walk of encodes does every tile that OUT has room for and stops at the next. -/
theorem walkTiles_encode_stops (hlen : s.outLen = 0#64) (hn : s.params.outCap.toNat / tileBytes f = n) :
    ∃ u, walkTiles (encodeTile f enc) (os.take n) s = .ok u ∧ u.outLen.toNat = n * tileBytes f ∧
      walkTiles (encodeTile f enc) os s = .raised .outOverflow u.outLen (u.atTile o) := by
  have htake := length_take_of_get ho
  obtain ⟨u, hwalk, hend, hframe⟩ := walkTiles_encode_outLen (f := f) (enc := enc) (os := os.take n)
    (fun o h => hfit o (List.mem_of_mem_take h)) hlen (by rw [htake, ← hn]; exact Nat.div_mul_le_self ..)
  rw [htake] at hend
  refine ⟨u, hwalk, hend, walkTiles_stops ho hwalk (encodeTile_raised f enc (u.atTile o) ?_)⟩
  have hparams : u.params = s.params := by rw [hframe]
  show u.params.outCap.toNat < u.outLen.toNat + tileBytes f
  rw [hparams, hend, ← hn]
  exact lt_tile_end (tileBytes_pos f) _

end

theorem exists_imageTile {s : State} {n : Nat} (hn : n < tileCount s) : ∃ o, (imageTiles s)[n]? = some o :=
  ⟨_, List.getElem?_eq_getElem (by rwa [imageTiles_length])⟩

/-- Settles O50: the tiles the raw bytes hold are decoded, and the draws of the next one stand at its
own bytes. -/
theorem deciStopsAtTheFailingTile : Obligations.DeciStopsAtTheFailingTile := by
  unfold Obligations.DeciStopsAtTheFailingTile
  intro s t f himage hraw hcode hshort hexec n
  obtain ⟨o, ho⟩ := exists_imageTile hshort
  obtain ⟨u, hbefore, hcur, hframe, hstops⟩ := walkTiles_decode_stops
    (s := { s with fmtsel := fmtselOf f, cur := 0#64 }) (imageTiles_fit himage) ho rfl rfl
  rw [exec_deci, deciBody_ready f s ⟨himage, hraw⟩ hcode, hstops, command_eq, Res.finish_raised,
    encode_deci] at hexec
  cases hexec
  rw [fmtselOf_eq] at hbefore
  refine ⟨u, o, ho, hbefore, hcur, rfl, fun a ha => ?_⟩
  have hunits : (u.atTile o).frame = { w := s.width.toNat, h := s.height.toNat, x := o.1, y := o.2 } := by
    obtain ⟨hx, hy⟩ := imageTiles_fit himage o (List.mem_of_getElem? ho)
    rw [hframe]
    simp only [State.frame, State.atTile, BitVec.toNat_ofNat, Nat.mod_eq_of_lt hx, Nat.mod_eq_of_lt hy]
  simp only [State.raise_pix, hunits]
  exact placeTexels_frame (fun _ => underrunTexels_place) ha

/-- Settles O51: the tiles OUT has room for are encoded, and the next changes nothing but the origin. -/
theorem enciStopsAtTheFailingTile : Obligations.EnciStopsAtTheFailingTile := by
  unfold Obligations.EnciStopsAtTheFailingTile
  intro s t f enc himage hcode henc hfull hexec n
  obtain ⟨o, ho⟩ := exists_imageTile hfull
  obtain ⟨u, hbefore, hlen, hstops⟩ := walkTiles_encode_stops (enc := enc)
    (s := { s with fmtsel := fmtselOf f, outLen := 0#64 }) (imageTiles_fit himage) ho rfl rfl
  rw [exec_enci, enciBody_ready f enc s himage hcode henc, hstops, command_eq, Res.finish_raised,
    encode_enci] at hexec
  cases hexec
  rw [fmtselOf_eq] at hbefore
  exact ⟨u, o, ho, hbefore, hlen, rfl⟩

/-! ## A field of a packed word (R204, R211) -/

/-- Fields packed by shifts are summands of the word. -/
theorem shiftLeft_or_eq (a : Nat) {b n : Nat} (h : b < 2 ^ n) : a <<< n ||| b = a * 2 ^ n + b := by
  rw [← Nat.shiftLeft_add_eq_or_of_lt h, Nat.shiftLeft_eq]

theorem pack4444 {r g b a : Nat} (hg : g < 2 ^ 4) (hb : b < 2 ^ 4) (ha : a < 2 ^ 4) :
    r <<< 12 ||| g <<< 8 ||| b <<< 4 ||| a = r * 2 ^ 12 + g * 2 ^ 8 + b * 2 ^ 4 + a := by
  rw [Nat.lor_assoc, Nat.lor_assoc, shiftLeft_or_eq b ha, shiftLeft_or_eq g (by omega),
    shiftLeft_or_eq r (by omega)]
  omega

theorem pack5551 {r g b a : Nat} (hg : g < 2 ^ 5) (hb : b < 2 ^ 5) (ha : a < 2 ^ 1) :
    r <<< 11 ||| g <<< 6 ||| b <<< 1 ||| a = r * 2 ^ 11 + g * 2 ^ 6 + b * 2 ^ 1 + a := by
  rw [Nat.lor_assoc, Nat.lor_assoc, shiftLeft_or_eq b ha, shiftLeft_or_eq g (by omega),
    shiftLeft_or_eq r (by omega)]
  omega

theorem pack565 {r g b : Nat} (hg : g < 2 ^ 6) (hb : b < 2 ^ 5) :
    r <<< 11 ||| g <<< 5 ||| b = r * 2 ^ 11 + g * 2 ^ 5 + b := by
  rw [Nat.lor_assoc, shiftLeft_or_eq g hb, shiftLeft_or_eq r (by omega)]
  omega

theorem bits_ofNat (w hi lo : Nat) :
    bits (BitVec.ofNat 16 w) hi lo = w % 2 ^ 16 / 2 ^ lo % 2 ^ (hi - lo + 1) := by
  rw [bits_eq, BitVec.toNat_ofNat]

/-! ## One unit of an uncompressed format (R201, R204) -/

/-- What decoding does with the first unit of a stream that begins with some bytes. -/
def decodeUnit (f : Fmt) (bs : List Byte) : Option Texel :=
  (decodeTexels (Memory.writeBytes [] 0 bs) 0 f).head?.map Placed.texel

theorem rawByte_writeBytes (bs : List Byte) {i : Nat} (h : i < bs.length) :
    rawByte (Memory.writeBytes [] 0 bs) i = bs[i] := by
  simpa only [rawByte, Nat.zero_add] using read_writeBytes_inside .raw [] 0 bs i h

theorem unitByte_zero (raw : Memory) (n i : Nat) : unitByte raw 0 0 n i = rawByte raw i := by
  simp [unitByte]

/-- A 16-bit word is its two bytes, low byte first. -/
theorem word16_eq_unitBytes (raw : Memory) (c t : Nat) :
    word16 raw c t =
      BitVec.ofNat 16 ((unitByte raw c t 2 0).toNat + 256 * (unitByte raw c t 2 1).toNat) := by
  rw [word16, rawRead, readBytes_succ, readBytes_succ, Nat.mul_comm 2 t]
  rfl

/-- A word written low byte first is read back (R211, R204). -/
theorem word16_writeBytes (w : Nat) :
    word16 (Memory.writeBytes [] 0 (wordBytes w)) 0 0 = BitVec.ofNat 16 w := by
  have hlo : rawByte (Memory.writeBytes [] 0 (wordBytes w)) 0 = BitVec.ofNat 8 w :=
    rawByte_writeBytes (wordBytes w) (show 0 < 2 by decide)
  have hhi : rawByte (Memory.writeBytes [] 0 (wordBytes w)) 1 = BitVec.ofNat 8 (w >>> 8) :=
    rawByte_writeBytes (wordBytes w) (show 1 < 2 by decide)
  apply BitVec.eq_of_toNat_eq
  simp only [word16_eq_unitBytes, unitByte_zero, hlo, hhi, BitVec.toNat_ofNat, Nat.shiftRight_eq_div_pow]
  omega

theorem head_tileInOrder (texel : Nat → Texel) :
    (tileInOrder texel).head?.map Placed.texel = some (texel 0) := by
  rw [List.head?_eq_getElem?, tileInOrder_get texel 0 (by decide)]
  rfl

/-! ## The round trip of one channel (R182, R253) -/

/-- A byte is the expansion of some value of an n-bit field. -/
def Representable (n : Nat) (v : Byte) : Prop := ∃ k, k < 2 ^ n ∧ v.toNat = resample k n 8

/-- A byte reduced to a field and expanded again comes back exactly when it is an expansion. -/
theorem rs_resample_eq_iff {n : Nat} (hn : 1 ≤ n) (hn8 : n ≤ 8) (v : Byte) :
    rs (resample v.toNat 8 n) n 8 = v ↔ Representable n v := by
  have hlt : resample (resample v.toNat 8 n) n 8 < 2 ^ 8 := resample_lt hn _
  have hval : (rs (resample v.toNat 8 n) n 8).toNat = resample (resample v.toNat 8 n) n 8 := by
    rw [rs, BitVec.toNat_ofNat, Nat.mod_eq_of_lt hlt]
  constructor
  · intro h
    exact ⟨_, resample_lt (s := 8) (by decide) v.toNat, by rw [← hval, h]⟩
  · rintro ⟨k, hk, hv⟩
    apply BitVec.eq_of_toNat_eq
    rw [hval, hv, resample_up_down hn hn8 hk]

theorem dupByte_eq_rs {n : Nat} (h : n < 16) : dupByte n = rs n 4 8 := by
  rw [dupByte, rs, dup4_eq h, resample_of_exact (r := 17 * n) (by decide) (by omega)]

theorem avg_grey {r g b : Byte} (hrg : r = g) (hgb : g = b) : avg r g b = r.toNat := by
  subst hrg hgb
  unfold avg
  omega

/-! ## The unit of each format (R210 to R250) -/

theorem decodeUnit_rgba8888 (b0 b1 b2 b3 : Byte) :
    decodeUnit .rgba8888 [b0, b1, b2, b3] = some (decRgba8888 b0 b1 b2 b3) := rfl

theorem decodeUnit_rgb888 (b0 b1 b2 : Byte) :
    decodeUnit .rgb888 [b0, b1, b2] = some (decRgb888 b0 b1 b2) := rfl

theorem decodeUnit_a8 (v : Byte) : decodeUnit .a8 [v] = some (decA8 v) := rfl

theorem decodeUnit_l8 (v : Byte) : decodeUnit .l8 [v] = some (decL8 v) := rfl

theorem decodeUnit_la88 (b0 b1 : Byte) : decodeUnit .la88 [b0, b1] = some (decLa88 b0 b1) := rfl

theorem decodeUnit_la44 (v : Byte) : decodeUnit .la44 [v] = some (decLa44 v) := rfl

theorem decodeUnit_rgba4444 (w : Nat) :
    decodeUnit .rgba4444 (wordBytes w) = some (decRgba4444 (BitVec.ofNat 16 w)) := by
  rw [decodeUnit, decodeTexels, head_tileInOrder, word16_writeBytes]

theorem decodeUnit_rgba5551 (w : Nat) :
    decodeUnit .rgba5551 (wordBytes w) = some (decRgba5551 (BitVec.ofNat 16 w)) := by
  rw [decodeUnit, decodeTexels, head_tileInOrder, word16_writeBytes]

theorem decodeUnit_rgb565 (w : Nat) :
    decodeUnit .rgb565 (wordBytes w) = some (decRgb565 (BitVec.ofNat 16 w)) := by
  rw [decodeUnit, decodeTexels, head_tileInOrder, word16_writeBytes]

theorem tileInOrder_get_of_head {g g₀ : Nat → Texel} {t : Nat} (ht : t < 64) (h : g t = g₀ 0) :
    (tileInOrder g)[t]? = ((tileInOrder g₀).head?.map Placed.texel).map (placeAt t) := by
  rw [tileInOrder_get g t ht, head_tileInOrder, h]
  rfl

/-- The t-th texel of a tile is the decoded t-th unit, whatever stands around the unit in RAW. -/
theorem decodeTexels_unit {f : Fmt} {enc : Texel → List Byte} (henc : encodeRoutine f = some enc)
    {raw : Memory} {c t : Nat} (ht : t < 64) {x : Texel}
    (hbytes : ∀ i (h : i < (enc x).length), rawByte raw (c + t * (enc x).length + i) = (enc x)[i]) :
    (decodeTexels raw c f)[t]? = (decodeUnit f (enc x)).map (placeAt t) := by
  have hunit {n : Nat} (hn : (enc x).length = n) (i : Nat) (hi : i < n) :
      unitByte raw c t n i = unitByte (Memory.writeBytes [] 0 (enc x)) 0 0 n i := by
    subst hn
    rw [unitByte_zero, rawByte_writeBytes _ hi, unitByte, hbytes i hi]
  have hword (hn : (enc x).length = 2) :
      word16 raw c t = word16 (Memory.writeBytes [] 0 (enc x)) 0 0 := by
    simp only [word16_eq_unitBytes, hunit hn, Nat.reduceLT]
  cases f <;> cases henc
  case rgba4444 | rgba5551 | rgb565 => exact tileInOrder_get_of_head ht (by rw [hword rfl])
  case rgba8888 => exact tileInOrder_get_of_head ht (by simp only [hunit (n := 4) rfl, Nat.reduceLT])
  case rgb888 => exact tileInOrder_get_of_head ht (by simp only [hunit (n := 3) rfl, Nat.reduceLT])
  case la88 => exact tileInOrder_get_of_head ht (by simp only [hunit (n := 2) rfl, Nat.reduceLT])
  case a8 | l8 | la44 => exact tileInOrder_get_of_head ht (by rw [hunit (n := 1) rfl 0 (by decide)])

/-! ## When a texel comes back (R182) -/

theorem Texel.mk_eq_iff {b g r a : Byte} {x : Texel} :
    Texel.mk b g r a = x ↔ r = x.r ∧ g = x.g ∧ b = x.b ∧ a = x.a := by
  obtain ⟨xb, xg, xr, xa⟩ := x
  simp only [Texel.mk.injEq]
  tauto

theorem resample_field_lt {n : Nat} (v : Byte) : resample v.toNat 8 n < 2 ^ n := resample_lt (by decide) _

theorem decRgba4444_pack {r g b a : Nat} (hr : r < 2 ^ 4) (hg : g < 2 ^ 4) (hb : b < 2 ^ 4) (ha : a < 2 ^ 4) :
    decRgba4444 (BitVec.ofNat 16 (r <<< 12 ||| g <<< 8 ||| b <<< 4 ||| a)) =
      { b := rs b 4 8, g := rs g 4 8, r := rs r 4 8, a := rs a 4 8 } := by
  rw [pack4444 hg hb ha, decRgba4444]
  simp only [bits_ofNat]
  congr 2 <;> omega

theorem decRgba5551_pack {r g b a : Nat} (hr : r < 2 ^ 5) (hg : g < 2 ^ 5) (hb : b < 2 ^ 5) (ha : a < 2 ^ 1) :
    decRgba5551 (BitVec.ofNat 16 (r <<< 11 ||| g <<< 6 ||| b <<< 1 ||| a)) =
      { b := rs b 5 8, g := rs g 5 8, r := rs r 5 8, a := rs a 1 8 } := by
  rw [pack5551 hg hb ha, decRgba5551]
  simp only [bits_ofNat]
  congr 2 <;> omega

theorem decRgb565_pack {r g b : Nat} (hr : r < 2 ^ 5) (hg : g < 2 ^ 6) (hb : b < 2 ^ 5) :
    decRgb565 (BitVec.ofNat 16 (r <<< 11 ||| g <<< 5 ||| b)) =
      { b := rs b 5 8, g := rs g 6 8, r := rs r 5 8, a := 255#8 } := by
  rw [pack565 hg hb, decRgb565]
  simp only [bits_ofNat]
  congr 2 <;> omega

theorem decLa44_pack {l a : Nat} (hl : l < 2 ^ 4) (ha : a < 2 ^ 4) :
    decLa44 (BitVec.ofNat 8 (l <<< 4 ||| a)) =
      { b := rs l 4 8, g := rs l 4 8, r := rs l 4 8, a := rs a 4 8 } := by
  have hbyte : (BitVec.ofNat 8 (l * 2 ^ 4 + a)).toNat = l * 2 ^ 4 + a := by
    rw [BitVec.toNat_ofNat]
    omega
  have hhi : (l * 2 ^ 4 + a) >>> 4 = l := by
    rw [Nat.shiftRight_eq_div_pow]
    omega
  have hlo : (l * 2 ^ 4 + a) &&& 0xF = a := by
    rw [Nat.and_two_pow_sub_one_eq_mod _ 4]
    omega
  rw [shiftLeft_or_eq l ha, decLa44, hbyte, hhi, hlo, dupByte_eq_rs hl, dupByte_eq_rs ha]

/-- A luminance taken of the average comes back in all three channels exactly when they are equal and it is
the luminance of one of them (R204). -/
theorem luminance_avg_iff {r g b : Byte} {lum : Nat → Byte} {p : Prop} :
    (lum (avg r g b) = r ∧ lum (avg r g b) = g ∧ lum (avg r g b) = b ∧ p) ↔
      (r = g ∧ g = b) ∧ lum r.toNat = r ∧ p := by
  constructor
  · rintro ⟨hr, hg, hb, hp⟩
    have hgrey : r = g ∧ g = b := ⟨hr.symm.trans hg, hg.symm.trans hb⟩
    rw [avg_grey hgrey.1 hgrey.2] at hr
    exact ⟨hgrey, hr, hp⟩
  · rintro ⟨⟨rfl, rfl⟩, hr, hp⟩
    rw [avg_grey rfl rfl]
    exact ⟨hr, hr, hr, hp⟩

section
variable (x : Texel)

theorem decodeUnit_encRgba8888 : decodeUnit .rgba8888 (encRgba8888 x) = some x :=
  decodeUnit_rgba8888 x.a x.b x.g x.r

theorem decodeUnit_encRgb888_iff : decodeUnit .rgb888 (encRgb888 x) = some x ↔ x.a = 255#8 := by
  rw [encRgb888, decodeUnit_rgb888, decRgb888, Option.some_inj, Texel.mk_eq_iff]
  simp only [true_and, eq_comm]

theorem decodeUnit_encA8_iff :
    decodeUnit .a8 (encA8 x) = some x ↔ x.r = 255#8 ∧ x.g = 255#8 ∧ x.b = 255#8 := by
  rw [encA8, decodeUnit_a8, decA8, Option.some_inj, Texel.mk_eq_iff]
  simp only [and_true, eq_comm]

theorem decodeUnit_encL8_iff :
    decodeUnit .l8 (encL8 x) = some x ↔ (x.r = x.g ∧ x.g = x.b) ∧ x.a = 255#8 := by
  rw [encL8, decodeUnit_l8, decL8, Option.some_inj, Texel.mk_eq_iff,
    luminance_avg_iff (lum := BitVec.ofNat 8)]
  simp only [BitVec.ofNat_toNat, BitVec.setWidth_eq, true_and, eq_comm (a := x.a)]

theorem decodeUnit_encLa88_iff :
    decodeUnit .la88 (encLa88 x) = some x ↔ x.r = x.g ∧ x.g = x.b := by
  rw [encLa88, decodeUnit_la88, decLa88, Option.some_inj, Texel.mk_eq_iff,
    luminance_avg_iff (lum := BitVec.ofNat 8)]
  simp only [BitVec.ofNat_toNat, BitVec.setWidth_eq, and_true]

theorem decodeUnit_encLa44_iff :
    decodeUnit .la44 (encLa44 x) = some x ↔
      (x.r = x.g ∧ x.g = x.b) ∧ Representable 4 x.r ∧ Representable 4 x.a := by
  rw [encLa44, decodeUnit_la44, decLa44_pack (resample_lt (by decide) _) (resample_field_lt _),
    Option.some_inj, Texel.mk_eq_iff, luminance_avg_iff (lum := fun v => rs (resample v 8 4) 4 8)]
  simp only [rs_resample_eq_iff (n := 4) (by decide) (by decide)]

theorem decodeUnit_encRgba4444_iff :
    decodeUnit .rgba4444 (encRgba4444 x) = some x ↔
      Representable 4 x.r ∧ Representable 4 x.g ∧ Representable 4 x.b ∧ Representable 4 x.a := by
  rw [encRgba4444, decodeUnit_rgba4444, decRgba4444_pack (resample_field_lt _) (resample_field_lt _)
    (resample_field_lt _) (resample_field_lt _), Option.some_inj, Texel.mk_eq_iff]
  simp only [rs_resample_eq_iff (n := 4) (by decide) (by decide)]

theorem decodeUnit_encRgba5551_iff :
    decodeUnit .rgba5551 (encRgba5551 x) = some x ↔
      Representable 5 x.r ∧ Representable 5 x.g ∧ Representable 5 x.b ∧ Representable 1 x.a := by
  rw [encRgba5551, decodeUnit_rgba5551, decRgba5551_pack (resample_field_lt _) (resample_field_lt _)
    (resample_field_lt _) (resample_field_lt _), Option.some_inj, Texel.mk_eq_iff]
  simp only [rs_resample_eq_iff (n := 5) (by decide) (by decide),
    rs_resample_eq_iff (n := 1) (by decide) (by decide)]

theorem decodeUnit_encRgb565_iff :
    decodeUnit .rgb565 (encRgb565 x) = some x ↔
      x.a = 255#8 ∧ Representable 5 x.r ∧ Representable 6 x.g ∧ Representable 5 x.b := by
  rw [encRgb565, decodeUnit_rgb565, decRgb565_pack (resample_field_lt _) (resample_field_lt _)
    (resample_field_lt _), Option.some_inj, Texel.mk_eq_iff]
  simp only [rs_resample_eq_iff (n := 5) (by decide) (by decide),
    rs_resample_eq_iff (n := 6) (by decide) (by decide), eq_comm (a := x.a)]
  tauto

end

/-- Settles O52: a texel is its four channels, and each comes back as its field of the unit allows. -/
theorem texelRoundTripConditions : Obligations.TexelRoundTripConditions := by
  unfold Obligations.TexelRoundTripConditions
  intro f enc x henc representable grey condition
  cases f <;> cases henc
  case rgba4444 => exact decodeUnit_encRgba4444_iff x
  case rgba5551 => exact decodeUnit_encRgba5551_iff x
  case rgba8888 => exact iff_of_true (decodeUnit_encRgba8888 x) trivial
  case rgb565 => exact decodeUnit_encRgb565_iff x
  case rgb888 => exact decodeUnit_encRgb888_iff x
  case a8 => exact decodeUnit_encA8_iff x
  case l8 => exact decodeUnit_encL8_iff x
  case la88 => exact decodeUnit_encLa88_iff x
  case la44 => exact decodeUnit_encLa44_iff x

/-! ## The tiles of an image do not overlap (R152, R174) -/

/-- A column inside the row can be read off the pixel index, and so can the row. -/
theorem pixelIndex_mod_div {w x y row col : Nat} (h : col + x < w) :
    pixelIndex w x y row col % w = col + x ∧ pixelIndex w x y row col / w = row + y := by
  rw [pixelIndex]
  exact ⟨Nat.mul_add_mod_of_lt h, by
    rw [Nat.mul_comm, Nat.mul_add_div (by omega), Nat.div_eq_of_lt h, Nat.add_zero]⟩

/-- In an image whose width is a multiple of 8 no byte belongs to two tiles. -/
theorem tileByte_unique {w h a : Nat} (hw : w % 8 = 0) {o o' : Nat × Nat} (ho : o ∈ tiles w h)
    (ho' : o' ∈ tiles w h) (ha : TileByte w h o.1 o.2 a) (ha' : TileByte w h o'.1 o'.2 a) : o' = o := by
  obtain ⟨row, col, hrow, hcol, -, hp⟩ := ha
  obtain ⟨row', col', hrow', hcol', -, hp'⟩ := ha'
  obtain ⟨tx, ty, hx, -, rfl⟩ := mem_tiles.1 ho
  obtain ⟨tx', ty', hx', -, rfl⟩ := mem_tiles.1 ho'
  simp only [tilesAcross] at hx hx' hp hp'
  obtain ⟨hmod, hdiv⟩ := pixelIndex_mod_div (y := 8 * ty) (row := row) (show col + 8 * tx < w by omega)
  obtain ⟨hmod', hdiv'⟩ := pixelIndex_mod_div (y := 8 * ty') (row := row') (show col' + 8 * tx' < w by omega)
  rw [← hp] at hmod hdiv
  rw [← hp'] at hmod' hdiv'
  simp only [Prod.mk.injEq]
  omega

/-- An origin stands in the traversal once. -/
theorem tiles_index_unique {w h k k' : Nat} {o : Nat × Nat} (hk : (tiles w h)[k]? = some o)
    (hk' : (tiles w h)[k']? = some o) : k = k' := by
  have h1 := (tiles_get w h k (List.getElem?_eq_some_iff.1 hk).1).symm.trans hk
  have h2 := (tiles_get w h k' (List.getElem?_eq_some_iff.1 hk').1).symm.trans hk'
  simp only [Option.some_inj] at h1 h2
  simp only [← h2, Prod.mk.injEq, Nat.mul_left_cancel_iff (show 0 < 8 by decide)] at h1
  rw [← Nat.div_add_mod k (tilesAcross w), ← Nat.div_add_mod k' (tilesAcross w), h1.1, h1.2]

/-- Every place of a tile comes up in the tile order. -/
theorem exists_tileIndex {row col : Nat} (hrow : row < 8) (hcol : col < 8) :
    ∃ t < 64, tileRow t = row ∧ tileCol t = col := by
  obtain ⟨t, ht, hraster⟩ := List.mem_map.1
    (map_tileOrder_perm.mem_iff.2 (List.mem_range.2 (show 8 * row + col < 64 by omega)))
  refine ⟨t, List.mem_range.1 ht, ?_, ?_⟩
  · rw [tileRow, hraster]
    omega
  · rw [tileCol, hraster]
    omega

/-- In an aligned tile different places in the tile order have different pixel indices. -/
theorem pixel_tileOrder_injective {fr : Frame} (hw : fr.w % 8 = 0) (hx : fr.x % 8 = 0) (hpos : 0 < fr.w)
    {t t' : Nat} (ht : t < 64) (ht' : t' < 64)
    (h : fr.pixel (tileRow t) (tileCol t) = fr.pixel (tileRow t') (tileCol t')) : t = t' :=
  List.inj_on_of_nodup_map (map_tileOrder_perm.nodup_iff.2 List.nodup_range) (List.mem_range.2 ht)
    (List.mem_range.2 ht') (rasterPixel_injective hw hx hpos h)

/-! ## One tile of an encoded or decoded image -/

/-- Encoding leaves every byte below the output length it began with. -/
theorem read_encodedOut_below {f : Fmt} {enc : Texel → List Byte} (sp : Space) (w h : Nat) (pix : Memory)
    (os : List (Nat × Nat)) {n : Nat} (draws : Nat) (out : Memory) {a : Nat} (ha : a < n) :
    Memory.read sp (encodedOut f enc w h pix os n draws out) a = Memory.read sp out a := by
  induction os generalizing n draws out with
  | nil => rfl
  | cons o os ih => rw [encodedOut, ih _ _ (by omega), read_writeBytes_outside _ _ _ _ _ (.inl ha)]

/-- The bytes of the k-th tile stand at its place in the output, in whatever space they are read. -/
theorem read_encodedOut_tile {f : Fmt} {enc : Texel → List Byte} (henc : encodeRoutine f = some enc)
    (sp : Space) (w h : Nat) (pix : Memory) {os : List (Nat × Nat)} (n draws : Nat) (out : Memory) {k i : Nat}
    {o : Nat × Nat} (hk : os[k]? = some o) (hi : i < tileBytes f) :
    Memory.read sp (encodedOut f enc w h pix os n draws out) (n + k * tileBytes f + i) =
      (tileUnits enc w h o pix (draws + 64 * k)).getD i 0#8 := by
  induction os generalizing n draws out k with
  | nil => cases hk
  | cons o' os ih =>
    rw [encodedOut]
    cases k with
    | zero =>
      obtain rfl : o' = o := by simpa using hk
      have hlt : i < (tileUnits enc w h o' pix draws).length := by rwa [tileUnits_length henc]
      rw [Nat.zero_mul, Nat.mul_zero, Nat.add_zero n, Nat.add_zero draws,
        read_encodedOut_below _ _ _ _ _ _ _ (by omega), read_writeBytes_inside _ _ _ _ _ hlt,
        List.getD_eq_getElem _ _ hlt]
    | succ k =>
      have hplace : n + (k + 1) * tileBytes f + i = n + tileBytes f + k * tileBytes f + i := by
        rw [Nat.succ_mul]
        omega
      have hdraws : draws + 64 * (k + 1) = draws + 64 + 64 * k := by omega
      rw [hplace, hdraws]
      exact ih _ _ _ (by simpa using hk)

/-- Unit j of the k-th tile. -/
theorem read_encodedOut_unit {f : Fmt} {enc : Texel → List Byte} (henc : encodeRoutine f = some enc)
    (sp : Space) (w h : Nat) (pix : Memory) {os : List (Nat × Nat)} (n draws : Nat) (out : Memory)
    {k j i : Nat} {o : Nat × Nat} {x : Texel} (hk : os[k]? = some o) (hj : j < 64)
    (hx : loadTexel { w := w, h := h, x := o.1, y := o.2 } pix (draws + 64 * k) j = x)
    (hi : i < (enc x).length) :
    Memory.read sp (encodedOut f enc w h pix os n draws out) (n + k * tileBytes f + j * (enc x).length + i) =
      (enc x)[i] := by
  have hlen (y : Texel) : (enc y).length = (enc x).length := by
    have := encodeRoutine_length henc x
    have := encodeRoutine_length henc y
    omega
  have hlt : j * (enc x).length + i < tileBytes f := by
    have := Nat.mul_le_mul_right (enc x).length (Nat.succ_le_of_lt hj)
    rw [encodeRoutine_length henc x, Nat.succ_mul] at this
    omega
  rw [Nat.add_assoc, read_encodedOut_tile henc sp w h pix n draws out hk hlt, tileUnits,
    flatMap_units_getD _ 64 _ j i 0#8 (fun t => hlen _) hj hi, hx, List.getD_eq_getElem _ _ hi]

/-- A byte of no later tile is as the k-th tile of a walk of decodes left it. -/
theorem read_decodedPix_tile (f : Fmt) (w h : Nat) (raw : Memory) {os : List (Nat × Nat)} (c : Nat)
    (pix : Memory) {k : Nat} {o : Nat × Nat} (hk : os[k]? = some o) :
    ∃ m, ∀ a, (∀ k' o', k < k' → os[k']? = some o' → ¬TileByte w h o'.1 o'.2 a) →
      Memory.read .pix (decodedPix f w h raw os c pix) a =
        Memory.read .pix (placeTexels { w := w, h := h, x := o.1, y := o.2 } m
          (decodeTexels raw (c + k * tileBytes f) f)) a := by
  induction os generalizing c pix k with
  | nil => cases hk
  | cons o' os ih =>
    cases k with
    | zero =>
      obtain rfl : o' = o := by simpa using hk
      refine ⟨pix, fun a ha => ?_⟩
      rw [decodedPix, read_decodedPix_frame _ _ _ _ _ _ _ _ fun o'' ho'' => ?_, Nat.zero_mul, Nat.add_zero]
      obtain ⟨k', hk'⟩ := List.mem_iff_getElem?.1 ho''
      exact ha (k' + 1) o'' (Nat.succ_pos k') (by simpa using hk')
    | succ k =>
      obtain ⟨m, hm⟩ := ih (c + tileBytes f)
        (placeTexels { w := w, h := h, x := o'.1, y := o'.2 } pix (decodeTexels raw c f)) (by simpa using hk)
      refine ⟨m, fun a ha => ?_⟩
      have hplace : c + (k + 1) * tileBytes f = c + tileBytes f + k * tileBytes f := by
        rw [Nat.succ_mul]
        omega
      rw [decodedPix, hplace]
      exact hm a fun k' o'' hlt hk' => ha (k' + 1) o'' (Nat.succ_lt_succ hlt) (by simpa using hk')

/-- A format with an encoder stores its texels in the tile order (R201). -/
theorem decodeTexels_inOrder {f : Fmt} {enc : Texel → List Byte} (henc : encodeRoutine f = some enc)
    (raw : Memory) (c : Nat) : ∃ texel, decodeTexels raw c f = tileInOrder texel := by
  cases f <;> cases henc <;> exact ⟨_, rfl⟩

/-- In an aligned tile the texel at the place of unit j is that unit decoded. -/
theorem pixRead_decoded_unit {f : Fmt} {enc : Texel → List Byte} (henc : encodeRoutine f = some enc)
    {fr : Frame} (hw : fr.w % 8 = 0) (hx : fr.x % 8 = 0) {raw : Memory} (m : Memory) {c j : Nat} (hj : j < 64)
    (hin : fr.pixel (tileRow j) (tileCol j) < fr.w * fr.h) {x : Texel}
    (hbytes : ∀ i (h : i < (enc x).length), rawByte raw (c + j * (enc x).length + i) = (enc x)[i]) :
    decodeUnit f (enc x) =
      some (pixRead (placeTexels fr m (decodeTexels raw c f)) (fr.pixel (tileRow j) (tileCol j))) := by
  have hpos : 0 < fr.w := Nat.pos_of_mul_pos_right (Nat.zero_lt_of_lt hin)
  obtain ⟨texel, horder⟩ := decodeTexels_inOrder henc raw c
  have hunit := decodeTexels_unit henc hj hbytes
  rw [horder, tileInOrder_get texel j hj] at hunit
  obtain ⟨y, hy, hplaced⟩ := Option.map_eq_some_iff.1 hunit.symm
  have hq : (tileInOrder texel)[j]? = some (placeAt j y) := by rw [tileInOrder_get texel j hj, hplaced]
  rw [hy, horder]
  refine congrArg some (pixRead_placeTexels fr m _ j (placeAt j y) hq hin fun j' q' hlt hq' hsame => ?_).symm
  have hj' : j' < 64 := tileInOrder_length texel ▸ (List.getElem?_eq_some_iff.1 hq').1
  rw [tileInOrder_get texel j' hj'] at hq'
  cases hq'
  exact Nat.ne_of_gt hlt (pixel_tileOrder_injective hw hx hpos hj' hj hsame)

/-! ## The round trip of an image (R182) -/

/-- Decoding an image's encoded tiles gives at every pixel index its own unit decoded. -/
theorem pixRead_decodedPix_encodedOut {f : Fmt} {enc : Texel → List Byte} (henc : encodeRoutine f = some enc)
    {w h : Nat} (hw : w % 8 = 0) (pix pix' out : Memory) (draws : Nat) {p : Nat}
    (hp : p < w * h) :
    decodeUnit f (enc (pixRead pix p)) = some (pixRead (decodedPix f w h
      (encodedOut f enc w h pix (tiles w h) 0 draws out) (tiles w h) 0 pix') p) := by
  obtain ⟨x, y, row, col, hmem, hrow, hcol, -, -, hpixel⟩ := exists_tile_of_pixel hp
  obtain ⟨j, hj, rfl, rfl⟩ := exists_tileIndex hrow hcol
  obtain ⟨k, hk⟩ := List.mem_iff_getElem?.1 hmem
  obtain ⟨tx, ty, -, -, horigin⟩ := mem_tiles.1 hmem
  obtain ⟨rfl, rfl⟩ := Prod.mk.inj horigin
  subst hpixel
  obtain ⟨m, hm⟩ := read_decodedPix_tile f w h (encodedOut f enc w h pix (tiles w h) 0 draws out) 0 pix' hk
  have hload := loadTexel_inside (fr := { w := w, h := h, x := 8 * tx, y := 8 * ty }) (pix := pix)
    (draws := draws + 64 * k) (t := j) hp
  have hdecoded := pixRead_decoded_unit henc (fr := { w := w, h := h, x := 8 * tx, y := 8 * ty }) hw
    (Nat.mul_mod_right 8 tx) m hj hp fun i hi =>
      read_encodedOut_unit henc .raw w h pix 0 draws out hk hj hload hi
  refine hdecoded.trans (congrArg some (pixRead_congr fun a ha => (hm a fun k' o' hlt hk' hlater => ?_).symm))
  have hbyte : TileByte w h (8 * tx) (8 * ty) a := ⟨_, _, tileRow_lt j, tileCol_lt j, hp, ha⟩
  have hsame := tileByte_unique hw hmem (List.mem_of_getElem? hk') hbyte hlater
  exact Nat.ne_of_lt hlt (tiles_index_unique hk (hsame ▸ hk'))

/-- What a DECI that completes leaves in PIX. -/
theorem pix_of_deci {s u : State} {f : Fmt} (hexec : exec .deci s = .next u) (himage : ImageReady s)
    (hraw : RawReady s) (hcode : codeTable s.params s.dtype s.pfmt = some f)
    (hbytes : tileBytes f * tileCount s ≤ s.rawLen.toNat) :
    u.pix = decodedPix f s.width.toNat s.height.toNat s.raw (imageTiles s) 0 s.pix := by
  obtain rfl := Host.Outcome.next.inj ((exec_deci_ok himage hraw hcode hbytes).symm.trans hexec)
  rfl

/-- Settles O53: ENCI's output is the encoded tiles, and DECI decodes them from the copy. -/
theorem imageRoundTrip : Obligations.ImageRoundTrip := by
  unfold Obligations.ImageRoundTrip
  intro s t u f enc himage hw _ hcode henc hroom hraw hencode hdecode p hp
  obtain rfl := Host.Outcome.next.inj ((exec_enci_ok himage hcode henc hroom).symm.trans hencode)
  have hlen : (BitVec.ofNat 64 (tileBytes f * tileCount s)).toNat = tileBytes f * tileCount s :=
    toNat_ofNat_of_le hroom
  rw [pix_of_deci hdecode himage (hlen.trans_le hraw) hcode hlen.ge]
  exact pixRead_decodedPix_encodedOut henc hw s.pix s.pix s.out s.draws hp

end Sys2Proof.Machine

/-!
PROOFS. The statements of 43_format_codecs.md: the texel that each format decodes a unit to, the unit that each
encoder emits for a texel, and the formats without an encoder.
-/

namespace Sys2Proof.Machine

/-! ## The resampler at the widths of the formats (R130, R136) -/

/-- The resampler reads only the field of its value (R130). -/
theorem rs_mod (v s t : Nat) : rs (v % 2 ^ s) s t = rs v s t := by
  simp only [rs, resample_eq, Nat.mod_mod]

/-- A field of a word resamples as the word shifted down to the field does. -/
theorem rs_bits {n : Nat} (v : BitVec n) (hi lo t : Nat) :
    rs (bits v hi lo) (hi - lo + 1) t = rs (v.toNat / 2 ^ lo) (hi - lo + 1) t := by
  rw [bits_eq, rs_mod]

theorem dupByte_eq {n : Nat} (h : n < 16) : dupByte n = BitVec.ofNat 8 (17 * n) := by rw [dupByte, dup4_eq h]

theorem rs_nibble (v : Nat) : rs v 4 8 = BitVec.ofNat 8 (17 * (v % 16)) := by
  have hv : v % 16 < 16 := Nat.mod_lt v (by decide)
  rw [← dupByte_eq hv, dupByte_eq_rs hv]
  exact (rs_mod v 4 8).symm

theorem rs_five (v : Nat) : rs v 5 8 = BitVec.ofNat 8 ((v % 32 * 255 + 15) / 31) := by
  rw [rs, resample_eq]
  rfl

theorem rs_six (v : Nat) : rs v 6 8 = BitVec.ofNat 8 ((v % 64 * 255 + 31) / 63) := by
  rw [rs, resample_eq]
  rfl

theorem rs_one (v : Nat) : rs v 1 8 = BitVec.ofNat 8 (255 * (v % 2)) := by
  rw [rs, resample_of_exact (r := 255 * (v % 2)) (by decide) (by omega)]

/-- An 8-bit value reduced to n bits (R211). -/
theorem resample_of_byte {v : Nat} (h : v < 2 ^ 8) (n : Nat) : resample v 8 n = (v * (2 ^ n - 1) + 127) / 255 := by
  rw [resample_eq, Nat.mod_eq_of_lt h]
  rfl

theorem avg_lt (r g b : Byte) : avg r g b < 2 ^ 8 := by
  unfold avg
  omega

/-! ## Decoding a 16-bit word (R210, R215, R225) -/

theorem word16_toNat (raw : Memory) (c t : Nat) :
    (word16 raw c t).toNat =
      (Memory.read .raw raw (c + 2 * t)).toNat + 256 * (Memory.read .raw raw (c + 2 * t + 1)).toNat := by
  rw [word16_eq_unitBytes, Nat.mul_comm 2 t, BitVec.toNat_ofNat]
  exact Nat.mod_eq_of_lt (by omega)

theorem decRgba4444_eq (v : BitVec 16) :
    decRgba4444 v =
      { b := rs (v.toNat / 2 ^ 4) 4 8, g := rs (v.toNat / 2 ^ 8) 4 8
        r := rs (v.toNat / 2 ^ 12) 4 8, a := rs v.toNat 4 8 } := by
  rw [decRgba4444, rs_bits v 7 4, rs_bits v 11 8, rs_bits v 15 12, rs_bits v 3 0, Nat.pow_zero, Nat.div_one]

theorem decRgba5551_eq (v : BitVec 16) :
    decRgba5551 v =
      { b := rs (v.toNat / 2 ^ 1) 5 8, g := rs (v.toNat / 2 ^ 6) 5 8
        r := rs (v.toNat / 2 ^ 11) 5 8, a := rs v.toNat 1 8 } := by
  rw [decRgba5551, rs_bits v 5 1, rs_bits v 10 6, rs_bits v 15 11, rs_bits v 0 0, Nat.pow_zero, Nat.div_one]

theorem decRgb565_eq (v : BitVec 16) :
    decRgb565 v =
      { b := rs v.toNat 5 8, g := rs (v.toNat / 2 ^ 5) 6 8, r := rs (v.toNat / 2 ^ 11) 5 8, a := 255#8 } := by
  rw [decRgb565, rs_bits v 4 0, rs_bits v 10 5, rs_bits v 15 11, Nat.pow_zero, Nat.div_one]

/-- Settles O34: each field of the word, expanded to a byte. -/
theorem wordFormatsDecode : Obligations.WordFormatsDecode := by
  unfold Obligations.WordFormatsDecode
  refine ⟨by decide, fun raw c t ht => ⟨?_, ?_, ?_⟩⟩
  all_goals
    rw [decodeTexels, tileInOrder_get _ t ht]
    simp only [decRgba4444_eq, decRgba5551_eq, decRgb565_eq, word16_toNat, rs_nibble, rs_five, rs_six, rs_one]
    rfl

/-! ## Decoding bytes (R220, R230, R235, R240, R245) -/

theorem unitByte_eq (raw : Memory) (c t n i : Nat) :
    unitByte raw c t n i = Memory.read .raw raw (c + n * t + i) := by
  rw [unitByte, rawByte, Nat.mul_comm]

/-- Settles O35: the bytes of unit t, in the order of the stream. -/
theorem byteFormatsDecode : Obligations.ByteFormatsDecode := by
  unfold Obligations.ByteFormatsDecode
  refine ⟨by decide, fun raw c t ht => ⟨?_, ?_, ?_, ?_, ?_⟩⟩
  all_goals
    rw [decodeTexels, tileInOrder_get _ t ht]
    simp only [unitByte_eq, Nat.one_mul]
    rfl

/-! ## Decoding nibbles (R238, R243, R250) -/

theorem and_nibble (n : Nat) : n &&& 0xF = n % 16 := Nat.and_two_pow_sub_one_eq_mod n 4

/-- The low nibble of the byte for an even texel, the high one for an odd texel (R204). -/
theorem nib_eq (raw : Memory) (c t : Nat) :
    nib raw c t =
      if t % 2 = 0 then (Memory.read .raw raw (c + t / 2)).toNat % 16
      else (Memory.read .raw raw (c + t / 2)).toNat / 16 := by
  have hbyte := (rawByte raw (c + t / 2)).isLt
  rw [nib, Nat.shiftRight_eq_div_pow, and_nibble]
  obtain heven | hodd := Nat.mod_two_eq_zero_or_one t
  · rw [heven]
    simp [rawByte]
  · rw [hodd, if_neg (by decide)]
    exact Nat.mod_eq_of_lt (by omega)

theorem nib_lt (raw : Memory) (c t : Nat) : nib raw c t < 16 := Nat.and_lt_two_pow _ (n := 4) (by decide)

theorem decLa44_eq (v : Byte) :
    decLa44 v =
      { b := BitVec.ofNat 8 (17 * (v.toNat / 16)), g := BitVec.ofNat 8 (17 * (v.toNat / 16))
        r := BitVec.ofNat 8 (17 * (v.toNat / 16)), a := BitVec.ofNat 8 (17 * (v.toNat % 16)) } := by
  have hhi : v.toNat / 2 ^ 4 < 16 := by omega
  have hlo : v.toNat % 16 < 16 := Nat.mod_lt _ (by decide)
  rw [decLa44, Nat.shiftRight_eq_div_pow, and_nibble, dupByte_eq hhi, dupByte_eq hlo]
  rfl

/-- Settles O36: the nibble of texel t, and the two nibbles of a byte. -/
theorem nibbleFormatsDecode : Obligations.NibbleFormatsDecode := by
  unfold Obligations.NibbleFormatsDecode
  refine ⟨by decide, fun raw c t ht => ⟨?_, ?_, ?_⟩⟩
  · rw [decodeTexels, tileInOrder_get _ t ht, decA4, dupByte_eq (nib_lt raw c t), nib_eq]
    rfl
  · rw [decodeTexels, tileInOrder_get _ t ht, decL4, dupByte_eq (nib_lt raw c t), nib_eq]
    rfl
  · rw [decodeTexels, tileInOrder_get _ t ht, decLa44_eq, unitByte_eq, Nat.one_mul]
    rfl

/-! ## The units the encoders emit (R211 to R251) -/

theorem wordBytes_eq (w : Nat) : wordBytes w = [BitVec.ofNat 8 w, BitVec.ofNat 8 (w / 256)] := by
  rw [wordBytes, Nat.shiftRight_eq_div_pow]

theorem encRgba4444_eq (x : Texel) :
    encRgba4444 x = wordBytes (resample x.r.toNat 8 4 * 2 ^ 12 + resample x.g.toNat 8 4 * 2 ^ 8 +
      resample x.b.toNat 8 4 * 2 ^ 4 + resample x.a.toNat 8 4) := by
  rw [encRgba4444, pack4444 (resample_field_lt _) (resample_field_lt _) (resample_field_lt _)]

theorem encRgba5551_eq (x : Texel) :
    encRgba5551 x = wordBytes (resample x.r.toNat 8 5 * 2 ^ 11 + resample x.g.toNat 8 5 * 2 ^ 6 +
      resample x.b.toNat 8 5 * 2 ^ 1 + resample x.a.toNat 8 1) := by
  rw [encRgba5551, pack5551 (resample_field_lt _) (resample_field_lt _) (resample_field_lt _)]

theorem encRgb565_eq (x : Texel) :
    encRgb565 x = wordBytes (resample x.r.toNat 8 5 * 2 ^ 11 + resample x.g.toNat 8 6 * 2 ^ 5 +
      resample x.b.toNat 8 5) := by
  rw [encRgb565, pack565 (resample_field_lt _) (resample_field_lt _)]

theorem encLa44_eq (x : Texel) :
    encLa44 x = [BitVec.ofNat 8 (resample (avg x.r x.g x.b) 8 4 * 2 ^ 4 + resample x.a.toNat 8 4)] := by
  rw [encLa44, shiftLeft_or_eq _ (resample_field_lt _)]

/-- Settles O40: the packed fields are summands of the word, and each is its channel reduced. -/
theorem encodersEmitUnits : Obligations.EncodersEmitUnits := by
  unfold Obligations.EncodersEmitUnits
  refine ⟨by decide, ?_⟩
  intro x b g r a down word unit
  have hdown (n : Nat) (v : Byte) : resample v.toNat 8 n = down n v.toNat := resample_of_byte v.isLt n
  have havg : resample (avg x.r x.g x.b) 8 4 = down 4 ((r + g + b) / 3) := resample_of_byte (avg_lt ..) 4
  refine ⟨(congrArg some (encRgba4444_eq x)).trans ?_, (congrArg some (encRgba5551_eq x)).trans ?_, rfl,
    (congrArg some (encRgb565_eq x)).trans ?_, rfl, rfl, rfl, rfl, (congrArg some (encLa44_eq x)).trans ?_⟩
  all_goals
    simp only [wordBytes_eq, hdown, havg]
    rfl

/-! ## The formats without an encoder (R239, R244, R277) -/

theorem encodeRoutine_eq_none_iff (f : Fmt) :
    encodeRoutine f = none ↔ f = .etc1 ∨ f = .etc1a4 ∨ f = .a4 ∨ f = .l4 := by
  cases f
  case etc1 | etc1a4 | a4 | l4 => exact iff_of_true rfl (by decide)
  all_goals exact iff_of_false nofun (by decide)

/-- An ENCT without an encode routine records UnsupportedOperation and changes nothing else (R177). -/
theorem exec_enct_unsupported {s : State} {f : Fmt} (hready : EnctReady s) (hnone : encodeRoutine f = none) :
    exec (.enct f) s = .next (s.raise .unsupportedOperation (encode (.enct f)) 0#64) := by
  rw [exec_enct, enctBody_ready f s hready, hnone, command_eq, Res.finish_raised]

/-- Settles O41: the formats by cases, and each of the four commands as one without an encode routine. -/
theorem absentEncodersAreUnsupported : Obligations.AbsentEncodersAreUnsupported := by
  unfold Obligations.AbsentEncodersAreUnsupported
  exact ⟨encodeRoutine_eq_none_iff, fun s hready =>
    ⟨exec_enct_unsupported (f := .etc1) hready rfl, exec_enct_unsupported (f := .etc1a4) hready rfl,
      exec_enct_unsupported (f := .a4) hready rfl, exec_enct_unsupported (f := .l4) hready rfl⟩⟩

end Sys2Proof.Machine

/-!
PROOFS. The statements of 44_block_decompressor.md: the base colours of a block as numbers, and the ranges of
bases, modifiers and channels.
-/

namespace Sys2Proof.Machine

/-! ## The expansion of a five-bit value (R265) -/

/-- The two shifted copies do not overlap, so their union is their sum. -/
theorem exp5_five_bits {v : Int} (h0 : 0 ≤ v) (h31 : v ≤ 31) : exp5 v = 8 * v + v / 4 := by
  obtain ⟨n, rfl⟩ := Int.eq_ofNat_of_zero_le h0
  have hlow : n >>> 2 < 2 ^ 3 := by
    rw [Nat.shiftRight_eq_div_pow]
    omega
  calc exp5 n = ((n <<< 3 ||| n >>> 2 : Nat) : Int) := by rw [Nat.shiftLeft_eq]; rfl
    _ = 8 * n + n / 4 := by
      rw [shiftLeft_or_eq n hlow, Nat.shiftRight_eq_div_pow]
      omega

/-- A negative sum shifts down to -1, every bit of which is set. -/
theorem exp5_negative {v : Int} (h4 : -4 ≤ v) (h1 : v ≤ -1) : exp5 v = -1 := by
  obtain rfl | rfl | rfl | rfl : v = -4 ∨ v = -3 ∨ v = -2 ∨ v = -1 := by omega
  all_goals decide

theorem exp5_past_five_bits : exp5 32 = 264 ∧ exp5 33 = 264 ∧ exp5 34 = 280 := by decide

theorem exp5_five_bits_range {v : Int} (h0 : 0 ≤ v) (h31 : v ≤ 31) : 0 ≤ exp5 v ∧ exp5 v ≤ 255 := by
  rw [exp5_five_bits h0 h31]
  omega

/-- What the sum of a five-bit value and a delta expands to (R266, R273). -/
theorem exp5_sum_range {v : Int} (h4 : -4 ≤ v) (h34 : v ≤ 34) :
    exp5 v = -1 ∨ (0 ≤ exp5 v ∧ exp5 v ≤ 255) ∨ exp5 v = 264 ∨ exp5 v = 280 := by
  obtain ⟨h32, h33, h34'⟩ := exp5_past_five_bits
  obtain hneg | hin | rfl | rfl | rfl : v ≤ -1 ∨ (0 ≤ v ∧ v ≤ 31) ∨ v = 32 ∨ v = 33 ∨ v = 34 := by omega
  · exact .inl (exp5_negative h4 hneg)
  · exact .inr (.inl (exp5_five_bits_range hin.1 hin.2))
  · exact .inr (.inr (.inl h32))
  · exact .inr (.inr (.inl h33))
  · exact .inr (.inr (.inr h34'))

/-! ## The base colours (R261, R264, R266) -/

theorem sext3_eq (n : Nat) : sext3 n = if n < 4 then (n : Int) else n - 8 := by
  unfold sext3
  split_ifs <;> omega

theorem sext3_range {n : Nat} (h : n < 8) : -4 ≤ sext3 n ∧ sext3 n ≤ 3 := by
  rw [sext3_eq]
  omega

theorem diffMode_eq (d : Word64) : diffMode d = decide (d.toNat / 2 ^ 33 % 2 = 1) := by
  rw [diffMode, BitVec.getLsbD, Nat.testBit_eq_decide_div_mod_eq]

theorem dup4_bits (d : Word64) (lo : Nat) : (dup4 (bits d (lo + 3) lo) : Int) = 17 * bits d (lo + 3) lo := by
  have hnibble : bits d (lo + 3) lo < 16 := by simpa using bits_lt d (lo + 3) lo
  rw [dup4_eq hnibble, Nat.cast_mul, Nat.cast_ofNat]

theorem baseA_individual {d : Word64} (h : diffMode d = false) :
    baseA d = { r := 17 * bits d 63 60, g := 17 * bits d 55 52, b := 17 * bits d 47 44 } := by
  simp [baseA, h, dup4_bits d 60, dup4_bits d 52, dup4_bits d 44]

theorem baseB_individual {d : Word64} (h : diffMode d = false) :
    baseB d = { r := 17 * bits d 59 56, g := 17 * bits d 51 48, b := 17 * bits d 43 40 } := by
  simp [baseB, h, dup4_bits d 56, dup4_bits d 48, dup4_bits d 40]

theorem baseA_differential {d : Word64} (h : diffMode d = true) :
    baseA d = { r := exp5 (bits d 63 59), g := exp5 (bits d 55 51), b := exp5 (bits d 47 43) } :=
  if_pos h

theorem baseB_differential {d : Word64} (h : diffMode d = true) :
    baseB d = { r := exp5 (bits d 63 59 + sext3 (bits d 58 56)),
                g := exp5 (bits d 55 51 + sext3 (bits d 50 48)),
                b := exp5 (bits d 47 43 + sext3 (bits d 42 40)) } :=
  if_pos h

/-- Settles O29: the two modes of each sub-block, and the expansion on each of its ranges. -/
theorem baseColours : Obligations.BaseColours := by
  unfold Obligations.BaseColours
  refine ⟨fun d => ?_, fun _ => exp5_five_bits, fun _ => exp5_negative, exp5_past_five_bits⟩
  intro field delta
  have hfield (hi lo : Nat) : bits d hi lo = field hi lo := bits_eq d hi lo
  have hdelta (hi lo : Nat) : sext3 (field hi lo) = delta hi lo := sext3_eq _
  refine ⟨fun hmode => ?_, fun hmode => ?_⟩
  · have hindividual : diffMode d = false := by rw [diffMode_eq, hmode]; rfl
    simp only [baseA_individual hindividual, baseB_individual hindividual, hfield, and_self]
  · have hdifferential : diffMode d = true := by rw [diffMode_eq, hmode]; rfl
    simp only [baseA_differential hdifferential, baseB_differential hdifferential, hfield, hdelta, and_self]

/-! ## The ranges (R273) -/

theorem individual_base_range {n : Nat} (h : n < 16) :
    (17 : Int) ∣ 17 * n ∧ 0 ≤ (17 * n : Int) ∧ (17 * n : Int) ≤ 255 :=
  ⟨Int.dvd_mul_right 17 n, by omega, by omega⟩

theorem differential_base_range {n : Nat} (h : n < 32) : 0 ≤ exp5 n ∧ exp5 n ≤ 255 :=
  exp5_five_bits_range (by omega) (by omega)

theorem differential_sum_range {n k : Nat} (hn : n < 32) (hk : k < 8) :
    exp5 (n + sext3 k) = -1 ∨ (0 ≤ exp5 (n + sext3 k) ∧ exp5 (n + sext3 k) ≤ 255) ∨
      exp5 (n + sext3 k) = 264 ∨ exp5 (n + sext3 k) = 280 := by
  obtain ⟨hlow, hhigh⟩ := sext3_range hk
  exact exp5_sum_range (by omega) (by omega)

theorem modTable_range : ∀ r ∈ modTable, ∀ m ∈ r, -183 ≤ m ∧ m ≤ 183 := by decide

/-- An index past the table or past a row reads the 0 of `getD`. -/
theorem modifier_range (row col : Nat) : -183 ≤ modifier row col ∧ modifier row col ≤ 183 := by
  unfold modifier
  rw [List.getD_eq_getElem?_getD, List.getD_eq_getElem?_getD]
  cases hrow : modTable[row]? with
  | none => simp
  | some r =>
    cases hcol : r[col]? with
    | none => simp [hcol]
    | some m =>
      simpa [hcol] using modTable_range r (List.mem_of_getElem? hrow) m (List.mem_of_getElem? hcol)

theorem clamp8_range (v : Int) : 0 ≤ clamp8 v ∧ clamp8 v ≤ 255 := by
  unfold clamp8
  split_ifs <;> omega

/-- Settles O30: each base by its mode and the width of its field. -/
theorem blockRangeFacts : Obligations.BlockRangeFacts := by
  unfold Obligations.BlockRangeFacts
  refine ⟨fun d c hc hmode => ?_, fun d hmode => ⟨?_, ?_⟩, modifier_range, fun _ _ => clamp8_range _⟩
  · rw [baseA_individual hmode, baseB_individual hmode] at hc
    revert c
    simp only [List.forall_mem_cons]
    exact ⟨individual_base_range (bits_lt d 63 60), individual_base_range (bits_lt d 55 52),
      individual_base_range (bits_lt d 47 44), individual_base_range (bits_lt d 59 56),
      individual_base_range (bits_lt d 51 48), individual_base_range (bits_lt d 43 40), nofun⟩
  · simp only [baseA_differential hmode, List.forall_mem_cons]
    exact ⟨differential_base_range (bits_lt d 63 59), differential_base_range (bits_lt d 55 51),
      differential_base_range (bits_lt d 47 43), nofun⟩
  · simp only [baseB_differential hmode, List.forall_mem_cons]
    exact ⟨differential_sum_range (bits_lt d 63 59) (bits_lt d 58 56),
      differential_sum_range (bits_lt d 55 51) (bits_lt d 50 48),
      differential_sum_range (bits_lt d 47 43) (bits_lt d 42 40), nofun⟩

end Sys2Proof.Machine

/-!
PROOFS. The statement of 45_host_container.md on the reader's data start: whether what R295 writes at 0x80
is what R293 reads.
-/

namespace Sys2Proof.Machine

/-- The header of 0x80 bytes is half a period of the reader's modulus, so it is the whole remainder exactly
when the data adds none. -/
theorem stexDataStart_stexWrite_eq_iff (w h dt pf : Word32) (data : List Byte) :
    stexDataStart (stexWrite w h dt pf data) = 0x80 ↔ data.length % 0x100 = 0 := by
  rw [stexDataStart, stexWrite_length]
  omega

theorem stexData_stexWrite {w h dt pf : Word32} {data : List Byte} (hlen : data.length % 0x100 = 0) :
    stexData (stexWrite w h dt pf data) = data := by
  rw [stexData, (stexDataStart_stexWrite_eq_iff w h dt pf data).2 hlen, stexWrite_data]

/-- Settles O58: the written length and the data behind the header decide both directions. -/
theorem stexDataComesBackByLength : Obligations.StexDataComesBackByLength := by
  unfold Obligations.StexDataComesBackByLength
  exact fun w h dt pf data => ⟨stexHeader_length w h dt pf data.length, stexWrite_data w h dt pf data,
    stexDataStart_stexWrite_eq_iff w h dt pf data, stexData_stexWrite⟩

end Sys2Proof.Machine

/-!
PROOFS. The statements of 60_exceptions.md: what raising a fault records, and the sticky gate.
-/

namespace Sys2Proof.Machine

/-! ## What a fault records (R310, R311, R319) -/

/-- Settles O12: the code by fault, the rest of STATUS by the laws of `State.raise`. -/
theorem faultRecord : Obligations.FaultRecord := by
  unfold Obligations.FaultRecord
  intro s f c info t
  refine ⟨?_, raise_inb s f c info, reserved_statusWithErr s.status f.code, rfl⟩
  rw [show t.err = f.code from raise_err s f c info]
  cases f <;> rfl

/-! ## The sticky gate (R312) -/

/-- No fault is raised or cleared from `s` to `t`: ERR and the two fault registers are kept. -/
def KeepsFault (s t : State) : Prop :=
  t.err = s.err ∧ t.faultCmd = s.faultCmd ∧ t.faultInfo = s.faultInfo

theorem KeepsFault.refl (s : State) : KeepsFault s s := ⟨rfl, rfl, rfl⟩

theorem KeepsFault.writeRegister (s : State) (n : Nat) (v : Word64) : KeepsFault s (writeRegister s n v) := by
  obtain ⟨hstatus, -, hcmd, hinfo, -⟩ := writeRegister_frame s n v
  exact ⟨congrArg (BitVec.extractLsb 3 0) hstatus, hcmd, hinfo⟩

theorem KeepsFault.withMemory (s : State) (sp : Space) (m : Memory) : KeepsFault s (s.withMemory sp m) :=
  ⟨congrArg (BitVec.extractLsb 3 0) (s.withMemory_status sp m), s.withMemory_faultCmd sp m,
    s.withMemory_faultInfo sp m⟩

theorem hostWrite_next {s t : State} {sp : Space} {a : Nat} {bs : List Byte}
    (h : hostWrite s sp a bs = .next t) : t = s.withMemory sp (Memory.writeBytes (s.memory sp) a bs) := by
  by_cases hfits : accessFits s.params sp a bs.length = true
  · rw [hostWrite_fits hfits] at h
    cases h
    rfl
  · rw [hostWrite_outside hfits] at h
    cases h

theorem hostRead_next {s t : State} {sp : Space} {a n : Nat} (h : hostRead s sp a n = .next t) :
    t = { s with reply := .bytes (Memory.readBytes sp (s.memory sp) a n) } := by
  by_cases hfits : accessFits s.params sp a n = true
  · rw [hostRead_fits hfits] at h
    cases h
    rfl
  · rw [hostRead_outside hfits] at h
    cases h

theorem issueCommand_faulted {s : State} (c : Word32) (herr : s.err ≠ 0#4) : issueCommand c s = .next s :=
  gate_faulted _ herr

/-- With a fault pending only a reset touches it: a command is dropped, and no host access writes STATUS,
FAULT_CMD or FAULT_INFO. -/
theorem perform_keepsFault {act : HostAction} {s t : State} (herr : s.err ≠ 0#4) (hact : act ≠ .reset)
    (h : perform act s = .next t) : KeepsFault s t := by
  cases act with
  | issue c =>
    cases (issueCommand_faulted c herr).symm.trans h
    exact .refl s
  | wr n v =>
    cases h
    exact .writeRegister s n.toNat v
  | rd n =>
    cases h
    exact ⟨rfl, rfl, rfl⟩
  | memWrite sp a bs =>
    rw [hostWrite_next h]
    exact .withMemory s sp _
  | memRead sp a n =>
    rw [hostRead_next h]
    exact ⟨rfl, rfl, rfl⟩
  | reset => exact absurd rfl hact

theorem step_keepsFault {s t : State} (herr : s.err ≠ 0#4) (h : step s = .next t)
    (hhead : s.pending.head? ≠ some .reset) : KeepsFault s t := by
  cases hpending : s.pending with
  | nil =>
    cases (step_idle s hpending).symm.trans h
    exact .refl s
  | cons act rest =>
    rw [step_action s act rest hpending] at h
    have hact : act ≠ .reset := fun hreset => hhead (by rw [hpending, hreset, List.head?_cons])
    exact perform_keepsFault (s := { s with pending := rest }) herr hact h

/-- Settles O7: the gate drops a command, the laws of the step give every other access, and the fault
registers stay until a reset. -/
theorem stickyFaultGate : Obligations.StickyFaultGate := by
  unfold Obligations.StickyFaultGate
  intro s rest herr
  exact ⟨fun c hpending => step_issue_dropped hpending herr,
    fun n v => step_wr,
    fun n => step_rd,
    fun sp a bs hpending hfits => step_memWrite hpending (accessFits_of_le hfits),
    fun sp a n hpending hfits => step_memRead hpending (accessFits_of_le hfits),
    fun t => step_keepsFault herr,
    fun hpending => ⟨_, step_reset hpending, rfl⟩⟩

end Sys2Proof.Machine

/-!
PROOFS. The statement of 70_reset_and_hazards.md on the reset: what the registers and the memory spaces hold after it.
-/

namespace Sys2Proof.Machine

/-- The numbered registers hold their zero field; a number from 19 up reads a zero texel or none. -/
theorem readRegister_resetRegisters (s : State) (n : Nat) : readRegister s.resetRegisters n = 0#64 := by
  unfold readRegister
  split
  case h_20 =>
    rw [State.resetRegisters_bdTex, Vector.toList_replicate, List.getElem?_getD_replicate_default_eq]
    rfl
  all_goals rfl

/-- The state the model starts from is what a reset makes of it. -/
theorem State.reset_resetRegisters : State.reset.resetRegisters = State.reset := rfl

/-- Settles O10: the step of a reset ends in the state with its registers reset, which reads 0 at every
number; the state the model starts from is such a state. -/
theorem resetZeroesRegisters : Obligations.ResetZeroesRegisters := by
  unfold Obligations.ResetZeroesRegisters
  refine ⟨fun n => ?_, fun s rest hpending => ?_⟩
  · rw [← State.reset_resetRegisters, readRegister_resetRegisters]
  · exact ⟨_, step_reset hpending, readRegister_resetRegisters _, State.resetRegisters_raw _,
      State.resetRegisters_pix _, State.resetRegisters_out _, State.resetRegisters_params _,
      State.resetRegisters_pending _⟩

end Sys2Proof.Machine
